-- ==== Sys2Proof/Word.lean ====
section
/-!
DEFINITION. The bit-vector types of the machine and the two interval formats.

`Word` is the container of one `x` or `f` register and of `pc`: 64 bits hold every width the family allows
(spec R9); on a narrower machine the bits above the width stay zero (`Sys2Proof.Machine.State.wf`).
-/

namespace Sys2Proof

/-- One byte of memory (R60). -/
abbrev Byte := BitVec 8

/-- The container of a register and of the program counter (R20, R23, R25). -/
abbrev Word := BitVec 64

/-- An instruction word: every instruction is 32 bits long (R80). -/
abbrev InstrWord := BitVec 32

/-- A register number: the 5-bit value of an `rs1`, `rs2` or `rd` field (R20, R85). -/
abbrev Reg := BitVec 5

/-- A CSR number, of the separate 12-bit register number space (R60, R221). -/
abbrev CsrNumber := BitVec 12

/-- A set of accrued exception flags, `NV DZ OF UF NX` from bit 4 down (R14, R36). -/
abbrev FlagSet := BitVec 5

/-- The two precisions, decoded from the `fmt` field (R84, R110). -/
inductive Fmt where
  /-- half precision, IEEE 754 binary16 -/
  | h
  /-- single precision, IEEE 754 binary32 -/
  | s
  deriving DecidableEq, Repr, Inhabited

/-- `w`, the width of one bound (R13, R110). -/
abbrev Fmt.w : Fmt → Nat
  | .h => 16
  | .s => 32

/-- One floating-point datum of the format: `w` bits (R110). -/
abbrev Datum (fmt : Fmt) := BitVec fmt.w

/-- An interval: a lower and an upper bound of one format (R27). Its layout in a register, upper bound above
lower bound (R28), is `Sys2Proof.Machine.Interval.bits` and `Sys2Proof.Machine.intervalOfBits`. Nothing says
that the bounds are numbers or in order: a register can hold any bit pattern (R27). -/
structure Interval (fmt : Fmt) where
  /-- the lower bound -/
  lo : Datum fmt
  /-- the upper bound -/
  hi : Datum fmt
  deriving DecidableEq, Repr, Inhabited

end Sys2Proof
end

