-- ==== Sys2Proof/Syntax.lean ====
section
/-!
DEFINITION. The syntax: one constructor of `Instr` for each row of spec/opcode_table.json, operands in the order
of the assembler syntax (R95: `rd, rs1, rs2`, then the rounding mode; R221: `rd, csr, rs1` or `uimm`).
-/

namespace Sys2Proof

/-- The `rm` field as written in an instruction, and the content of `frm` (R86, R113). Every 3-bit value has a
constructor: `101` and `110` are encodings that an arithmetic or statistical word can carry, and the instruction
checks them (R92 line 7, R114). -/
inductive Rm where
  /-- `000` -/
  | rne
  /-- `001` -/
  | rtz
  /-- `010` -/
  | rdn
  /-- `011` -/
  | rup
  /-- `100` -/
  | rmm
  /-- `101`, reserved -/
  | reserved5
  /-- `110`, reserved -/
  | reserved6
  /-- `111`: use the mode held in `frm` -/
  | dyn
  deriving DecidableEq, Repr, Inhabited

/-- A rounding mode in force (R113). -/
inductive Mode where
  /-- to nearest, ties to even -/
  | rne
  /-- towards zero -/
  | rtz
  /-- towards minus infinity -/
  | rdn
  /-- towards plus infinity -/
  | rup
  /-- to nearest, ties to the larger magnitude -/
  | rmm
  deriving DecidableEq, Repr, Inhabited

/-- The instructions. -/
inductive Instr where
  /-- `INTADD.H` (R157) -/
  | intaddH (rd rs1 rs2 : Reg) (rm : Rm)
  /-- `INTSUB.H` (R159) -/
  | intsubH (rd rs1 rs2 : Reg) (rm : Rm)
  /-- `INTMUL.H` (R161) -/
  | intmulH (rd rs1 rs2 : Reg) (rm : Rm)
  /-- `INTDIV.H` (R163) -/
  | intdivH (rd rs1 rs2 : Reg) (rm : Rm)
  /-- `INTMID.H` (R176) -/
  | intmidH (rd rs1 : Reg) (rm : Rm)
  /-- `INTWDT.H` (R178) -/
  | intwdtH (rd rs1 : Reg) (rm : Rm)
  /-- `INTRAD.H` (R180) -/
  | intradH (rd rs1 : Reg) (rm : Rm)
  /-- `INTMIN.H` (R182) -/
  | intminH (rd rs1 : Reg) (rm : Rm)
  /-- `INTMAX.H` (R184) -/
  | intmaxH (rd rs1 : Reg) (rm : Rm)
  /-- `INTBFR.H` (R198) -/
  | intbfrH (rd rs1 rs2 : Reg)
  /-- `INTMTS.H` (R200) -/
  | intmtsH (rd rs1 rs2 : Reg)
  /-- `INTOVR.H` (R202) -/
  | intovrH (rd rs1 rs2 : Reg)
  /-- `INTDUR.H` (R204) -/
  | intdurH (rd rs1 rs2 : Reg)
  /-- `INTSTR.H` (R206) -/
  | intstrH (rd rs1 rs2 : Reg)
  /-- `INTFIN.H` (R208) -/
  | intfinH (rd rs1 rs2 : Reg)
  /-- `INTEQL.H` (R210) -/
  | inteqlH (rd rs1 rs2 : Reg)
  /-- `INTADD.S` (R158) -/
  | intaddS (rd rs1 rs2 : Reg) (rm : Rm)
  /-- `INTSUB.S` (R160) -/
  | intsubS (rd rs1 rs2 : Reg) (rm : Rm)
  /-- `INTMUL.S` (R162) -/
  | intmulS (rd rs1 rs2 : Reg) (rm : Rm)
  /-- `INTDIV.S` (R164) -/
  | intdivS (rd rs1 rs2 : Reg) (rm : Rm)
  /-- `INTMID.S` (R177) -/
  | intmidS (rd rs1 : Reg) (rm : Rm)
  /-- `INTWDT.S` (R179) -/
  | intwdtS (rd rs1 : Reg) (rm : Rm)
  /-- `INTRAD.S` (R181) -/
  | intradS (rd rs1 : Reg) (rm : Rm)
  /-- `INTMIN.S` (R183) -/
  | intminS (rd rs1 : Reg) (rm : Rm)
  /-- `INTMAX.S` (R185) -/
  | intmaxS (rd rs1 : Reg) (rm : Rm)
  /-- `INTBFR.S` (R199) -/
  | intbfrS (rd rs1 rs2 : Reg)
  /-- `INTMTS.S` (R201) -/
  | intmtsS (rd rs1 rs2 : Reg)
  /-- `INTOVR.S` (R203) -/
  | intovrS (rd rs1 rs2 : Reg)
  /-- `INTDUR.S` (R205) -/
  | intdurS (rd rs1 rs2 : Reg)
  /-- `INTSTR.S` (R207) -/
  | intstrS (rd rs1 rs2 : Reg)
  /-- `INTFIN.S` (R209) -/
  | intfinS (rd rs1 rs2 : Reg)
  /-- `INTEQL.S` (R211) -/
  | inteqlS (rd rs1 rs2 : Reg)
  /-- `CSRRW` (R224) -/
  | csrrw (rd : Reg) (csr : CsrNumber) (rs1 : Reg)
  /-- `CSRRS` (R225) -/
  | csrrs (rd : Reg) (csr : CsrNumber) (rs1 : Reg)
  /-- `CSRRC` (R226) -/
  | csrrc (rd : Reg) (csr : CsrNumber) (rs1 : Reg)
  /-- `CSRRWI` (R227) -/
  | csrrwi (rd : Reg) (csr : CsrNumber) (uimm : BitVec 5)
  /-- `CSRRSI` (R228) -/
  | csrrsi (rd : Reg) (csr : CsrNumber) (uimm : BitVec 5)
  /-- `CSRRCI` (R229) -/
  | csrrci (rd : Reg) (csr : CsrNumber) (uimm : BitVec 5)
  deriving DecidableEq, Repr

end Sys2Proof
end

