-- ==== Sys2Proof/Config.lean ====
section
/-!
DEFINITION. The configuration of a member of the family (R9, R10) and the numerics record `NUM` (R124).

The source describes a FAMILY, so the model holds one configuration as plain data in its state and no step changes
it; a statement about every state is a statement about all fourteen legal configurations.
-/

namespace Sys2Proof

/-- A register width, 32 or 64 bits: the values of `XLEN` and of `FLEN` (R9). -/
inductive Width where
  | w32
  | w64
  deriving DecidableEq, Repr, Inhabited

/-- The number of bits. -/
abbrev Width.bits : Width → Nat
  | .w32 => 32
  | .w64 => 64

/-- `REGFILE`, the register file of the interval operands; `FLEN` exists only under `F` (R9). -/
inductive RegFile where
  /-- `Zhintf`/`Zfintf`: intervals live in `f0`-`f31`, `flen` bits each -/
  | f (flen : Width)
  /-- `Zhintx`/`Zfintx`: intervals live in `x0`-`x31` -/
  | x
  deriving DecidableEq, Repr, Inhabited

/-- Which numerics record the machine has. R124: the source names the functions and does not define them; the spec
gives a reference default of each. `reference` is that default. `implementation n` is any other implementation: what
R155 supports of it holds, and nothing else is known (`Sys2Proof.Machine.numOf`). -/
inductive NumChoice where
  | reference
  | implementation (id : Nat)
  deriving DecidableEq, Repr, Inhabited

/-- The numerics record `NUM` (R124): one total function per operation, of the format, the rounding mode in force
and the operands only. -/
structure Num where
  intervalAdd : (fmt : Fmt) → Mode → Interval fmt → Interval fmt → Interval fmt × FlagSet
  intervalSub : (fmt : Fmt) → Mode → Interval fmt → Interval fmt → Interval fmt × FlagSet
  intervalMul : (fmt : Fmt) → Mode → Interval fmt → Interval fmt → Interval fmt × FlagSet
  intervalDiv : (fmt : Fmt) → Mode → Interval fmt → Interval fmt → Interval fmt × FlagSet
  divByZeroInterval : (fmt : Fmt) → Mode → Interval fmt → Interval fmt → Interval fmt × FlagSet
  mid : (fmt : Fmt) → Mode → Interval fmt → Datum fmt × FlagSet
  wdt : (fmt : Fmt) → Mode → Interval fmt → Datum fmt × FlagSet
  rad : (fmt : Fmt) → Mode → Interval fmt → Datum fmt × FlagSet
  before : (fmt : Fmt) → Interval fmt → Interval fmt → Bool × FlagSet
  meets : (fmt : Fmt) → Interval fmt → Interval fmt → Bool × FlagSet
  overlaps : (fmt : Fmt) → Interval fmt → Interval fmt → Bool × FlagSet
  during : (fmt : Fmt) → Interval fmt → Interval fmt → Bool × FlagSet
  starts : (fmt : Fmt) → Interval fmt → Interval fmt → Bool × FlagSet
  finishes : (fmt : Fmt) → Interval fmt → Interval fmt → Bool × FlagSet
  equal : (fmt : Fmt) → Interval fmt → Interval fmt → Bool × FlagSet
  deriving Inhabited

/-- FREE VALUE (log entry 2): the numerics of an implementation that is not the reference, before R155: the source
delegates the definitions to standards it does not reproduce (R124, D13). The machine reads it through
`Sys2Proof.Machine.supported`, which keeps the properties (P2) and (P3) of R155. -/
opaque Config.implementationNum : Nat → Num

/-- The parameters of R9 that are fixed for a run, but `RESET_PC` (the value of `pc` in the start state) and
`PROGRAM` (the memory of the state, which nothing writes). -/
structure Config where
  /-- `XLEN` -/
  xlen : Width
  /-- `REGFILE`, with `FLEN` -/
  regfile : RegFile
  /-- the half-precision extension of the group is implemented -/
  hasH : Bool
  /-- the single-precision extension of the group is implemented -/
  hasS : Bool
  /-- `NUM` -/
  num : NumChoice
  deriving DecidableEq, Repr, Inhabited

/-- The legal configurations (R10): at least one format, and `HAS_S` under `F` requires `FLEN = 64`. -/
def Config.legal (c : Config) : Bool :=
  (c.hasH || c.hasS) &&
    match c.regfile with
    | .f .w32 => !c.hasS
    | .f .w64 => true
    | .x => true

/-- DESIGN CHOICE (log entry 1): the configuration of `State.reset`, `Zhintf` and `Zfintf` on RV64 with the
reference numerics. The spec fixes none; every member of the family is a value of the state's `cfg`. -/
def Config.atReset : Config :=
  { xlen := .w64, regfile := .f .w64, hasH := true, hasS := true, num := .reference }

/-- DESIGN CHOICE (log entry 3): `RESET_PC`. R9 and R65 leave it open, a multiple of 4; the spec's programs
(95_test_vectors.md section 7) all use `0x1000`. -/
def Config.resetPc : Word := 0x1000#64

end Sys2Proof
end

