-- ==== Sys2Proof/Machine/State.lean ====
section
/-!
DEFINITION. The state of the machine, the reasons a step can stop, and the state after reset.

"The extensions do not introduce any new registers" (R4): everything here belongs to the host hart. The inventory's
'## State' lists each field with the rule that names it.
-/

namespace Sys2Proof.Machine

/-- The memory that instructions are fetched from, `PROGRAM` (R9, R60): (address, byte) pairs, addresses strictly
rising. The step reads it and never writes it (R70). -/
abbrev Memory := List Host.Cell

/-- What an address that the memory does not list reads as: nothing. `PROGRAM` is a finite map, and an address outside
its domain has no content (R63; log entry 5). -/
def Memory.unlisted : Option Byte := none

/-- The canonical form: addresses strictly rise. No entry can equal what an unlisted address reads as, since that is
no byte. -/
def Memory.wf : Memory → Bool
  | [] => true
  | [_] => true
  | (a, _) :: (b, y) :: rest => decide (a < b) && Memory.wf ((b, y) :: rest)

/-- Why the machine stops with a fault. The first constructor is the only exception of the machine (R245); the two
others name the states in which the spec gives the machine no step. -/
inductive Fault where
  /-- `Fault(IllegalInstruction, pc, word)` (R244): raised by every reserved encoding (R92), by the fetch for the
  lines that the word alone settles and by the instruction's meaning for the others. Terminal; nothing in the state
  changes. SAFE: real hardware may do anything with a reserved encoding, so a program that holds one can only be
  shown to fault (log entry 6). -/
  | illegalInstruction (pc : Word) (word : InstrWord)
  /-- No step: `pc` is not a multiple of 4 (R25, R63). Raised by the fetch. SAFE: the host may trap or go on, the
  model claims neither (log entry 7). -/
  | stuckMisalignedPc (pc : Word)
  /-- No step: `pc` to `pc + 3` do not all lie inside `PROGRAM` (R25, R63). Raised by the fetch. SAFE, as above
  (log entry 7). -/
  | stuckOutsideProgram (pc : Word)
  deriving DecidableEq, Repr

/-- Why the machine gives no meaning. -/
inductive Refusal where
  /-- Raised by `exec` for an instruction without a meaning in the model; no arm does. SAFE. -/
  | notModelled (mnemonic : String)
  /-- The word at `pc` is an instruction of the host that the spec does not describe (R220 case (c)): raised by the
  fetch, and by a CSR instruction that names another CSR. SAFE: the real hart executes it (log entry 8). -/
  | undescribedHostInstruction (pc : Word) (word : InstrWord)
  /-- The configuration is none of the fourteen legal ones (R271: refuse it rather than run it). Raised by the step.
  SAFE. -/
  | illegalConfiguration (cfg : Config)
  deriving DecidableEq, Repr

/-- The machine state. -/
structure State where
  /-- the configuration of the hart; no step changes it (R9) -/
  cfg : Config
  /-- `x0` to `x31` (R20); slot 0 is never read -/
  x : Vector Word 32
  /-- `f0` to `f31` (R23); all zero and never touched under `REGFILE = X` (R24) -/
  f : Vector Word 32
  /-- the program counter (R25) -/
  pc : Word
  /-- the accrued exception flags, `fcsr[4:0]` (R35, R36) -/
  fflags : FlagSet
  /-- the dynamic rounding mode, `fcsr[7:5]` (R35, R38) -/
  frm : BitVec 3
  /-- `PROGRAM` (R9, R60) -/
  mem : Memory
  deriving DecidableEq, Repr

/-- Every slot of a register file fits a width. -/
def fileFits (w : Width) (file : Vector Word 32) : Bool :=
  file.toList.all fun v => decide (v.toNat < 2 ^ w.bits)

/-- The `f` file that the configuration has (R23, R24): `FLEN` bits wide under `F`, none (held as zeros) under `X`. -/
def fFileOk (regfile : RegFile) (file : Vector Word 32) : Bool :=
  match regfile with
  | .f flen => fileFits flen file
  | .x => file.toList.all fun v => v == 0#64

/-- What the spec asks of a start state (R271), and every step keeps: a legal configuration, registers and `pc` of the
configured widths, `x0` zero, `pc` a multiple of 4, `PROGRAM` in canonical form inside the address space. -/
def State.wf (s : State) : Bool :=
  s.cfg.legal
    && fileFits s.cfg.xlen s.x
    && (s.x[0] == 0#64)
    && fFileOk s.cfg.regfile s.f
    && decide (s.pc.toNat < 2 ^ s.cfg.xlen.bits)
    && (s.pc.toNat % 4 == 0)
    && Memory.wf s.mem
    && s.mem.all fun c => decide (c.1 < 2 ^ s.cfg.xlen.bits)

/-- A run starts from a start state that the caller supplies (R271); an illegal one is refused. -/
def State.start (s : State) : Option State :=
  if s.wf then some s else none

/-- The machine right after reset. `x0` is zero and `pc` is `RESET_PC` (R42, R270). DESIGN CHOICE (log entries 1, 3
and 4): the spec leaves the configuration, `RESET_PC` and every other register open; this state has the configuration
`Config.atReset`, zero registers, flags clear, `frm = 000`, and nothing in `PROGRAM`. -/
def State.reset : State :=
  { cfg := Config.atReset
    x := Vector.replicate 32 0#64
    f := Vector.replicate 32 0#64
    pc := Config.resetPc
    fflags := 0b00000#5
    frm := 0b000#3
    mem := [] }

end Sys2Proof.Machine
end

