-- ==== Sys2Proof/Machine/Flags.lean ====
section
/-!
DEFINITION. The accrued exception flags (R36) and their accrual (R37).
-/

namespace Sys2Proof.Machine

/-- the empty flag set (R14) -/
def noFlags : FlagSet := 0b00000#5
/-- `NV`, invalid operation, bit 4 (R36) -/
def flagNV : FlagSet := 0b10000#5
/-- `DZ`, divide by zero, bit 3 -/
def flagDZ : FlagSet := 0b01000#5
/-- `OF`, overflow, bit 2 -/
def flagOF : FlagSet := 0b00100#5
/-- `UF`, underflow, bit 1 -/
def flagUF : FlagSet := 0b00010#5
/-- `NX`, inexact, bit 0 -/
def flagNX : FlagSet := 0b00001#5

/-- the union of two flag sets -/
def flagUnion (a b : FlagSet) : FlagSet := a ||| b

/-- `{NV}` when the condition holds, otherwise the empty set. -/
def invalidIf (c : Bool) : FlagSet := if c then flagNV else noFlags

/-- `fflags <- fflags | fl` (R37): a bit that is one stays one. -/
def accrueFlags (s : State) (fl : FlagSet) : State := { s with fflags := s.fflags ||| fl }

end Sys2Proof.Machine
end

