-- ==== Sys2Proof/Machine/Float.lean ====
section
/-!
DEFINITION. IEEE 754 as the spec uses it: the two formats (R110), classification and exact value (R111), the canonical
NaN (R112), rounding (R115), and the scalar operations (R116 to R119). Exact values are rationals.
-/

namespace Sys2Proof.Machine

/-! ## Formats (R110) -/

/-- `E`, the exponent width -/
def expWidth : Fmt → Nat
  | .h => 5
  | .s => 8

/-- `M`, the fraction width -/
def fracWidth : Fmt → Nat
  | .h => 10
  | .s => 23

/-- `bias = 2^(E-1) - 1` -/
def bias (fmt : Fmt) : Int := 2 ^ (expWidth fmt - 1) - 1

/-- `emin = 1 - bias` -/
def emin (fmt : Fmt) : Int := 1 - bias fmt

/-- `emax = bias` -/
def emax (fmt : Fmt) : Int := bias fmt

/-- `2^e`, exactly -/
def pow2 : Int → Rat
  | .ofNat n => ((2 ^ n : Nat) : Rat)
  | .negSucc n => mkRat 1 (2 ^ (n + 1))

/-- `maxfin`, the largest finite number: `(2 - 2^-M) * 2^emax` -/
def maxFinite (fmt : Fmt) : Rat := (2 - pow2 (-(fracWidth fmt : Int))) * pow2 (emax fmt)

/-! ## Data (R110, R111) -/

/-- the sign bit, `v[w-1]` -/
def signOf {fmt : Fmt} (v : Datum fmt) : Bool := v.msb

/-- the biased exponent, `v[w-2:M]` -/
def expOf {fmt : Fmt} (v : Datum fmt) : Nat := v.toNat / 2 ^ fracWidth fmt % 2 ^ expWidth fmt

/-- the fraction, `v[M-1:0]` -/
def fracOf {fmt : Fmt} (v : Datum fmt) : Nat := v.toNat % 2 ^ fracWidth fmt

/-- The datum with a sign, a biased exponent and a fraction. -/
def packDatum (fmt : Fmt) (sign : Bool) (e t : Nat) : Datum fmt :=
  BitVec.ofNat _ (sign.toNat * 2 ^ (expWidth fmt + fracWidth fmt) + e * 2 ^ fracWidth fmt + t)

/-- What a datum is (R111): a NaN, an infinity, or a number with its exact value. A zero keeps its sign. -/
inductive Value where
  /-- a NaN, signaling or quiet -/
  | nan (signaling : Bool)
  /-- an infinity; `true` is `-inf` -/
  | inf (negative : Bool)
  /-- a zero, a subnormal or a normal number -/
  | num (negative : Bool) (r : Rat)
  deriving DecidableEq, Repr

/-- the factor of a sign bit -/
def signFactor (negative : Bool) : Rat := if negative then -1 else 1

/-- Classification and value (R111). -/
def valueOf {fmt : Fmt} (v : Datum fmt) : Value :=
  if expOf v = 2 ^ expWidth fmt - 1 then
    if fracOf v = 0 then .inf (signOf v)
    else .nan (decide (fracOf v < 2 ^ (fracWidth fmt - 1)))
  else if expOf v = 0 then
    .num (signOf v) (signFactor (signOf v) * (fracOf v : Rat) * pow2 (emin fmt - fracWidth fmt))
  else
    .num (signOf v)
      (signFactor (signOf v) * ((2 ^ fracWidth fmt + fracOf v : Nat) : Rat)
        * pow2 ((expOf v : Int) - bias fmt - fracWidth fmt))

/-- the datum is a NaN (R111) -/
def isNaN {fmt : Fmt} (v : Datum fmt) : Bool :=
  match valueOf v with
  | .nan _ => true
  | _ => false

/-- the datum is a signaling NaN (R111) -/
def isSignaling {fmt : Fmt} (v : Datum fmt) : Bool :=
  match valueOf v with
  | .nan signaling => signaling
  | _ => false

/-- the zero of a sign -/
def zeroDatum (fmt : Fmt) (negative : Bool) : Datum fmt := packDatum fmt negative 0 0

/-- the infinity of a sign -/
def infDatum (fmt : Fmt) (negative : Bool) : Datum fmt := packDatum fmt negative (2 ^ expWidth fmt - 1) 0

/-- `maxfin` with a sign -/
def maxFiniteDatum (fmt : Fmt) (negative : Bool) : Datum fmt :=
  packDatum fmt negative (2 ^ expWidth fmt - 2) (2 ^ fracWidth fmt - 1)

/-- `cNaN(fmt)`, the canonical NaN (R112) -/
def canonicalNaN (fmt : Fmt) : Datum fmt := packDatum fmt false (2 ^ expWidth fmt - 1) (2 ^ (fracWidth fmt - 1))

/-- `two(fmt)`, the datum 2.0 (42_statistical.md section 2) -/
def twoDatum (fmt : Fmt) : Datum fmt := packDatum fmt false (2 ^ (expWidth fmt - 1)) 0

/-- the datum with its sign bit inverted -/
def negateDatum {fmt : Fmt} (v : Datum fmt) : Datum fmt := v ^^^ BitVec.ofNat _ (2 ^ (expWidth fmt + fracWidth fmt))

/-! ## Rounding (R115) -/

/-- The integer `ex` with `2^ex <= a < 2^(ex+1)`, for `a > 0`. -/
def floorLog2 (a : Rat) : Int :=
  let k : Int := (a.num.toNat.log2 : Int) - (a.den.log2 : Int)
  if pow2 k ≤ a then k else k - 1

/-- `RInt(mode, s, n)`: a non-negative rational to an integer, in a mode and for a sign (R115). -/
def roundToInt (mode : Mode) (negative : Bool) (n : Rat) : Int :=
  let k := n.floor
  let frac := n - k
  if frac = 0 then k
  else
    match mode with
    | .rne => if 1 / 2 < frac ∨ (frac = 1 / 2 ∧ k % 2 = 1) then k + 1 else k
    | .rmm => if 1 / 2 ≤ frac then k + 1 else k
    | .rtz => k
    | .rdn => if negative then k + 1 else k
    | .rup => if negative then k else k + 1

/-- The datum of sign `negative` and magnitude `d`, for a `d` that the format represents exactly; a zero when
`d = 0` (R110, R111). -/
def datumOfMagnitude (fmt : Fmt) (negative : Bool) (d : Rat) : Datum fmt :=
  if d < pow2 (emin fmt) then
    packDatum fmt negative 0 (d / pow2 (emin fmt - fracWidth fmt)).num.toNat
  else
    let ex := floorLog2 d
    let significand := (d / pow2 (ex - fracWidth fmt)).num.toNat
    packDatum fmt negative (ex + bias fmt).toNat (significand - 2 ^ fracWidth fmt)

/-- What an overflow delivers in each mode (R115 step 2). -/
def overflowResult (fmt : Fmt) (mode : Mode) (negative : Bool) : Datum fmt :=
  match mode with
  | .rne | .rmm => infDatum fmt negative
  | .rtz => maxFiniteDatum fmt negative
  | .rdn => if negative then infDatum fmt true else maxFiniteDatum fmt false
  | .rup => if negative then maxFiniteDatum fmt true else infDatum fmt false

/-- `u` of R115 step 1: the magnitude rounded with unbounded exponent range. -/
def roundUnbounded (fmt : Fmt) (mode : Mode) (negative : Bool) (a : Rat) : Rat :=
  let q := pow2 (floorLog2 a - fracWidth fmt)
  (roundToInt mode negative (a / q) : Rat) * q

/-- `d` of R115 step 3: the delivered magnitude, with subnormal spacing below the normal range. -/
def roundDelivered (fmt : Fmt) (mode : Mode) (negative : Bool) (a : Rat) : Rat :=
  if floorLog2 a < emin fmt then
    (roundToInt mode negative (a / pow2 (emin fmt - fracWidth fmt)) : Rat) * pow2 (emin fmt - fracWidth fmt)
  else roundUnbounded fmt mode negative a

/-- The flags of R115 step 4: `NX` when the delivered value is not exact, `UF` with it when the value is tiny after
rounding. -/
def roundFlags (fmt : Fmt) (u d a : Rat) : FlagSet :=
  if d = a then noFlags
  else if u < pow2 (emin fmt) then flagUnion flagNX flagUF
  else flagNX

/-- `round(fmt, mode, r)` (R115), for a non-zero exact rational. -/
def roundRat (fmt : Fmt) (mode : Mode) (r : Rat) : Datum fmt × FlagSet :=
  let negative := decide (r < 0)
  let a := r.abs
  let u := roundUnbounded fmt mode negative a
  if maxFinite fmt < u then (overflowResult fmt mode negative, flagUnion flagOF flagNX)
  else
    let d := roundDelivered fmt mode negative a
    (datumOfMagnitude fmt negative d, roundFlags fmt u d a)

/-! ## Scalar operations (R116 to R119) -/

/-- `fp_add` (R116). -/
def fpAdd (fmt : Fmt) (mode : Mode) (x y : Datum fmt) : Datum fmt × FlagSet :=
  match valueOf x, valueOf y with
  | .nan p, .nan q => (canonicalNaN fmt, invalidIf (p || q))
  | .nan p, _ => (canonicalNaN fmt, invalidIf p)
  | _, .nan q => (canonicalNaN fmt, invalidIf q)
  | .inf s, .inf t => if s = t then (x, noFlags) else (canonicalNaN fmt, flagNV)
  | .inf _, .num _ _ => (x, noFlags)
  | .num _ _, .inf _ => (y, noFlags)
  | .num s a, .num t b =>
    if a + b = 0 then
      if a = 0 ∧ b = 0 ∧ s = t then (zeroDatum fmt s, noFlags)
      else (zeroDatum fmt (mode == .rdn), noFlags)
    else roundRat fmt mode (a + b)

/-- `fp_sub` (R116). -/
def fpSub (fmt : Fmt) (mode : Mode) (x y : Datum fmt) : Datum fmt × FlagSet :=
  if isNaN y then fpAdd fmt mode x y else fpAdd fmt mode x (negateDatum y)

/-- `fp_div` (R117). -/
def fpDiv (fmt : Fmt) (mode : Mode) (x y : Datum fmt) : Datum fmt × FlagSet :=
  match valueOf x, valueOf y with
  | .nan p, .nan q => (canonicalNaN fmt, invalidIf (p || q))
  | .nan p, _ => (canonicalNaN fmt, invalidIf p)
  | _, .nan q => (canonicalNaN fmt, invalidIf q)
  | .inf _, .inf _ => (canonicalNaN fmt, flagNV)
  | .inf s, .num t _ => (infDatum fmt (s != t), noFlags)
  | .num s _, .inf t => (zeroDatum fmt (s != t), noFlags)
  | .num s a, .num t b =>
    if b = 0 then
      if a = 0 then (canonicalNaN fmt, flagNV) else (infDatum fmt (s != t), flagDZ)
    else if a = 0 then (zeroDatum fmt (s != t), noFlags)
    else roundRat fmt mode (a / b)

/-! ## The extended reals and comparison (R118 to R120) -/

/-- `ER`, the rationals with `-inf` and `+inf` (R120). -/
inductive ER where
  | ninf
  | fin (r : Rat)
  | pinf
  deriving DecidableEq, Repr

/-- The order `-inf < every rational < +inf` (R119, R120). -/
def ER.lt : ER → ER → Bool
  | .ninf, .ninf => false
  | .ninf, _ => true
  | .fin _, .ninf => false
  | .fin a, .fin b => decide (a < b)
  | .fin _, .pinf => true
  | .pinf, _ => false

/-- less than or equal in that order -/
def ER.le (a b : ER) : Bool := !ER.lt b a

/-- `val(fmt, v)` in the extended reals; none on a NaN (R111). -/
def erOf {fmt : Fmt} (v : Datum fmt) : Option ER :=
  match valueOf v with
  | .nan _ => none
  | .inf negative => some (if negative then .ninf else .pinf)
  | .num _ r => some (.fin r)

/-- `fp_eq` (R118): quiet, `NV` only on a signaling NaN; the two zeros are equal. -/
def fpEq (fmt : Fmt) (x y : Datum fmt) : Bool × FlagSet :=
  match erOf x, erOf y with
  | some a, some b => (decide (a = b), noFlags)
  | _, _ => (false, invalidIf (isSignaling x || isSignaling y))

/-- `fp_lt` (R119): `NV` on any NaN. -/
def fpLt (fmt : Fmt) (x y : Datum fmt) : Bool × FlagSet :=
  match erOf x, erOf y with
  | some a, some b => (ER.lt a b, noFlags)
  | _, _ => (false, flagNV)

/-- `fp_le` (R119), used only to state validity (R123). -/
def fpLe (fmt : Fmt) (x y : Datum fmt) : Bool × FlagSet :=
  match erOf x, erOf y with
  | some a, some b => (ER.le a b, noFlags)
  | _, _ => (false, flagNV)

end Sys2Proof.Machine
end

