-- ==== Sys2Proof/Machine/IntervalNum.lean ====
section
/-!
DEFINITION. Extended-real arithmetic and intervals (R120 to R123), and the reference default of each function of the
numerics record: arithmetic (R151 to R156), statistical (R171 to R174), temporal (R191 to R197).
-/

namespace Sys2Proof.Machine

/-! ## Extended-real arithmetic (R120) -/

/-- `er_add`; an infinite operand gives that infinity. -/
def ER.add : ER → ER → ER
  | .fin a, .fin b => .fin (a + b)
  | .fin _, b => b
  | a, _ => a

/-- `er_neg` -/
def ER.neg : ER → ER
  | .ninf => .pinf
  | .fin a => .fin (-a)
  | .pinf => .ninf

/-- `sgn` -/
def ER.sgn : ER → Int
  | .ninf => -1
  | .fin a => if a < 0 then -1 else if a = 0 then 0 else 1
  | .pinf => 1

/-- the infinity of a non-zero sign -/
def ER.infinity (sign : Int) : ER := if sign < 0 then .ninf else .pinf

/-- `er_mul`: 0 when either is 0, even if the other is infinite. -/
def ER.mul : ER → ER → ER
  | .fin a, .fin b => .fin (a * b)
  | a, b => if ER.sgn a * ER.sgn b = 0 then .fin 0 else ER.infinity (ER.sgn a * ER.sgn b)

/-- `er_div`, for a non-zero divisor: 0 when the divisor is infinite, the infinity of the quotient sign when the
dividend is. -/
def ER.div : ER → ER → ER
  | _, .ninf => .fin 0
  | _, .pinf => .fin 0
  | .fin a, .fin b => .fin (a / b)
  | a, .fin b => ER.infinity (ER.sgn a * ER.sgn (.fin b))

/-- `er_min` of two -/
def ER.min (a b : ER) : ER := if ER.lt b a then b else a

/-- `er_max` of two -/
def ER.max (a b : ER) : ER := if ER.lt a b then b else a

/-! ## Intervals (R121 to R123) -/

/-- `round_er` (R121); an exact 0 is always `+0`. -/
def roundER (fmt : Fmt) (mode : Mode) : ER → Datum fmt × FlagSet
  | .pinf => (infDatum fmt false, noFlags)
  | .ninf => (infDatum fmt true, noFlags)
  | .fin r => if r = 0 then (zeroDatum fmt false, noFlags) else roundRat fmt mode r

/-- `Outward(fmt, lo, hi)` (R121): the lower bound rounded down, the upper bound up. -/
def outward (fmt : Fmt) (lo hi : ER) : Interval fmt × FlagSet :=
  ({ lo := (roundER fmt .rdn lo).1, hi := (roundER fmt .rup hi).1 },
    flagUnion (roundER fmt .rdn lo).2 (roundER fmt .rup hi).2)

/-- `Bounds(fmt, I)`, for an interval with no NaN bound (R122). -/
def bounds {fmt : Fmt} (I : Interval fmt) : Option (ER × ER) :=
  match erOf I.lo, erOf I.hi with
  | some a, some b => some (a, b)
  | _, _ => none

/-- `Entire(fmt)` (R122) -/
def entire (fmt : Fmt) : Interval fmt := { lo := infDatum fmt true, hi := infDatum fmt false }

/-- `ContainsZero(fmt, I)` for an interval with no NaN bound (R122); false when a bound is a NaN (R156). -/
def containsZero {fmt : Fmt} (I : Interval fmt) : Bool :=
  match bounds I with
  | some (a, b) => ER.le a (.fin 0) && ER.le (.fin 0) b
  | none => false

/-- `Valid(fmt, I)` (R123), with the bounds: no bound is a NaN, lower is at most upper, the lower bound is not `+inf`,
the upper bound is not `-inf`. -/
def validBounds {fmt : Fmt} (I : Interval fmt) : Option (ER × ER) :=
  match bounds I with
  | some (a, b) => if ER.le a b && a != .pinf && b != .ninf then some (a, b) else none
  | none => none

/-- `Valid(fmt, I)` (R123) -/
def valid {fmt : Fmt} (I : Interval fmt) : Bool := (validBounds I).isSome

/-- both bounds the canonical NaN -/
def nanInterval (fmt : Fmt) : Interval fmt := { lo := canonicalNaN fmt, hi := canonicalNaN fmt }

/-- `InvalidResult(fmt)` (41_arithmetic.md section 2) -/
def invalidResult (fmt : Fmt) : Interval fmt × FlagSet := (nanInterval fmt, flagNV)

/-! ## Arithmetic (R151 to R156). The mode is not used: bounds are always rounded outward (D10). -/

/-- reference `NUM.IntervalAdd` (R151) -/
def refAdd (fmt : Fmt) (_mode : Mode) (X Y : Interval fmt) : Interval fmt × FlagSet :=
  match validBounds X, validBounds Y with
  | some (a, b), some (c, d) => outward fmt (ER.add a c) (ER.add b d)
  | _, _ => invalidResult fmt

/-- reference `NUM.IntervalSub` (R152) -/
def refSub (fmt : Fmt) (_mode : Mode) (X Y : Interval fmt) : Interval fmt × FlagSet :=
  match validBounds X, validBounds Y with
  | some (a, b), some (c, d) => outward fmt (ER.add a (ER.neg d)) (ER.add b (ER.neg c))
  | _, _ => invalidResult fmt

/-- reference `NUM.IntervalMul` (R153) -/
def refMul (fmt : Fmt) (_mode : Mode) (X Y : Interval fmt) : Interval fmt × FlagSet :=
  match validBounds X, validBounds Y with
  | some (a, b), some (c, d) =>
    outward fmt
      (ER.min (ER.min (ER.mul a c) (ER.mul a d)) (ER.min (ER.mul b c) (ER.mul b d)))
      (ER.max (ER.max (ER.mul a c) (ER.mul a d)) (ER.max (ER.mul b c) (ER.mul b d)))
  | _, _ => invalidResult fmt

/-- The exact quotient bounds of `[a, b] / [c, d]`, `[c, d]` without zero: the six-case table of R154. -/
def quotientBounds (a b c d : ER) : ER × ER :=
  if ER.lt (.fin 0) c then
    if ER.le (.fin 0) a then (ER.div a d, ER.div b c)
    else if ER.le b (.fin 0) then (ER.div a c, ER.div b d)
    else (ER.div a c, ER.div b c)
  else
    if ER.le (.fin 0) a then (ER.div b d, ER.div a c)
    else if ER.le b (.fin 0) then (ER.div b c, ER.div a d)
    else (ER.div b d, ER.div a d)

/-- reference `NUM.IntervalDiv` (R154) -/
def refDiv (fmt : Fmt) (_mode : Mode) (X Y : Interval fmt) : Interval fmt × FlagSet :=
  match validBounds X, validBounds Y with
  | some (a, b), some (c, d) =>
    if ER.le c (.fin 0) && ER.le (.fin 0) d then (entire fmt, flagDZ)
    else outward fmt (quotientBounds a b c d).1 (quotientBounds a b c d).2
  | _, _ => invalidResult fmt

/-- reference `NUM.DivByZeroInterval` (R156) -/
def refDivByZeroInterval (fmt : Fmt) (_mode : Mode) (X _Y : Interval fmt) : Interval fmt × FlagSet :=
  if valid X then (entire fmt, flagDZ) else (nanInterval fmt, flagUnion flagNV flagDZ)

/-! ## Statistical (R171 to R173): the formulas as the IEEE 754 operations they spell (D16). -/

/-- reference `NUM.Mid` (R171) -/
def refMid (fmt : Fmt) (mode : Mode) (X : Interval fmt) : Datum fmt × FlagSet :=
  let s := fpAdd fmt mode X.hi X.lo
  let v := fpDiv fmt mode s.1 (twoDatum fmt)
  (v.1, flagUnion s.2 v.2)

/-- reference `NUM.Wdt` (R172) -/
def refWdt (fmt : Fmt) (mode : Mode) (X : Interval fmt) : Datum fmt × FlagSet := fpSub fmt mode X.hi X.lo

/-- reference `NUM.Rad` (R173) -/
def refRad (fmt : Fmt) (mode : Mode) (X : Interval fmt) : Datum fmt × FlagSet :=
  let s := fpSub fmt mode X.hi X.lo
  let v := fpDiv fmt mode s.1 (twoDatum fmt)
  (v.1, flagUnion s.2 v.2)

/-- `Min` (R174): a copy of the lower bound, no flag; not in the record. -/
def lowerCopy (fmt : Fmt) (_mode : Mode) (X : Interval fmt) : Datum fmt × FlagSet := (X.lo, noFlags)

/-- `Max` (R174): a copy of the upper bound, no flag; not in the record. -/
def upperCopy (fmt : Fmt) (_mode : Mode) (X : Interval fmt) : Datum fmt × FlagSet := (X.hi, noFlags)

/-! ## Temporal (R191 to R197). Every comparison is evaluated and the flag sets are united (D18). -/

/-- the conjunction of the bits and the union of the flag sets (43_temporal.md section 2) -/
def andAlso (p q : Bool × FlagSet) : Bool × FlagSet := (p.1 && q.1, flagUnion p.2 q.2)

/-- reference `NUM.Before` (R191): `b < c` -/
def refBefore (fmt : Fmt) (X Y : Interval fmt) : Bool × FlagSet := fpLt fmt X.hi Y.lo

/-- reference `NUM.Meets` (R192): `b = c` -/
def refMeets (fmt : Fmt) (X Y : Interval fmt) : Bool × FlagSet := fpEq fmt X.hi Y.lo

/-- reference `NUM.Overlaps` (R193): `a < c`, `c < b`, `b < d` -/
def refOverlaps (fmt : Fmt) (X Y : Interval fmt) : Bool × FlagSet :=
  andAlso (andAlso (fpLt fmt X.lo Y.lo) (fpLt fmt Y.lo X.hi)) (fpLt fmt X.hi Y.hi)

/-- reference `NUM.During` (R194): `c < a`, `b < d` -/
def refDuring (fmt : Fmt) (X Y : Interval fmt) : Bool × FlagSet :=
  andAlso (fpLt fmt Y.lo X.lo) (fpLt fmt X.hi Y.hi)

/-- reference `NUM.Starts` (R195): `a = c`, `b < d` -/
def refStarts (fmt : Fmt) (X Y : Interval fmt) : Bool × FlagSet :=
  andAlso (fpEq fmt X.lo Y.lo) (fpLt fmt X.hi Y.hi)

/-- reference `NUM.Finishes` (R196): `b = d`, `c < a` -/
def refFinishes (fmt : Fmt) (X Y : Interval fmt) : Bool × FlagSet :=
  andAlso (fpEq fmt X.hi Y.hi) (fpLt fmt Y.lo X.lo)

/-- reference `NUM.Equal` (R197): `a = c`, `b = d` -/
def refEqual (fmt : Fmt) (X Y : Interval fmt) : Bool × FlagSet :=
  andAlso (fpEq fmt X.lo Y.lo) (fpEq fmt X.hi Y.hi)

/-! ## The record (R124) -/

/-- The reference numerics record. -/
def referenceNum : Num :=
  { intervalAdd := refAdd
    intervalSub := refSub
    intervalMul := refMul
    intervalDiv := refDiv
    divByZeroInterval := refDivByZeroInterval
    mid := refMid
    wdt := refWdt
    rad := refRad
    before := refBefore
    meets := refMeets
    overlaps := refOverlaps
    during := refDuring
    starts := refStarts
    finishes := refFinishes
    equal := refEqual }

/-! ## What holds of every implementation (R155)

(P1) is the type of `Num`. (P2) and (P3) are kept by `supported`. -/

/-- `Z` is a valid interval that encloses `W`. -/
def encloses {fmt : Fmt} (Z W : Interval fmt) : Bool :=
  match validBounds Z, bounds W with
  | some (a, b), some (c, d) => ER.le a c && ER.le d b
  | _, _ => false

/-- (P2) of R155 for one result: of valid operands, a free result is kept when it encloses the reference result, and is
that result otherwise. The reference result is the tightest interval of the format that contains every exact result
(R121), so what is kept is exactly what (P2) allows (log entry 2). The flags, and the result on invalid operands, stay
free. -/
def withContainment {fmt : Fmt} (X Y : Interval fmt) (ref free : Interval fmt × FlagSet) : Interval fmt × FlagSet :=
  if valid X && valid Y && !encloses free.1 ref.1 then (ref.1, free.2) else free

/-- (P3) of R155: the flag set is not empty; `DZ` where the free one is. -/
def withFlag {fmt : Fmt} (z : Interval fmt × FlagSet) : Interval fmt × FlagSet :=
  if z.2 = noFlags then (z.1, flagDZ) else z

/-- A free numerics record with (P2) and (P3) of R155 kept. (P2) says nothing of a quotient by an interval with zero. -/
def supported (n : Num) : Num :=
  { n with
    intervalAdd := fun fmt mode X Y => withContainment X Y (refAdd fmt mode X Y) (n.intervalAdd fmt mode X Y)
    intervalSub := fun fmt mode X Y => withContainment X Y (refSub fmt mode X Y) (n.intervalSub fmt mode X Y)
    intervalMul := fun fmt mode X Y => withContainment X Y (refMul fmt mode X Y) (n.intervalMul fmt mode X Y)
    intervalDiv := fun fmt mode X Y =>
      if containsZero Y then n.intervalDiv fmt mode X Y
      else withContainment X Y (refDiv fmt mode X Y) (n.intervalDiv fmt mode X Y)
    divByZeroInterval := fun fmt mode X Y => withFlag (n.divByZeroInterval fmt mode X Y) }

/-- The numerics record of a configuration (R9, R124). -/
def numOf (c : NumChoice) : Num :=
  match c with
  | .reference => referenceNum
  | .implementation id => supported (Config.implementationNum id)

/-- The dispatch of `INTDIV` (R156): a divisor with no NaN bound that contains zero goes to `DivByZeroInterval`. The
dividend plays no part. -/
def divideDispatch (n : Num) (fmt : Fmt) (mode : Mode) (X Y : Interval fmt) : Interval fmt × FlagSet :=
  if containsZero Y then n.divByZeroInterval fmt mode X Y else n.intervalDiv fmt mode X Y

end Sys2Proof.Machine
end

