-- ==== Sys2Proof/WellFormed.lean ====
section
/-!
DEFINITION. The checks on an instruction that need neither the configuration nor the state: the rounding mode is
no reserved value, and a CSR instruction names one of the three CSRs of the spec. What depends on the configuration
(the format is implemented, pair registers are even) or on `frm` is checked when the instruction executes
(`Sys2Proof.Machine.formatImplemented`, `pairRegsOk`, `effRm`).
-/

namespace Sys2Proof

/-- The `rm` field is a rounding mode or `DYN` (R86; the two other values are reserved, R92 line 7). -/
def Rm.wellFormed : Rm → Bool
  | .rne | .rtz | .rdn | .rup | .rmm | .dyn => true
  | .reserved5 | .reserved6 => false

/-- The CSR number is one of `fflags`, `frm`, `fcsr` (R35, R220 item (b)). -/
def csrDescribed (n : CsrNumber) : Bool :=
  n == 0x001#12 || n == 0x002#12 || n == 0x003#12

/-- An instruction is well formed when its own fields are legal in some configuration and state. -/
def Instr.wellFormed : Instr → Bool
  | .intaddH _ _ _ rm => rm.wellFormed
  | .intsubH _ _ _ rm => rm.wellFormed
  | .intmulH _ _ _ rm => rm.wellFormed
  | .intdivH _ _ _ rm => rm.wellFormed
  | .intmidH _ _ rm => rm.wellFormed
  | .intwdtH _ _ rm => rm.wellFormed
  | .intradH _ _ rm => rm.wellFormed
  | .intminH _ _ rm => rm.wellFormed
  | .intmaxH _ _ rm => rm.wellFormed
  | .intbfrH _ _ _ => true
  | .intmtsH _ _ _ => true
  | .intovrH _ _ _ => true
  | .intdurH _ _ _ => true
  | .intstrH _ _ _ => true
  | .intfinH _ _ _ => true
  | .inteqlH _ _ _ => true
  | .intaddS _ _ _ rm => rm.wellFormed
  | .intsubS _ _ _ rm => rm.wellFormed
  | .intmulS _ _ _ rm => rm.wellFormed
  | .intdivS _ _ _ rm => rm.wellFormed
  | .intmidS _ _ rm => rm.wellFormed
  | .intwdtS _ _ rm => rm.wellFormed
  | .intradS _ _ rm => rm.wellFormed
  | .intminS _ _ rm => rm.wellFormed
  | .intmaxS _ _ rm => rm.wellFormed
  | .intbfrS _ _ _ => true
  | .intmtsS _ _ _ => true
  | .intovrS _ _ _ => true
  | .intdurS _ _ _ => true
  | .intstrS _ _ _ => true
  | .intfinS _ _ _ => true
  | .inteqlS _ _ _ => true
  | .csrrw _ csr _ => csrDescribed csr
  | .csrrs _ csr _ => csrDescribed csr
  | .csrrc _ csr _ => csrDescribed csr
  | .csrrwi _ csr _ => csrDescribed csr
  | .csrrsi _ csr _ => csrDescribed csr
  | .csrrci _ csr _ => csrDescribed csr

end Sys2Proof
end

