-- ==== Sys2Proof/Decode.lean ====
section
/-!
DEFINITION. The decoder, total on every instruction word, and after it the encoder, both written from the format
IA-R (R81), the minor opcodes (R83), the `fmt` table (R84), the `rm` table (R86) and the CSR format (R221).

The decoder settles what the word alone settles: a word decodes to the instruction of the row of
spec/opcode_table.json whose mask and match it meets (R88), and is rejected by name otherwise. What a word means
in a configuration and a state (R92 lines 2, 6 and 7; R220 on other CSR numbers) is checked by the instruction's
meaning.
-/

namespace Sys2Proof

/-- Why a word decodes to no instruction. The first four are reserved encodings of the extension (R92 lines 1, 3, 4
and 5); the last is a word this spec does not describe (R220 case (c)). -/
inductive Reject where
  /-- `fmt = 1X` (R84, R92 line 1) -/
  | reservedFormat
  /-- `funct5` is not one of the 16 values of R83 (R92 line 3) -/
  | unassignedMinorOpcode
  /-- a statistical word whose `rs2` field is not `00000` (R89, R92 line 4) -/
  | statisticalRs2
  /-- a temporal word whose `rm` field is not `000` (R90, R92 line 5) -/
  | temporalRm
  /-- neither a word of the extension nor one of the six CSR instructions (R220 case (c)) -/
  | undescribed
  deriving DecidableEq, Repr

/-! ## Fields -/

/-- bits 6:0, the major opcode (R81, R221) -/
def opcodeOf (w : InstrWord) : BitVec 7 := w.extractLsb' 0 7
/-- bits 11:7, `rd` -/
def rdOf (w : InstrWord) : Reg := w.extractLsb' 7 5
/-- bits 14:12, `rm` (R81) or `funct3` (R221) -/
def funct3Of (w : InstrWord) : BitVec 3 := w.extractLsb' 12 3
/-- bits 19:15, `rs1`, or `uimm` in the immediate CSR forms -/
def rs1Of (w : InstrWord) : Reg := w.extractLsb' 15 5
/-- bits 24:20, `rs2` -/
def rs2Of (w : InstrWord) : Reg := w.extractLsb' 20 5
/-- bits 26:25, `fmt` -/
def fmtOf (w : InstrWord) : BitVec 2 := w.extractLsb' 25 2
/-- bits 31:27, the minor opcode `funct5` -/
def funct5Of (w : InstrWord) : BitVec 5 := w.extractLsb' 27 5
/-- bits 31:20 of a CSR instruction, the CSR number (R221) -/
def csrOf (w : InstrWord) : CsrNumber := w.extractLsb' 20 12

/-- The major opcode of the extension (R82). -/
def intervalOpcode : BitVec 7 := 0b0001011#7

/-- The major opcode `SYSTEM` of the CSR instructions (R221). -/
def systemOpcode : BitVec 7 := 0b1110011#7

/-- The `rm` table (R86). -/
def rmOfBits (b : BitVec 3) : Rm :=
  if b = 0b000#3 then .rne
  else if b = 0b001#3 then .rtz
  else if b = 0b010#3 then .rdn
  else if b = 0b011#3 then .rup
  else if b = 0b100#3 then .rmm
  else if b = 0b101#3 then .reserved5
  else if b = 0b110#3 then .reserved6
  else .dyn

/-- The `fmt` table (R84); `1X` is reserved. -/
def fmtOfBits (b : BitVec 2) : Option Fmt :=
  if b = 0b00#2 then some .h
  else if b = 0b01#2 then some .s
  else none

/-! ## The decoder -/

/-- The arithmetic minor opcodes (R83). -/
def arithmeticOf (funct5 : BitVec 5) (fmt : Fmt) (rd rs1 rs2 : Reg) (rm : Rm) : Option Instr :=
  if funct5 = 0b00000#5 then some (match fmt with | .h => .intaddH rd rs1 rs2 rm | .s => .intaddS rd rs1 rs2 rm)
  else if funct5 = 0b00001#5 then some (match fmt with | .h => .intsubH rd rs1 rs2 rm | .s => .intsubS rd rs1 rs2 rm)
  else if funct5 = 0b00010#5 then some (match fmt with | .h => .intmulH rd rs1 rs2 rm | .s => .intmulS rd rs1 rs2 rm)
  else if funct5 = 0b00011#5 then some (match fmt with | .h => .intdivH rd rs1 rs2 rm | .s => .intdivS rd rs1 rs2 rm)
  else none

/-- The statistical minor opcodes (R83). -/
def statisticalOf (funct5 : BitVec 5) (fmt : Fmt) (rd rs1 : Reg) (rm : Rm) : Option Instr :=
  if funct5 = 0b01000#5 then some (match fmt with | .h => .intmidH rd rs1 rm | .s => .intmidS rd rs1 rm)
  else if funct5 = 0b01001#5 then some (match fmt with | .h => .intwdtH rd rs1 rm | .s => .intwdtS rd rs1 rm)
  else if funct5 = 0b01010#5 then some (match fmt with | .h => .intradH rd rs1 rm | .s => .intradS rd rs1 rm)
  else if funct5 = 0b01011#5 then some (match fmt with | .h => .intminH rd rs1 rm | .s => .intminS rd rs1 rm)
  else if funct5 = 0b01100#5 then some (match fmt with | .h => .intmaxH rd rs1 rm | .s => .intmaxS rd rs1 rm)
  else none

/-- The temporal logic minor opcodes (R83). -/
def temporalOf (funct5 : BitVec 5) (fmt : Fmt) (rd rs1 rs2 : Reg) : Option Instr :=
  if funct5 = 0b10000#5 then some (match fmt with | .h => .intbfrH rd rs1 rs2 | .s => .intbfrS rd rs1 rs2)
  else if funct5 = 0b10001#5 then some (match fmt with | .h => .intmtsH rd rs1 rs2 | .s => .intmtsS rd rs1 rs2)
  else if funct5 = 0b10010#5 then some (match fmt with | .h => .intovrH rd rs1 rs2 | .s => .intovrS rd rs1 rs2)
  else if funct5 = 0b10011#5 then some (match fmt with | .h => .intdurH rd rs1 rs2 | .s => .intdurS rd rs1 rs2)
  else if funct5 = 0b10100#5 then some (match fmt with | .h => .intstrH rd rs1 rs2 | .s => .intstrS rd rs1 rs2)
  else if funct5 = 0b10101#5 then some (match fmt with | .h => .intfinH rd rs1 rs2 | .s => .intfinS rd rs1 rs2)
  else if funct5 = 0b10110#5 then some (match fmt with | .h => .inteqlH rd rs1 rs2 | .s => .inteqlS rd rs1 rs2)
  else none

/-- Words under the extension's major opcode, the checks in the order of R93. -/
def decodeInterval (w : InstrWord) : Except Reject Instr :=
  match fmtOfBits (fmtOf w) with
  | none => .error .reservedFormat
  | some fmt =>
    match arithmeticOf (funct5Of w) fmt (rdOf w) (rs1Of w) (rs2Of w) (rmOfBits (funct3Of w)) with
    | some i => .ok i
    | none =>
      match statisticalOf (funct5Of w) fmt (rdOf w) (rs1Of w) (rmOfBits (funct3Of w)) with
      | some i => if rs2Of w = 0b00000#5 then .ok i else .error .statisticalRs2
      | none =>
        match temporalOf (funct5Of w) fmt (rdOf w) (rs1Of w) (rs2Of w) with
        | some i => if funct3Of w = 0b000#3 then .ok i else .error .temporalRm
        | none => .error .unassignedMinorOpcode

/-- Words under the major opcode `SYSTEM`: the six CSR instructions (R221), told apart by `funct3`. Which CSR
numbers have a rule is the meaning's check (R220). -/
def decodeCsr (w : InstrWord) : Except Reject Instr :=
  if funct3Of w = 0b001#3 then .ok (.csrrw (rdOf w) (csrOf w) (rs1Of w))
  else if funct3Of w = 0b010#3 then .ok (.csrrs (rdOf w) (csrOf w) (rs1Of w))
  else if funct3Of w = 0b011#3 then .ok (.csrrc (rdOf w) (csrOf w) (rs1Of w))
  else if funct3Of w = 0b101#3 then .ok (.csrrwi (rdOf w) (csrOf w) (rs1Of w))
  else if funct3Of w = 0b110#3 then .ok (.csrrsi (rdOf w) (csrOf w) (rs1Of w))
  else if funct3Of w = 0b111#3 then .ok (.csrrci (rdOf w) (csrOf w) (rs1Of w))
  else .error .undescribed

/-- The decode procedure (R93, R220), total on every 32-bit word. -/
def decode (w : InstrWord) : Except Reject Instr :=
  if opcodeOf w = intervalOpcode then decodeInterval w
  else if opcodeOf w = systemOpcode then decodeCsr w
  else .error .undescribed

/-- The instruction word that four bytes hold, the first at the lowest address: little-endian (R62). -/
def wordOfBytes (b0 b1 b2 b3 : Byte) : InstrWord := b3 ++ b2 ++ b1 ++ b0

/-- The decoder on bytes as the memory holds them, the first at the lowest address; fewer than four bytes are no
instruction (R80: there is no 16-bit form). -/
def decodeBytes : List Byte → Except Reject Instr
  | b0 :: b1 :: b2 :: b3 :: _ => decode (wordOfBytes b0 b1 b2 b3)
  | _ => .error .undescribed

/-- The bytes of a word, the lowest address first (R62). -/
def bytesOfWord (w : InstrWord) : List Byte :=
  [w.extractLsb' 0 8, w.extractLsb' 8 8, w.extractLsb' 16 8, w.extractLsb' 24 8]

/-- The word whose bits are the `nbits` low bits of `w`, every bit above them zero. -/
def tableWord (nbits w : Nat) : InstrWord := BitVec.ofNat 32 (w % 2 ^ nbits)

/-- What the decoder reads from an instruction whose bits are `w`, laid out in bytes as the hardware stores them. -/
def decodeTableWord (nbits w : Nat) : Option Instr :=
  match decodeBytes (bytesOfWord (tableWord nbits w)) with
  | .ok i => some i
  | .error _ => none

/-! ## The encoder -/

/-- The `rm` table, read the other way (R86). -/
def Rm.bits : Rm → BitVec 3
  | .rne => 0b000#3
  | .rtz => 0b001#3
  | .rdn => 0b010#3
  | .rup => 0b011#3
  | .rmm => 0b100#3
  | .reserved5 => 0b101#3
  | .reserved6 => 0b110#3
  | .dyn => 0b111#3

/-- The `fmt` table, read the other way (R84). -/
def Fmt.bits : Fmt → BitVec 2
  | .h => 0b00#2
  | .s => 0b01#2

/-- A word of the format IA-R (R81). -/
def packInterval (funct5 : BitVec 5) (fmt : Fmt) (rs2 rs1 : Reg) (rm : BitVec 3) (rd : Reg) : InstrWord :=
  funct5 ++ fmt.bits ++ rs2 ++ rs1 ++ rm ++ rd ++ intervalOpcode

/-- A word of the CSR format (R221). -/
def packCsr (csr : CsrNumber) (rs1 : BitVec 5) (funct3 : BitVec 3) (rd : Reg) : InstrWord :=
  csr ++ rs1 ++ funct3 ++ rd ++ systemOpcode

/-- The word of an instruction (R88; R224 to R229). -/
def encode : Instr → InstrWord
  | .intaddH rd rs1 rs2 rm => packInterval 0b00000#5 .h rs2 rs1 rm.bits rd
  | .intsubH rd rs1 rs2 rm => packInterval 0b00001#5 .h rs2 rs1 rm.bits rd
  | .intmulH rd rs1 rs2 rm => packInterval 0b00010#5 .h rs2 rs1 rm.bits rd
  | .intdivH rd rs1 rs2 rm => packInterval 0b00011#5 .h rs2 rs1 rm.bits rd
  | .intmidH rd rs1 rm => packInterval 0b01000#5 .h 0b00000#5 rs1 rm.bits rd
  | .intwdtH rd rs1 rm => packInterval 0b01001#5 .h 0b00000#5 rs1 rm.bits rd
  | .intradH rd rs1 rm => packInterval 0b01010#5 .h 0b00000#5 rs1 rm.bits rd
  | .intminH rd rs1 rm => packInterval 0b01011#5 .h 0b00000#5 rs1 rm.bits rd
  | .intmaxH rd rs1 rm => packInterval 0b01100#5 .h 0b00000#5 rs1 rm.bits rd
  | .intbfrH rd rs1 rs2 => packInterval 0b10000#5 .h rs2 rs1 0b000#3 rd
  | .intmtsH rd rs1 rs2 => packInterval 0b10001#5 .h rs2 rs1 0b000#3 rd
  | .intovrH rd rs1 rs2 => packInterval 0b10010#5 .h rs2 rs1 0b000#3 rd
  | .intdurH rd rs1 rs2 => packInterval 0b10011#5 .h rs2 rs1 0b000#3 rd
  | .intstrH rd rs1 rs2 => packInterval 0b10100#5 .h rs2 rs1 0b000#3 rd
  | .intfinH rd rs1 rs2 => packInterval 0b10101#5 .h rs2 rs1 0b000#3 rd
  | .inteqlH rd rs1 rs2 => packInterval 0b10110#5 .h rs2 rs1 0b000#3 rd
  | .intaddS rd rs1 rs2 rm => packInterval 0b00000#5 .s rs2 rs1 rm.bits rd
  | .intsubS rd rs1 rs2 rm => packInterval 0b00001#5 .s rs2 rs1 rm.bits rd
  | .intmulS rd rs1 rs2 rm => packInterval 0b00010#5 .s rs2 rs1 rm.bits rd
  | .intdivS rd rs1 rs2 rm => packInterval 0b00011#5 .s rs2 rs1 rm.bits rd
  | .intmidS rd rs1 rm => packInterval 0b01000#5 .s 0b00000#5 rs1 rm.bits rd
  | .intwdtS rd rs1 rm => packInterval 0b01001#5 .s 0b00000#5 rs1 rm.bits rd
  | .intradS rd rs1 rm => packInterval 0b01010#5 .s 0b00000#5 rs1 rm.bits rd
  | .intminS rd rs1 rm => packInterval 0b01011#5 .s 0b00000#5 rs1 rm.bits rd
  | .intmaxS rd rs1 rm => packInterval 0b01100#5 .s 0b00000#5 rs1 rm.bits rd
  | .intbfrS rd rs1 rs2 => packInterval 0b10000#5 .s rs2 rs1 0b000#3 rd
  | .intmtsS rd rs1 rs2 => packInterval 0b10001#5 .s rs2 rs1 0b000#3 rd
  | .intovrS rd rs1 rs2 => packInterval 0b10010#5 .s rs2 rs1 0b000#3 rd
  | .intdurS rd rs1 rs2 => packInterval 0b10011#5 .s rs2 rs1 0b000#3 rd
  | .intstrS rd rs1 rs2 => packInterval 0b10100#5 .s rs2 rs1 0b000#3 rd
  | .intfinS rd rs1 rs2 => packInterval 0b10101#5 .s rs2 rs1 0b000#3 rd
  | .inteqlS rd rs1 rs2 => packInterval 0b10110#5 .s rs2 rs1 0b000#3 rd
  | .csrrw rd csr rs1 => packCsr csr rs1 0b001#3 rd
  | .csrrs rd csr rs1 => packCsr csr rs1 0b010#3 rd
  | .csrrc rd csr rs1 => packCsr csr rs1 0b011#3 rd
  | .csrrwi rd csr uimm => packCsr csr uimm 0b101#3 rd
  | .csrrsi rd csr uimm => packCsr csr uimm 0b110#3 rd
  | .csrrci rd csr uimm => packCsr csr uimm 0b111#3 rd

/-- The bytes of an instruction, the lowest address first. -/
def encodeBytes (i : Instr) : List Byte := bytesOfWord (encode i)

/-! ## The opcode map -/

/-- The match of an instruction's row: R88's table, and R224 to R229 for the CSR instructions. -/
def rowMatch : Instr → InstrWord
  | .intaddH _ _ _ _ => 0x0000000B#32
  | .intsubH _ _ _ _ => 0x0800000B#32
  | .intmulH _ _ _ _ => 0x1000000B#32
  | .intdivH _ _ _ _ => 0x1800000B#32
  | .intmidH _ _ _ => 0x4000000B#32
  | .intwdtH _ _ _ => 0x4800000B#32
  | .intradH _ _ _ => 0x5000000B#32
  | .intminH _ _ _ => 0x5800000B#32
  | .intmaxH _ _ _ => 0x6000000B#32
  | .intbfrH _ _ _ => 0x8000000B#32
  | .intmtsH _ _ _ => 0x8800000B#32
  | .intovrH _ _ _ => 0x9000000B#32
  | .intdurH _ _ _ => 0x9800000B#32
  | .intstrH _ _ _ => 0xA000000B#32
  | .intfinH _ _ _ => 0xA800000B#32
  | .inteqlH _ _ _ => 0xB000000B#32
  | .intaddS _ _ _ _ => 0x0200000B#32
  | .intsubS _ _ _ _ => 0x0A00000B#32
  | .intmulS _ _ _ _ => 0x1200000B#32
  | .intdivS _ _ _ _ => 0x1A00000B#32
  | .intmidS _ _ _ => 0x4200000B#32
  | .intwdtS _ _ _ => 0x4A00000B#32
  | .intradS _ _ _ => 0x5200000B#32
  | .intminS _ _ _ => 0x5A00000B#32
  | .intmaxS _ _ _ => 0x6200000B#32
  | .intbfrS _ _ _ => 0x8200000B#32
  | .intmtsS _ _ _ => 0x8A00000B#32
  | .intovrS _ _ _ => 0x9200000B#32
  | .intdurS _ _ _ => 0x9A00000B#32
  | .intstrS _ _ _ => 0xA200000B#32
  | .intfinS _ _ _ => 0xAA00000B#32
  | .inteqlS _ _ _ => 0xB200000B#32
  | .csrrw _ _ _ => 0x00001073#32
  | .csrrs _ _ _ => 0x00002073#32
  | .csrrc _ _ _ => 0x00003073#32
  | .csrrwi _ _ _ => 0x00005073#32
  | .csrrsi _ _ _ => 0x00006073#32
  | .csrrci _ _ _ => 0x00007073#32

/-- The mask of an instruction's row: bits 31:25 and 6:0 for arithmetic, with 24:20 for statistical, with 14:12 for
temporal instructions (R88); bits 14:12 and 6:0 for the CSR instructions (R221). -/
def rowMask : Instr → InstrWord
  | .intaddH _ _ _ _ => 0xFE00007F#32
  | .intsubH _ _ _ _ => 0xFE00007F#32
  | .intmulH _ _ _ _ => 0xFE00007F#32
  | .intdivH _ _ _ _ => 0xFE00007F#32
  | .intmidH _ _ _ => 0xFFF0007F#32
  | .intwdtH _ _ _ => 0xFFF0007F#32
  | .intradH _ _ _ => 0xFFF0007F#32
  | .intminH _ _ _ => 0xFFF0007F#32
  | .intmaxH _ _ _ => 0xFFF0007F#32
  | .intbfrH _ _ _ => 0xFE00707F#32
  | .intmtsH _ _ _ => 0xFE00707F#32
  | .intovrH _ _ _ => 0xFE00707F#32
  | .intdurH _ _ _ => 0xFE00707F#32
  | .intstrH _ _ _ => 0xFE00707F#32
  | .intfinH _ _ _ => 0xFE00707F#32
  | .inteqlH _ _ _ => 0xFE00707F#32
  | .intaddS _ _ _ _ => 0xFE00007F#32
  | .intsubS _ _ _ _ => 0xFE00007F#32
  | .intmulS _ _ _ _ => 0xFE00007F#32
  | .intdivS _ _ _ _ => 0xFE00007F#32
  | .intmidS _ _ _ => 0xFFF0007F#32
  | .intwdtS _ _ _ => 0xFFF0007F#32
  | .intradS _ _ _ => 0xFFF0007F#32
  | .intminS _ _ _ => 0xFFF0007F#32
  | .intmaxS _ _ _ => 0xFFF0007F#32
  | .intbfrS _ _ _ => 0xFE00707F#32
  | .intmtsS _ _ _ => 0xFE00707F#32
  | .intovrS _ _ _ => 0xFE00707F#32
  | .intdurS _ _ _ => 0xFE00707F#32
  | .intstrS _ _ _ => 0xFE00707F#32
  | .intfinS _ _ _ => 0xFE00707F#32
  | .inteqlS _ _ _ => 0xFE00707F#32
  | .csrrw _ _ _ => 0x0000707F#32
  | .csrrs _ _ _ => 0x0000707F#32
  | .csrrc _ _ _ => 0x0000707F#32
  | .csrrwi _ _ _ => 0x0000707F#32
  | .csrrsi _ _ _ => 0x0000707F#32
  | .csrrci _ _ _ => 0x0000707F#32

end Sys2Proof
end

