-- ==== Sys2Proof/Machine/Ops.lean ====
section
/-!
DEFINITION. The named operations over registers, the program counter, the CSRs and memory; raising the one exception
of the machine; fetching and decoding the instruction at `pc`.
-/

namespace Sys2Proof.Machine

/-! ## Registers -/

/-- The low `w` bits, the bits above them zero. -/
def truncTo (w : Width) (v : Word) : Word :=
  match w with
  | .w32 => (v.setWidth 32).setWidth 64
  | .w64 => v

/-- `x[r]`: `x[0]` reads zero at all times (R20). -/
def readX (s : State) (r : Reg) : Word :=
  if r = 0#5 then 0#64 else s.x[r.toNat]

/-- `x[r] <- v`, `XLEN` bits; discarded when `r = 0` (R20). -/
def writeX (s : State) (r : Reg) (v : Word) : State :=
  if r = 0#5 then s else { s with x := s.x.set r.toNat (truncTo s.cfg.xlen v) }

/-- `f[r]` (R23); no `f` register is hardwired. -/
def readF (s : State) (r : Reg) : Word := s.f[r.toNat]

/-- `f[r] <- v` (R23), `FLEN` bits; under `REGFILE = X` there is no `f` file (R24) and nothing is written. -/
def writeF (s : State) (r : Reg) (v : Word) : State :=
  match s.cfg.regfile with
  | .f flen => { s with f := s.f.set r.toNat (truncTo flen v) }
  | .x => s

/-- `pc <- (pc + 4) mod 2^XLEN` (R26). -/
def advancePc (s : State) : State := { s with pc := truncTo s.cfg.xlen (s.pc + 4#64) }

/-! ## Control and status registers -/

/-- The three CSRs (R35). -/
inductive Csr where
  | fflags
  | frm
  | fcsr
  deriving DecidableEq, Repr

/-- The CSR numbers (R35). -/
def csrOfNumber (n : CsrNumber) : Option Csr :=
  if n = 0x001#12 then some .fflags
  else if n = 0x002#12 then some .frm
  else if n = 0x003#12 then some .fcsr
  else none

/-- `CsrRead` (R222): the fields zero-extended; `fcsr` is the mode above the flags. -/
def csrRead (s : State) (c : Csr) : Word :=
  match c with
  | .fflags => s.fflags.setWidth 64
  | .frm => s.frm.setWidth 64
  | .fcsr => (s.frm ++ s.fflags).setWidth 64

/-- `CsrWrite` (R222): the bits of the fields; all other bits of the value are ignored. Any value may be written to
`frm`. -/
def csrWrite (s : State) (c : Csr) (v : Word) : State :=
  match c with
  | .fflags => { s with fflags := v.extractLsb' 0 5 }
  | .frm => { s with frm := v.extractLsb' 0 3 }
  | .fcsr => { s with fflags := v.extractLsb' 0 5, frm := v.extractLsb' 5 3 }

/-! ## Memory -/

/-- The byte at an address, if the memory holds one. -/
def Memory.read : Memory → Nat → Option Byte
  | [], _ => Memory.unlisted
  | (a, b) :: rest, addr => if a = addr then some b else Memory.read rest addr

/-- The memory with one byte stored; the form stays canonical. -/
def Memory.write : Memory → Nat → Byte → Memory
  | [], addr, v => [(addr, v)]
  | (a, b) :: rest, addr, v =>
    if addr < a then (addr, v) :: (a, b) :: rest
    else if addr = a then (addr, v) :: rest
    else (a, b) :: Memory.write rest addr v

/-- `MemRead(addr, n)` (R60): the bytes at `addr` to `addr + n - 1`, the lowest address first; none when one of them
is not there. -/
def memRead (m : Memory) (addr : Nat) : Nat → Option (List Byte)
  | 0 => some []
  | n + 1 =>
    match Memory.read m addr, memRead m (addr + 1) n with
    | some b, some bs => some (b :: bs)
    | _, _ => none

/-- `MemWrite` (R60): the bytes stored at `addr` and up. No instruction uses it; placing a program does. -/
def memWrite (m : Memory) (addr : Nat) : List Byte → Memory
  | [] => m
  | b :: bs => memWrite (Memory.write m addr b) (addr + 1) bs

/-! ## The exception -/

/-- `raise IllegalInstruction(word)` (R244): the one exception. The run ends in `Fault(IllegalInstruction, pc, word)`;
no register, no bit of `fflags` or `frm` and not `pc` changes, so the state the fault leaves is the state itself.
There is no trap entry and so no return from it (R248, R249). -/
def raiseIllegal (word : InstrWord) (s : State) : Host.Outcome State Fault Refusal :=
  .fault (.illegalInstruction s.pc word)

/-! ## Fetch -/

/-- The instruction that the step runs (R63, R93, R220), or why there is none: `pc` not a multiple of 4, or not inside
`PROGRAM`; a reserved encoding of the extension; a host instruction the spec does not describe. -/
def fetchInstr (s : State) : Host.Outcome Instr Fault Refusal :=
  if s.pc.toNat % 4 ≠ 0 then .fault (.stuckMisalignedPc s.pc)
  else
    match memRead s.mem s.pc.toNat 4 with
    | some [b0, b1, b2, b3] =>
      match decodeBytes [b0, b1, b2, b3] with
      | .ok i => .next i
      | .error .undescribed =>
        .refused (.undescribedHostInstruction s.pc (wordOfBytes b0 b1 b2 b3))
      | .error _ => .fault (.illegalInstruction s.pc (wordOfBytes b0 b1 b2 b3))
    | _ => .fault (.stuckOutsideProgram s.pc)

end Sys2Proof.Machine
end

