-- ==== Sys2Proof/Machine/Operands.lean ====
section
/-!
DEFINITION. The operand forms: the layout of an interval (R28), reading and writing interval, scalar and boolean
operands (R29 to R34), the checks of the reserved table that depend on the configuration or on `frm` (R92 lines 2, 6
and 7).
-/

namespace Sys2Proof.Machine

/-! ## The layout of an interval -/

/-- `MakeInterval`: the upper bound in the high half, the lower bound in the low half (R28). -/
def Interval.bits {fmt : Fmt} (I : Interval fmt) : BitVec (fmt.w + fmt.w) := I.hi ++ I.lo

/-- `lowerBound` and `upperBound` of `2w` bits (R28). -/
def intervalOfBits (fmt : Fmt) (b : BitVec (fmt.w + fmt.w)) : Interval fmt :=
  { lo := b.extractLsb' 0 fmt.w, hi := b.extractLsb' fmt.w fmt.w }

/-- A value narrower than an `f` register: every bit above it is one (R29). The write keeps `FLEN` bits. -/
def nanBox {n : Nat} (v : BitVec n) : Word := v.setWidth 64 ||| (BitVec.allOnes 64 <<< n)

/-! ## What the configuration allows -/

/-- `fmt = H` is implemented only when `HAS_H`, `fmt = S` only when `HAS_S` (R84, R92 line 2). -/
def formatImplemented (c : Config) (fmt : Fmt) : Bool :=
  match fmt with
  | .h => c.hasH
  | .s => c.hasS

/-- A single-precision interval occupies an even-odd pair of `x` registers: RV32 `Zfintx` (R33). -/
def pairing (c : Config) (fmt : Fmt) : Bool :=
  c.regfile == .x && c.xlen == .w32 && fmt == .s

/-- `PairRegsOk` (R91): under pairing every register number that names a pair is even. -/
def pairRegsOk (c : Config) (fmt : Fmt) (pairs : List Reg) : Bool :=
  !pairing c fmt || pairs.all fun r => !r.getLsbD 0

/-- The mode that three bits name, if they name one (R113). -/
def modeOf : Rm → Option Mode
  | .rne => some .rne
  | .rtz => some .rtz
  | .rdn => some .rdn
  | .rup => some .rup
  | .rmm => some .rmm
  | .reserved5 | .reserved6 | .dyn => none

/-- `EffRm(rm)` (R114): the field's mode, or under `DYN` the mode in `frm`; none where it raises
`IllegalInstruction`. -/
def effRm (rm : Rm) (frm : BitVec 3) : Option Mode :=
  match rm with
  | .dyn => modeOf (rmOfBits frm)
  | rm => modeOf rm

/-! ## Operand access -/

/-- `ReadInterval(fmt, r)` (R30). Bits above the operand are ignored (R29); a pair named by `x0` reads 64 zero bits
and `x[1]` is not read (R33 item (e)). -/
def readInterval (s : State) (fmt : Fmt) (r : Reg) : Interval fmt :=
  match s.cfg.regfile with
  | .f _ => intervalOfBits fmt ((readF s r).setWidth _)
  | .x =>
    if pairing s.cfg fmt then
      if r = 0#5 then { lo := 0, hi := 0 }
      else { lo := (readX s r).setWidth _, hi := (readX s (r + 1#5)).setWidth _ }
    else intervalOfBits fmt ((readX s r).setWidth _)

/-- `WriteInterval(fmt, r, I)` (R31). A pair written to `x0` writes nothing, `x[1]` included (R33 item (d)). -/
def writeInterval (s : State) (fmt : Fmt) (r : Reg) (I : Interval fmt) : State :=
  match s.cfg.regfile with
  | .f _ => writeF s r (nanBox (Interval.bits I))
  | .x =>
    if pairing s.cfg fmt then
      if r = 0#5 then s
      else writeX (writeX s r (I.lo.setWidth 64)) (r + 1#5) (I.hi.setWidth 64)
    else writeX s r ((Interval.bits I).signExtend 64)

/-- `WriteScalar(fmt, r, v)` (R32): NaN-boxed in an `f` register, sign-extended in one `x` register. -/
def writeScalar (s : State) (fmt : Fmt) (r : Reg) (v : Datum fmt) : State :=
  match s.cfg.regfile with
  | .f _ => writeF s r (nanBox v)
  | .x => writeX s r (v.signExtend 64)

/-- `WriteBool(r, b)` (R34): 1 or 0, always in an `x` register. -/
def writeBool (s : State) (r : Reg) (b : Bool) : State :=
  writeX s r (if b then 1#64 else 0#64)

end Sys2Proof.Machine
end

