-- ==== Sys2Proof/Machine/Arithmetic.lean ====
section
/-!
DEFINITION. The arithmetic instructions (R150, R157 to R164), each over the one shared operation `arithmetic`.
-/

namespace Sys2Proof.Machine

/-- `ARITH` (R150): the checks of R92 lines 2, 6 and 7 in the order of R93, then both operands read, the function
applied, the interval written, the flags accrued and `pc` advanced, in that order (R15). The numbers of all three
registers name pairs (R91). `word` is the instruction's own word, which a fault records (R244). -/
def arithmetic (word : InstrWord) (fmt : Fmt)
    (op : Mode → Interval fmt → Interval fmt → Interval fmt × FlagSet)
    (rd rs1 rs2 : Reg) (rm : Rm) (s : State) : Host.Outcome State Fault Refusal :=
  if formatImplemented s.cfg fmt && pairRegsOk s.cfg fmt [rs1, rs2, rd] then
    match effRm rm s.frm with
    | none => raiseIllegal word s
    | some mode =>
      let z := op mode (readInterval s fmt rs1) (readInterval s fmt rs2)
      .next (advancePc (accrueFlags (writeInterval s fmt rd z.1) z.2))
  else raiseIllegal word s

/-- `INTADD.H`: interval addition (R157). -/
def execIntaddH (rd rs1 rs2 : Reg) (rm : Rm) (s : State) : Host.Outcome State Fault Refusal :=
  arithmetic (encode (.intaddH rd rs1 rs2 rm)) .h ((numOf s.cfg.num).intervalAdd .h) rd rs1 rs2 rm s

/-- `INTSUB.H`: interval subtraction (R159). -/
def execIntsubH (rd rs1 rs2 : Reg) (rm : Rm) (s : State) : Host.Outcome State Fault Refusal :=
  arithmetic (encode (.intsubH rd rs1 rs2 rm)) .h ((numOf s.cfg.num).intervalSub .h) rd rs1 rs2 rm s

/-- `INTMUL.H`: interval multiplication (R161). -/
def execIntmulH (rd rs1 rs2 : Reg) (rm : Rm) (s : State) : Host.Outcome State Fault Refusal :=
  arithmetic (encode (.intmulH rd rs1 rs2 rm)) .h ((numOf s.cfg.num).intervalMul .h) rd rs1 rs2 rm s

/-- `INTDIV.H`: interval division (R163, with the dispatch of R156). -/
def execIntdivH (rd rs1 rs2 : Reg) (rm : Rm) (s : State) : Host.Outcome State Fault Refusal :=
  arithmetic (encode (.intdivH rd rs1 rs2 rm)) .h (divideDispatch (numOf s.cfg.num) .h) rd rs1 rs2 rm s

/-- `INTADD.S`: interval addition (R158). -/
def execIntaddS (rd rs1 rs2 : Reg) (rm : Rm) (s : State) : Host.Outcome State Fault Refusal :=
  arithmetic (encode (.intaddS rd rs1 rs2 rm)) .s ((numOf s.cfg.num).intervalAdd .s) rd rs1 rs2 rm s

/-- `INTSUB.S`: interval subtraction (R160). -/
def execIntsubS (rd rs1 rs2 : Reg) (rm : Rm) (s : State) : Host.Outcome State Fault Refusal :=
  arithmetic (encode (.intsubS rd rs1 rs2 rm)) .s ((numOf s.cfg.num).intervalSub .s) rd rs1 rs2 rm s

/-- `INTMUL.S`: interval multiplication (R162). -/
def execIntmulS (rd rs1 rs2 : Reg) (rm : Rm) (s : State) : Host.Outcome State Fault Refusal :=
  arithmetic (encode (.intmulS rd rs1 rs2 rm)) .s ((numOf s.cfg.num).intervalMul .s) rd rs1 rs2 rm s

/-- `INTDIV.S`: interval division (R164, with the dispatch of R156). -/
def execIntdivS (rd rs1 rs2 : Reg) (rm : Rm) (s : State) : Host.Outcome State Fault Refusal :=
  arithmetic (encode (.intdivS rd rs1 rs2 rm)) .s (divideDispatch (numOf s.cfg.num) .s) rd rs1 rs2 rm s

end Sys2Proof.Machine
end

