-- ==== Sys2Proof/Machine/CsrAccess.lean ====
section
/-!
DEFINITION. The six CSR instructions on `fflags`, `frm` and `fcsr` (R220 to R229), each over the one shared operation
`csrAccess`. They accrue no flag and raise no exception (R222).
-/

namespace Sys2Proof.Machine

/-- The common semantics (R222): the old value is read, the CSR written (or not) from the state as it was, `x[rd]`
written with the old value, `pc` advanced. A CSR number other than the three of R35 is a host instruction the spec does
not describe (R220 case (c)). -/
def csrAccess (word : InstrWord) (csr : CsrNumber) (rd : Reg) (write : Bool) (newValue : Word → Word) (s : State) :
    Host.Outcome State Fault Refusal :=
  match csrOfNumber csr with
  | none => .refused (.undescribedHostInstruction s.pc word)
  | some c =>
    let old := csrRead s c
    let written := if write then csrWrite s c (newValue old) else s
    .next (advancePc (writeX written rd old))

/-- `CSRRW`: atomic read/write (R224). -/
def execCsrrw (rd : Reg) (csr : CsrNumber) (rs1 : Reg) (s : State) : Host.Outcome State Fault Refusal :=
  csrAccess (encode (.csrrw rd csr rs1)) csr rd true (fun _ => readX s rs1) s

/-- `CSRRS`: atomic read and set bits; `rs1 = 0` writes nothing (R225). -/
def execCsrrs (rd : Reg) (csr : CsrNumber) (rs1 : Reg) (s : State) : Host.Outcome State Fault Refusal :=
  csrAccess (encode (.csrrs rd csr rs1)) csr rd (rs1 != 0#5) (fun t => t ||| readX s rs1) s

/-- `CSRRC`: atomic read and clear bits; `rs1 = 0` writes nothing (R226). -/
def execCsrrc (rd : Reg) (csr : CsrNumber) (rs1 : Reg) (s : State) : Host.Outcome State Fault Refusal :=
  csrAccess (encode (.csrrc rd csr rs1)) csr rd (rs1 != 0#5) (fun t => t &&& ~~~(readX s rs1)) s

/-- `CSRRWI`: write the zero-extended immediate (R227). -/
def execCsrrwi (rd : Reg) (csr : CsrNumber) (uimm : BitVec 5) (s : State) : Host.Outcome State Fault Refusal :=
  csrAccess (encode (.csrrwi rd csr uimm)) csr rd true (fun _ => uimm.setWidth 64) s

/-- `CSRRSI`: set the bits of the immediate; `uimm = 0` writes nothing (R228). -/
def execCsrrsi (rd : Reg) (csr : CsrNumber) (uimm : BitVec 5) (s : State) : Host.Outcome State Fault Refusal :=
  csrAccess (encode (.csrrsi rd csr uimm)) csr rd (uimm != 0#5) (fun t => t ||| uimm.setWidth 64) s

/-- `CSRRCI`: clear the bits of the immediate; `uimm = 0` writes nothing (R229). -/
def execCsrrci (rd : Reg) (csr : CsrNumber) (uimm : BitVec 5) (s : State) : Host.Outcome State Fault Refusal :=
  csrAccess (encode (.csrrci rd csr uimm)) csr rd (uimm != 0#5) (fun t => t &&& ~~~(uimm.setWidth 64)) s

end Sys2Proof.Machine
end

