-- ==== Sys2Proof/Machine/Statistical.lean ====
section
/-!
DEFINITION. The statistical instructions (R170, R176 to R185), each over the one shared operation `statistical`.
-/

namespace Sys2Proof.Machine

/-- `STAT` (R170): the checks of R92 lines 2, 6 and 7 in the order of R93, then the operand read, the function applied,
the datum written, the flags accrued and `pc` advanced. Only `rs1` names a pair: the result is one register (R33
item (c), R91). -/
def statistical (word : InstrWord) (fmt : Fmt) (fn : Mode → Interval fmt → Datum fmt × FlagSet)
    (rd rs1 : Reg) (rm : Rm) (s : State) : Host.Outcome State Fault Refusal :=
  if formatImplemented s.cfg fmt && pairRegsOk s.cfg fmt [rs1] then
    match effRm rm s.frm with
    | none => raiseIllegal word s
    | some mode =>
      let v := fn mode (readInterval s fmt rs1)
      .next (advancePc (accrueFlags (writeScalar s fmt rd v.1) v.2))
  else raiseIllegal word s

/-- `INTMID.H`: interval midpoint (R176). -/
def execIntmidH (rd rs1 : Reg) (rm : Rm) (s : State) : Host.Outcome State Fault Refusal :=
  statistical (encode (.intmidH rd rs1 rm)) .h ((numOf s.cfg.num).mid .h) rd rs1 rm s

/-- `INTWDT.H`: interval width (R178). -/
def execIntwdtH (rd rs1 : Reg) (rm : Rm) (s : State) : Host.Outcome State Fault Refusal :=
  statistical (encode (.intwdtH rd rs1 rm)) .h ((numOf s.cfg.num).wdt .h) rd rs1 rm s

/-- `INTRAD.H`: interval radius (R180). -/
def execIntradH (rd rs1 : Reg) (rm : Rm) (s : State) : Host.Outcome State Fault Refusal :=
  statistical (encode (.intradH rd rs1 rm)) .h ((numOf s.cfg.num).rad .h) rd rs1 rm s

/-- `INTMIN.H`: interval lower bound (R182, the copy of R174). -/
def execIntminH (rd rs1 : Reg) (rm : Rm) (s : State) : Host.Outcome State Fault Refusal :=
  statistical (encode (.intminH rd rs1 rm)) .h (lowerCopy .h) rd rs1 rm s

/-- `INTMAX.H`: interval upper bound (R184, the copy of R174). -/
def execIntmaxH (rd rs1 : Reg) (rm : Rm) (s : State) : Host.Outcome State Fault Refusal :=
  statistical (encode (.intmaxH rd rs1 rm)) .h (upperCopy .h) rd rs1 rm s

/-- `INTMID.S`: interval midpoint (R177). -/
def execIntmidS (rd rs1 : Reg) (rm : Rm) (s : State) : Host.Outcome State Fault Refusal :=
  statistical (encode (.intmidS rd rs1 rm)) .s ((numOf s.cfg.num).mid .s) rd rs1 rm s

/-- `INTWDT.S`: interval width (R179). -/
def execIntwdtS (rd rs1 : Reg) (rm : Rm) (s : State) : Host.Outcome State Fault Refusal :=
  statistical (encode (.intwdtS rd rs1 rm)) .s ((numOf s.cfg.num).wdt .s) rd rs1 rm s

/-- `INTRAD.S`: interval radius (R181). -/
def execIntradS (rd rs1 : Reg) (rm : Rm) (s : State) : Host.Outcome State Fault Refusal :=
  statistical (encode (.intradS rd rs1 rm)) .s ((numOf s.cfg.num).rad .s) rd rs1 rm s

/-- `INTMIN.S`: interval lower bound (R183, the copy of R174). -/
def execIntminS (rd rs1 : Reg) (rm : Rm) (s : State) : Host.Outcome State Fault Refusal :=
  statistical (encode (.intminS rd rs1 rm)) .s (lowerCopy .s) rd rs1 rm s

/-- `INTMAX.S`: interval upper bound (R185, the copy of R174). -/
def execIntmaxS (rd rs1 : Reg) (rm : Rm) (s : State) : Host.Outcome State Fault Refusal :=
  statistical (encode (.intmaxS rd rs1 rm)) .s (upperCopy .s) rd rs1 rm s

end Sys2Proof.Machine
end

