-- ==== Sys2Proof/Machine/Temporal.lean ====
section
/-!
DEFINITION. The temporal logic instructions (R190, R198 to R211), each over the one shared operation `temporal`.
-/

namespace Sys2Proof.Machine

/-- `TEMPORAL` (R190): the checks of R92 lines 2 and 6, then both operands read, the relation evaluated, the bit
written to an `x` register, the flags accrued and `pc` advanced. `rd` is a single register (R33 item (c)); `frm` is
never read (R90). -/
def temporal (word : InstrWord) (fmt : Fmt) (rel : Interval fmt → Interval fmt → Bool × FlagSet)
    (rd rs1 rs2 : Reg) (s : State) : Host.Outcome State Fault Refusal :=
  if formatImplemented s.cfg fmt && pairRegsOk s.cfg fmt [rs1, rs2] then
    let b := rel (readInterval s fmt rs1) (readInterval s fmt rs2)
    .next (advancePc (accrueFlags (writeBool s rd b.1) b.2))
  else raiseIllegal word s

/-- `INTBFR.H`: Allen's "before" (R198). -/
def execIntbfrH (rd rs1 rs2 : Reg) (s : State) : Host.Outcome State Fault Refusal :=
  temporal (encode (.intbfrH rd rs1 rs2)) .h ((numOf s.cfg.num).before .h) rd rs1 rs2 s

/-- `INTMTS.H`: Allen's "meets" (R200). -/
def execIntmtsH (rd rs1 rs2 : Reg) (s : State) : Host.Outcome State Fault Refusal :=
  temporal (encode (.intmtsH rd rs1 rs2)) .h ((numOf s.cfg.num).meets .h) rd rs1 rs2 s

/-- `INTOVR.H`: Allen's "overlaps" (R202). -/
def execIntovrH (rd rs1 rs2 : Reg) (s : State) : Host.Outcome State Fault Refusal :=
  temporal (encode (.intovrH rd rs1 rs2)) .h ((numOf s.cfg.num).overlaps .h) rd rs1 rs2 s

/-- `INTDUR.H`: Allen's "during" (R204). -/
def execIntdurH (rd rs1 rs2 : Reg) (s : State) : Host.Outcome State Fault Refusal :=
  temporal (encode (.intdurH rd rs1 rs2)) .h ((numOf s.cfg.num).during .h) rd rs1 rs2 s

/-- `INTSTR.H`: Allen's "starts" (R206). -/
def execIntstrH (rd rs1 rs2 : Reg) (s : State) : Host.Outcome State Fault Refusal :=
  temporal (encode (.intstrH rd rs1 rs2)) .h ((numOf s.cfg.num).starts .h) rd rs1 rs2 s

/-- `INTFIN.H`: Allen's "finishes" (R208). -/
def execIntfinH (rd rs1 rs2 : Reg) (s : State) : Host.Outcome State Fault Refusal :=
  temporal (encode (.intfinH rd rs1 rs2)) .h ((numOf s.cfg.num).finishes .h) rd rs1 rs2 s

/-- `INTEQL.H`: Allen's "equal" (R210). -/
def execInteqlH (rd rs1 rs2 : Reg) (s : State) : Host.Outcome State Fault Refusal :=
  temporal (encode (.inteqlH rd rs1 rs2)) .h ((numOf s.cfg.num).equal .h) rd rs1 rs2 s

/-- `INTBFR.S`: Allen's "before" (R199). -/
def execIntbfrS (rd rs1 rs2 : Reg) (s : State) : Host.Outcome State Fault Refusal :=
  temporal (encode (.intbfrS rd rs1 rs2)) .s ((numOf s.cfg.num).before .s) rd rs1 rs2 s

/-- `INTMTS.S`: Allen's "meets" (R201). -/
def execIntmtsS (rd rs1 rs2 : Reg) (s : State) : Host.Outcome State Fault Refusal :=
  temporal (encode (.intmtsS rd rs1 rs2)) .s ((numOf s.cfg.num).meets .s) rd rs1 rs2 s

/-- `INTOVR.S`: Allen's "overlaps" (R203). -/
def execIntovrS (rd rs1 rs2 : Reg) (s : State) : Host.Outcome State Fault Refusal :=
  temporal (encode (.intovrS rd rs1 rs2)) .s ((numOf s.cfg.num).overlaps .s) rd rs1 rs2 s

/-- `INTDUR.S`: Allen's "during" (R205). -/
def execIntdurS (rd rs1 rs2 : Reg) (s : State) : Host.Outcome State Fault Refusal :=
  temporal (encode (.intdurS rd rs1 rs2)) .s ((numOf s.cfg.num).during .s) rd rs1 rs2 s

/-- `INTSTR.S`: Allen's "starts" (R207). -/
def execIntstrS (rd rs1 rs2 : Reg) (s : State) : Host.Outcome State Fault Refusal :=
  temporal (encode (.intstrS rd rs1 rs2)) .s ((numOf s.cfg.num).starts .s) rd rs1 rs2 s

/-- `INTFIN.S`: Allen's "finishes" (R209). -/
def execIntfinS (rd rs1 rs2 : Reg) (s : State) : Host.Outcome State Fault Refusal :=
  temporal (encode (.intfinS rd rs1 rs2)) .s ((numOf s.cfg.num).finishes .s) rd rs1 rs2 s

/-- `INTEQL.S`: Allen's "equal" (R211). -/
def execInteqlS (rd rs1 rs2 : Reg) (s : State) : Host.Outcome State Fault Refusal :=
  temporal (encode (.inteqlS rd rs1 rs2)) .s ((numOf s.cfg.num).equal .s) rd rs1 rs2 s

end Sys2Proof.Machine
end

