-- ==== Sys2Proof/Machine/Dispatch.lean ====
section
/-!
DEFINITION. One arm per instruction, each one call of its meaning.
-/

namespace Sys2Proof.Machine

/-- What an instruction does to a state. -/
def exec (i : Instr) (s : State) : Host.Outcome State Fault Refusal :=
  match i with
  | .intaddH rd rs1 rs2 rm => Sys2Proof.Machine.execIntaddH rd rs1 rs2 rm s
  | .intsubH rd rs1 rs2 rm => Sys2Proof.Machine.execIntsubH rd rs1 rs2 rm s
  | .intmulH rd rs1 rs2 rm => Sys2Proof.Machine.execIntmulH rd rs1 rs2 rm s
  | .intdivH rd rs1 rs2 rm => Sys2Proof.Machine.execIntdivH rd rs1 rs2 rm s
  | .intmidH rd rs1 rm => Sys2Proof.Machine.execIntmidH rd rs1 rm s
  | .intwdtH rd rs1 rm => Sys2Proof.Machine.execIntwdtH rd rs1 rm s
  | .intradH rd rs1 rm => Sys2Proof.Machine.execIntradH rd rs1 rm s
  | .intminH rd rs1 rm => Sys2Proof.Machine.execIntminH rd rs1 rm s
  | .intmaxH rd rs1 rm => Sys2Proof.Machine.execIntmaxH rd rs1 rm s
  | .intbfrH rd rs1 rs2 => Sys2Proof.Machine.execIntbfrH rd rs1 rs2 s
  | .intmtsH rd rs1 rs2 => Sys2Proof.Machine.execIntmtsH rd rs1 rs2 s
  | .intovrH rd rs1 rs2 => Sys2Proof.Machine.execIntovrH rd rs1 rs2 s
  | .intdurH rd rs1 rs2 => Sys2Proof.Machine.execIntdurH rd rs1 rs2 s
  | .intstrH rd rs1 rs2 => Sys2Proof.Machine.execIntstrH rd rs1 rs2 s
  | .intfinH rd rs1 rs2 => Sys2Proof.Machine.execIntfinH rd rs1 rs2 s
  | .inteqlH rd rs1 rs2 => Sys2Proof.Machine.execInteqlH rd rs1 rs2 s
  | .intaddS rd rs1 rs2 rm => Sys2Proof.Machine.execIntaddS rd rs1 rs2 rm s
  | .intsubS rd rs1 rs2 rm => Sys2Proof.Machine.execIntsubS rd rs1 rs2 rm s
  | .intmulS rd rs1 rs2 rm => Sys2Proof.Machine.execIntmulS rd rs1 rs2 rm s
  | .intdivS rd rs1 rs2 rm => Sys2Proof.Machine.execIntdivS rd rs1 rs2 rm s
  | .intmidS rd rs1 rm => Sys2Proof.Machine.execIntmidS rd rs1 rm s
  | .intwdtS rd rs1 rm => Sys2Proof.Machine.execIntwdtS rd rs1 rm s
  | .intradS rd rs1 rm => Sys2Proof.Machine.execIntradS rd rs1 rm s
  | .intminS rd rs1 rm => Sys2Proof.Machine.execIntminS rd rs1 rm s
  | .intmaxS rd rs1 rm => Sys2Proof.Machine.execIntmaxS rd rs1 rm s
  | .intbfrS rd rs1 rs2 => Sys2Proof.Machine.execIntbfrS rd rs1 rs2 s
  | .intmtsS rd rs1 rs2 => Sys2Proof.Machine.execIntmtsS rd rs1 rs2 s
  | .intovrS rd rs1 rs2 => Sys2Proof.Machine.execIntovrS rd rs1 rs2 s
  | .intdurS rd rs1 rs2 => Sys2Proof.Machine.execIntdurS rd rs1 rs2 s
  | .intstrS rd rs1 rs2 => Sys2Proof.Machine.execIntstrS rd rs1 rs2 s
  | .intfinS rd rs1 rs2 => Sys2Proof.Machine.execIntfinS rd rs1 rs2 s
  | .inteqlS rd rs1 rs2 => Sys2Proof.Machine.execInteqlS rd rs1 rs2 s
  | .csrrw rd csr rs1 => Sys2Proof.Machine.execCsrrw rd csr rs1 s
  | .csrrs rd csr rs1 => Sys2Proof.Machine.execCsrrs rd csr rs1 s
  | .csrrc rd csr rs1 => Sys2Proof.Machine.execCsrrc rd csr rs1 s
  | .csrrwi rd csr uimm => Sys2Proof.Machine.execCsrrwi rd csr uimm s
  | .csrrsi rd csr uimm => Sys2Proof.Machine.execCsrrsi rd csr uimm s
  | .csrrci rd csr uimm => Sys2Proof.Machine.execCsrrci rd csr uimm s

end Sys2Proof.Machine
end

