-- ==== Sys2Proof/Machine/Step.lean ====
section
/-!
DEFINITION. One step of the machine (R63, R220), and the placing of one instruction where the step fetches it.
-/

namespace Sys2Proof.Machine

/-- The step: an illegal configuration is refused (R271); otherwise fetch, decode, execute (R63). The three outcomes
of the fetch pass through unchanged when it gives no instruction. -/
def step (s : State) : Host.Outcome State Fault Refusal :=
  if s.cfg.legal then
    match fetchInstr s with
    | .next i => exec i s
    | .fault r => .fault r
    | .refused r => .refused r
  else .refused (.illegalConfiguration s.cfg)

/-- `s` with an instruction placed at `pc` in `PROGRAM`, its bytes little-endian (R62). -/
def State.withFetchWord (s : State) (nbits w : Nat) : State :=
  { s with mem := memWrite s.mem s.pc.toNat (bytesOfWord (tableWord nbits w)) }

end Sys2Proof.Machine
end

