-- ==== Sys2Proof/Safety.lean ====
section
/-!
DEFINITION. What a good state is, what a reserved encoding is, and the effects of an instruction, in the terms the
statements use: through the reads of the machine, and written from the spec's tables, not from the operations that the
meanings call.
-/

namespace Sys2Proof.Machine

/-! ## Good states -/

/-- The invariant of a run: what the spec asks of a start state (R271), `State.wf`. -/
abbrev State.Inv (s : State) : Prop := s.wf = true

/-- The machine takes a step: it neither faults nor is refused. -/
def State.Runs (s : State) : Prop := ∃ t, step s = .next t

/-! ## Reserved encodings (R91, R92) -/

/-- The precision of an instruction of the extension; none for a CSR instruction. -/
def formatOf : Instr → Option Fmt
  | .intaddH _ _ _ _ | .intsubH _ _ _ _ | .intmulH _ _ _ _ | .intdivH _ _ _ _ => some .h
  | .intmidH _ _ _ | .intwdtH _ _ _ | .intradH _ _ _ | .intminH _ _ _ | .intmaxH _ _ _ => some .h
  | .intbfrH _ _ _ | .intmtsH _ _ _ | .intovrH _ _ _ | .intdurH _ _ _ | .intstrH _ _ _ | .intfinH _ _ _
  | .inteqlH _ _ _ => some .h
  | .intaddS _ _ _ _ | .intsubS _ _ _ _ | .intmulS _ _ _ _ | .intdivS _ _ _ _ => some .s
  | .intmidS _ _ _ | .intwdtS _ _ _ | .intradS _ _ _ | .intminS _ _ _ | .intmaxS _ _ _ => some .s
  | .intbfrS _ _ _ | .intmtsS _ _ _ | .intovrS _ _ _ | .intdurS _ _ _ | .intstrS _ _ _ | .intfinS _ _ _
  | .inteqlS _ _ _ => some .s
  | .csrrw _ _ _ | .csrrs _ _ _ | .csrrc _ _ _ | .csrrwi _ _ _ | .csrrsi _ _ _ | .csrrci _ _ _ => none

/-- The `rm` field of an arithmetic or statistical instruction; the other instructions have no rounding mode. -/
def rmFieldOf : Instr → Option Rm
  | .intaddH _ _ _ rm | .intsubH _ _ _ rm | .intmulH _ _ _ rm | .intdivH _ _ _ rm => some rm
  | .intmidH _ _ rm | .intwdtH _ _ rm | .intradH _ _ rm | .intminH _ _ rm | .intmaxH _ _ rm => some rm
  | .intaddS _ _ _ rm | .intsubS _ _ _ rm | .intmulS _ _ _ rm | .intdivS _ _ _ rm => some rm
  | .intmidS _ _ rm | .intwdtS _ _ rm | .intradS _ _ rm | .intminS _ _ rm | .intmaxS _ _ rm => some rm
  | .intbfrH _ _ _ | .intmtsH _ _ _ | .intovrH _ _ _ | .intdurH _ _ _ | .intstrH _ _ _ | .intfinH _ _ _
  | .inteqlH _ _ _ => none
  | .intbfrS _ _ _ | .intmtsS _ _ _ | .intovrS _ _ _ | .intdurS _ _ _ | .intstrS _ _ _ | .intfinS _ _ _
  | .inteqlS _ _ _ => none
  | .csrrw _ _ _ | .csrrs _ _ _ | .csrrc _ _ _ | .csrrwi _ _ _ | .csrrsi _ _ _ | .csrrci _ _ _ => none

/-- The register numbers of the single-precision interval operands, those that name a pair under RV32 `Zfintx`: both
sources and the destination of an arithmetic, the source of a statistical, both sources of a temporal instruction
(R33 items (b) and (c)). -/
def intervalFieldsOf : Instr → List Reg
  | .intaddS rd rs1 rs2 _ | .intsubS rd rs1 rs2 _ | .intmulS rd rs1 rs2 _ | .intdivS rd rs1 rs2 _ => [rs1, rs2, rd]
  | .intmidS _ rs1 _ | .intwdtS _ rs1 _ | .intradS _ rs1 _ | .intminS _ rs1 _ | .intmaxS _ rs1 _ => [rs1]
  | .intbfrS _ rs1 rs2 | .intmtsS _ rs1 rs2 | .intovrS _ rs1 rs2 | .intdurS _ rs1 rs2 | .intstrS _ rs1 rs2
  | .intfinS _ rs1 rs2 | .inteqlS _ rs1 rs2 => [rs1, rs2]
  | .intaddH _ _ _ _ | .intsubH _ _ _ _ | .intmulH _ _ _ _ | .intdivH _ _ _ _ => []
  | .intmidH _ _ _ | .intwdtH _ _ _ | .intradH _ _ _ | .intminH _ _ _ | .intmaxH _ _ _ => []
  | .intbfrH _ _ _ | .intmtsH _ _ _ | .intovrH _ _ _ | .intdurH _ _ _ | .intstrH _ _ _ | .intfinH _ _ _
  | .inteqlH _ _ _ => []
  | .csrrw _ _ _ | .csrrs _ _ _ | .csrrc _ _ _ | .csrrwi _ _ _ | .csrrsi _ _ _ | .csrrci _ _ _ => []

/-- RV32 with `Zfintx`: the one configuration group in which a single-precision interval is a register pair (R33). -/
def PairedRegisters (c : Config) : Prop := c.regfile = .x ∧ c.xlen = .w32

/-- The instruction is a reserved encoding in the state's configuration and with its `frm`: lines 2, 6 and 7 of the
table of R92 (the word alone settles the other lines). -/
def ReservedHere (s : State) (i : Instr) : Prop :=
  (formatOf i = some .h ∧ s.cfg.hasH = false) ∨
  (formatOf i = some .s ∧ s.cfg.hasS = false) ∨
  (PairedRegisters s.cfg ∧ ∃ r ∈ intervalFieldsOf i, r.toNat % 2 = 1) ∨
  (∃ rm, rmFieldOf i = some rm ∧ (rm = .reserved5 ∨ rm = .reserved6 ∨ (rm = .dyn ∧ 5 ≤ s.frm.toNat)))

/-- A word under the major opcode of the extension is reserved in a configuration and with an `frm`: one of the seven
lines of the table of R92, read off the word's bits. -/
def ReservedWord (c : Config) (frm : BitVec 3) (w : InstrWord) : Prop :=
  let funct5 := (w.extractLsb' 27 5).toNat
  let fmt := w.extractLsb' 25 2
  let rm := w.extractLsb' 12 3
  let arithmetic := funct5 ≤ 3
  let statistical := 8 ≤ funct5 ∧ funct5 ≤ 12
  let temporal := 16 ≤ funct5 ∧ funct5 ≤ 22
  w.getLsbD 26 = true ∨
  ((fmt = 0b00#2 ∧ c.hasH = false) ∨ (fmt = 0b01#2 ∧ c.hasS = false)) ∨
  ¬ (arithmetic ∨ statistical ∨ temporal) ∨
  (statistical ∧ w.extractLsb' 20 5 ≠ 0b00000#5) ∨
  (temporal ∧ rm ≠ 0b000#3) ∨
  (PairedRegisters c ∧ fmt = 0b01#2 ∧
    (w.getLsbD 15 = true ∨ ((arithmetic ∨ temporal) ∧ w.getLsbD 20 = true) ∨ (arithmetic ∧ w.getLsbD 7 = true))) ∨
  ((arithmetic ∨ statistical) ∧ (rm = 0b101#3 ∨ rm = 0b110#3 ∨ (rm = 0b111#3 ∧ 5 ≤ frm.toNat)))

/-! ## The rounding mode in force (R113, R114) -/

/-- The three bits of a mode (R113). -/
def modeBits : Mode → BitVec 3
  | .rne => 0b000#3
  | .rtz => 0b001#3
  | .rdn => 0b010#3
  | .rup => 0b011#3
  | .rmm => 0b100#3

/-- The mode in force for an `rm` field and an `frm` (R114): the field's own, or under `111` the one in `frm`. -/
def ModeInForce (rm : Rm) (frm : BitVec 3) (mode : Mode) : Prop :=
  rm.bits = modeBits mode ∨ (rm.bits = 0b111#3 ∧ frm = modeBits mode)

/-! ## Effects -/

/-- What every instruction that completes leaves beside its destination (R26, R37, R38, R61): the configuration and
`frm` are unchanged, every byte of memory reads as before, the flags are accrued, `pc` moves on by 4 modulo `2^XLEN`. -/
def Completes (s t : State) (fl : FlagSet) : Prop :=
  t.cfg = s.cfg ∧ t.frm = s.frm ∧ (∀ a, Memory.read t.mem a = Memory.read s.mem a) ∧
    t.fflags = s.fflags ||| fl ∧ t.pc.toNat = (s.pc.toNat + 4) % 2 ^ s.cfg.xlen.bits

/-- No `x` register changes. -/
def KeepsX (s t : State) : Prop := ∀ r, readX t r = readX s r

/-- No `f` register changes. -/
def KeepsF (s t : State) : Prop := ∀ r, readF t r = readF s r

/-- `x[rd]` holds `v` and every other `x` register is unchanged; for `x0` nothing changes (R20). -/
def WritesX (s t : State) (rd : Reg) (v : Word) : Prop :=
  ∀ r, readX t r = if r = rd ∧ rd ≠ 0#5 then v else readX s r

/-- `f[rd]` holds `v` and every other `f` register is unchanged (R23). -/
def WritesF (s t : State) (rd : Reg) (v : Word) : Prop :=
  ∀ r, readF t r = if r = rd then v else readF s r

/-- An interval as an `f` register of `FLEN` bits holds it: the table of R29. A single-precision interval needs
`FLEN = 64`. -/
def fImageOfInterval : (fmt : Fmt) → Width → Interval fmt → Word
  | .h, .w32, I => 0#32 ++ (I.hi ++ I.lo)
  | .h, .w64, I => BitVec.allOnes 32 ++ (I.hi ++ I.lo)
  | .s, _, I => I.hi ++ I.lo

/-- A scalar as an `f` register of `FLEN` bits holds it: the table of R29. -/
def fImageOfScalar : (fmt : Fmt) → Width → Datum fmt → Word
  | .h, .w32, v => 0#32 ++ (BitVec.allOnes 16 ++ v)
  | .h, .w64, v => BitVec.allOnes 48 ++ v
  | .s, _, v => BitVec.allOnes 32 ++ v

/-- An interval as one `x` register of `XLEN` bits holds it: the table of R29. A single-precision interval fills one
register under `XLEN = 64` only. -/
def xImageOfInterval : (fmt : Fmt) → Width → Interval fmt → Word
  | .h, .w32, I => 0#32 ++ (I.hi ++ I.lo)
  | .h, .w64, I => BitVec.signExtend 64 (I.hi ++ I.lo)
  | .s, _, I => I.hi ++ I.lo

/-- A scalar as an `x` register of `XLEN` bits holds it: the table of R29. -/
def xImageOfScalar : (fmt : Fmt) → Width → Datum fmt → Word
  | .h, .w32, v => 0#32 ++ BitVec.signExtend 32 v
  | .h, .w64, v => BitVec.signExtend 64 v
  | .s, .w32, v => 0#32 ++ v
  | .s, .w64, v => BitVec.signExtend 64 v

/-- The two halves of a single-precision interval in `x[rd]` and `x[rd + 1]`, every other register unchanged; for `x0`
nothing changes, `x1` included (R33 items (a) and (d)). -/
def WritesPair (s t : State) (rd : Reg) (I : Interval .s) : Prop :=
  ∀ r, readX t r =
    if rd = 0#5 then readX s r
    else if r = rd then 0#32 ++ I.lo
    else if r = rd + 1#5 then 0#32 ++ I.hi
    else readX s r

/-- The register files after an interval result (R31): the same file as the sources, a pair under RV32 `Zfintx`. -/
def StoresInterval (s t : State) : (fmt : Fmt) → Reg → Interval fmt → Prop
  | .h, rd, I =>
    match s.cfg.regfile with
    | .f flen => WritesF s t rd (fImageOfInterval .h flen I) ∧ KeepsX s t
    | .x => WritesX s t rd (xImageOfInterval .h s.cfg.xlen I) ∧ KeepsF s t
  | .s, rd, I =>
    match s.cfg.regfile, s.cfg.xlen with
    | .f flen, _ => WritesF s t rd (fImageOfInterval .s flen I) ∧ KeepsX s t
    | .x, .w32 => WritesPair s t rd I ∧ KeepsF s t
    | .x, .w64 => WritesX s t rd (xImageOfInterval .s .w64 I) ∧ KeepsF s t

/-- The register files after a scalar result (R32): the same file as the source, one register in every
configuration. -/
def StoresScalar (s t : State) (fmt : Fmt) (rd : Reg) (v : Datum fmt) : Prop :=
  match s.cfg.regfile with
  | .f flen => WritesF s t rd (fImageOfScalar fmt flen v) ∧ KeepsX s t
  | .x => WritesX s t rd (xImageOfScalar fmt s.cfg.xlen v) ∧ KeepsF s t

/-- The register files after a boolean result (R34): 1 or 0, in an `x` register under both register files. -/
def StoresBool (s t : State) (rd : Reg) (b : Bool) : Prop :=
  WritesX s t rd (if b then 1#64 else 0#64) ∧ KeepsF s t

/-- The CSR number is one of the three of R35. -/
def NamesCsr (csr : CsrNumber) : Prop := csr = 0x001#12 ∨ csr = 0x002#12 ∨ csr = 0x003#12

/-- What a CSR reads as (R222): the fields zero-extended. -/
def csrImage (s : State) (csr : CsrNumber) : Word :=
  if csr = 0x001#12 then 0#59 ++ s.fflags
  else if csr = 0x002#12 then 0#61 ++ s.frm
  else 0#56 ++ (s.frm ++ s.fflags)

/-- The CSR fields after a write of `v` (R222): the fields that the CSR shows take the low bits of the value, the other
field is unchanged. -/
def CsrTakes (s t : State) (csr : CsrNumber) (v : Word) : Prop :=
  (csr = 0x001#12 → t.fflags = v.extractLsb' 0 5 ∧ t.frm = s.frm) ∧
  (csr = 0x002#12 → t.fflags = s.fflags ∧ t.frm = v.extractLsb' 0 3) ∧
  (csr = 0x003#12 → t.fflags = v.extractLsb' 0 5 ∧ t.frm = v.extractLsb' 5 3)

/-- What every CSR instruction leaves beside the CSR (R222): the old value in `x[rd]`, `pc` moved on by 4 modulo
`2^XLEN`, everything else unchanged. -/
def CsrCompletes (s t : State) (rd : Reg) (csr : CsrNumber) : Prop :=
  t.cfg = s.cfg ∧ (∀ a, Memory.read t.mem a = Memory.read s.mem a) ∧ KeepsF s t ∧
    WritesX s t rd (csrImage s csr) ∧ t.pc.toNat = (s.pc.toNat + 4) % 2 ^ s.cfg.xlen.bits

/-! ## What an interval contains -/

/-- The extended real is at most the real number. -/
def ER.AtMost : ER → ℝ → Prop
  | .ninf, _ => True
  | .fin r, x => (r : ℝ) ≤ x
  | .pinf, _ => False

/-- The extended real is at least the real number. -/
def ER.AtLeast : ER → ℝ → Prop
  | .ninf, _ => False
  | .fin r, x => x ≤ (r : ℝ)
  | .pinf, _ => True

/-- The real number lies in the interval: neither bound is a NaN, and it lies between them (R155 (P2)). -/
def Contains {fmt : Fmt} (I : Interval fmt) (x : ℝ) : Prop :=
  ∃ a b, bounds I = some (a, b) ∧ a.AtMost x ∧ b.AtLeast x

/-- The interval `Z` is valid and contains `x op y` for every real `x` in `X` and `y` in `Y`. -/
def ContainsImage {fmt : Fmt} (X Y Z : Interval fmt) (op : ℝ → ℝ → ℝ) : Prop :=
  valid Z = true ∧ ∀ x y : ℝ, Contains X x → Contains Y y → Contains Z (op x y)

/-- `lo` and `hi` are the greatest lower and the least upper bound, in the extended reals, of `x op y` for every real `x` in
`X` and `y` in `Y`: the exact bounds that an operation rounds. -/
def ExactBounds {fmt : Fmt} (X Y : Interval fmt) (op : ℝ → ℝ → ℝ) (lo hi : ER) : Prop :=
  (∀ x y : ℝ, Contains X x → Contains Y y → lo.AtMost (op x y) ∧ hi.AtLeast (op x y)) ∧
  ∀ l h : ER, (∀ x y : ℝ, Contains X x → Contains Y y → l.AtMost (op x y) ∧ h.AtLeast (op x y)) →
    ER.le l lo = true ∧ ER.le hi h = true

/-- The result `z` and its flags are those of rounding the exact bounds `lo` and `hi` outward, once each, and the result is the
tightest interval of the format that contains every exact result (41_arithmetic.md section 2, R121). -/
def TightestResult {fmt : Fmt} (X Y : Interval fmt) (z : Interval fmt × FlagSet) (op : ℝ → ℝ → ℝ) (lo hi : ER) : Prop :=
  ExactBounds X Y op lo hi ∧ z = outward fmt lo hi ∧
    ∀ Z : Interval fmt, ContainsImage X Y Z op → encloses Z z.1 = true

/-- (P2) of R155 for a numerics record: of valid operands, and for division of a divisor without zero, the result contains
every exact result. -/
def NumContains (n : Sys2Proof.Num) : Prop :=
  ∀ (fmt : Fmt) (mode : Mode) (X Y : Interval fmt), valid X = true → valid Y = true →
    ContainsImage X Y (n.intervalAdd fmt mode X Y).1 (· + ·) ∧
    ContainsImage X Y (n.intervalSub fmt mode X Y).1 (· - ·) ∧
    ContainsImage X Y (n.intervalMul fmt mode X Y).1 (· * ·) ∧
    (containsZero Y = false → ContainsImage X Y (n.intervalDiv fmt mode X Y).1 (· / ·))

/-- (P3) of R155 for a numerics record: a divisor that contains zero raises a flag. -/
def NumFlagsZeroDivisor (n : Sys2Proof.Num) : Prop :=
  ∀ (fmt : Fmt) (mode : Mode) (X Y : Interval fmt), containsZero Y = true →
    (n.divByZeroInterval fmt mode X Y).2 ≠ noFlags

/-! ## Rounding, by thresholds on the exact value (R113, R115)

Written from the table of the modes and from where the last value before a power of two lies, not from the steps of
`round`; `M` is the width of the fraction field. -/

/-- The mode rounds the magnitude of `r` down. -/
def TowardZero (mode : Mode) (r : Rat) : Prop := mode = .rtz ∨ (mode = .rdn ∧ 0 < r) ∨ (mode = .rup ∧ r < 0)

/-- The mode rounds the magnitude of `r` up. -/
def AwayFromZero (mode : Mode) (r : Rat) : Prop := (mode = .rdn ∧ r < 0) ∨ (mode = .rup ∧ 0 < r)

/-- The mode rounds to nearest. -/
def ToNearest (mode : Mode) : Prop := mode = .rne ∨ mode = .rmm

/-- `r`, rounded to `M + 1` significant bits with no bound on the exponent, has a magnitude of at least `2^k`: the value
before `2^k` is `2^k - 2^(k-1-M)`, and a tie between the two goes to `2^k` in both modes to nearest. -/
def RoundsToAtLeast (fmt : Fmt) (mode : Mode) (r : Rat) (k : Int) : Prop :=
  (TowardZero mode r ∧ pow2 k ≤ |r|) ∨
  (AwayFromZero mode r ∧ pow2 k - pow2 (k - 1 - fracWidth fmt) < |r|) ∨
  (ToNearest mode ∧ pow2 k - pow2 (k - 2 - fracWidth fmt) ≤ |r|)

end Sys2Proof.Machine
end

