-- ==== Sys2Proof/Certificates/Slice0/Obligations.lean ====
section
/-!
DEFINITION. The statements for the provers, from the numbered rules of the spec. An instruction's statements hold for every
numerics record unless they say "reference".
-/

open Sys2Proof Sys2Proof.Machine

/-! ## Encoding -/

/-- Every instruction, with every operand at every value of its field, is decoded from its own encoded bytes (R81, R88,
R221, and the byte order of R62). -/
def Obligations.DecodeOfEncodedInstruction : Prop :=
  ∀ i : Instr, decodeBytes (encodeBytes i) = .ok i

/-- A word that decodes to an instruction is the only word of that instruction: no bit of it is ignored. -/
def Obligations.EncodeOfDecodedWord : Prop :=
  ∀ (w : InstrWord) (i : Instr), decode w = .ok i → encode i = w

/-- The decoder is the opcode map of R88 (and of R221 for the CSR instructions): a word decodes to an instruction exactly
when it meets the mask and match of a row, and then to an instruction of that row. -/
def Obligations.DecodeFollowsMaskAndMatch : Prop :=
  ∀ w : InstrWord,
    (∀ i, decode w = .ok i → w &&& rowMask i = rowMatch i) ∧
    (∀ i, w &&& rowMask i = rowMatch i → ∃ j, decode w = .ok j ∧ rowMatch j = rowMatch i ∧ rowMask j = rowMask i)

/-- Words that the spec writes out in its examples decode to the instructions it gives for them. -/
def Obligations.ExampleWordsDecode : Prop :=
  decode 0x0220F18B#32 = .ok (.intaddS 3 1 2 .dyn) ∧
  decode 0x1820818B#32 = .ok (.intdivH 3 1 2 .rne) ∧
  decode 0x4000818B#32 = .ok (.intmidH 3 1 .rne) ∧
  decode 0x8020828B#32 = .ok (.intbfrH 5 1 2) ∧
  decode 0x0013B2F3#32 = .ok (.csrrc 5 0x001 7) ∧
  decode 0x00215073#32 = .ok (.csrrwi 0 0x002 2)

/-- Why a word under the major opcode of the extension decodes to no instruction, in the order of the checks of R93: lines
1, 3, 4 and 5 of R92. The reasons' names are the model's (log entry 6). -/
def Obligations.RejectionReasonsInOrder : Prop :=
  ∀ w : InstrWord, w.extractLsb' 0 7 = 0b0001011#7 →
    (decode w = .error .reservedFormat ↔ w.getLsbD 26 = true) ∧
    (decode w = .error .unassignedMinorOpcode ↔
      w.getLsbD 26 = false ∧ (w.extractLsb' 27 5).toNat ∈ [4, 5, 6, 7, 13, 14, 15, 23, 24, 25, 26, 27, 28, 29, 30, 31]) ∧
    (decode w = .error .statisticalRs2 ↔
      w.getLsbD 26 = false ∧ (w.extractLsb' 27 5).toNat ∈ [8, 9, 10, 11, 12] ∧ w.extractLsb' 20 5 ≠ 0#5) ∧
    (decode w = .error .temporalRm ↔
      w.getLsbD 26 = false ∧ (w.extractLsb' 27 5).toNat ∈ [16, 17, 18, 19, 20, 21, 22] ∧ w.extractLsb' 12 3 ≠ 0#3) ∧
    decode w ≠ .error .undescribed

/-! ## The step -/

/-- When the bytes at `pc` decode to an instruction, the step is that instruction's meaning at that state; nothing is
added around it (an instruction moves `pc` itself). -/
def Obligations.StepRunsDecodedInstruction : Prop :=
  ∀ (s : State) (bs : List Byte) (i : Instr), s.cfg.legal = true → s.pc.toNat % 4 = 0 →
    memRead s.mem s.pc.toNat 4 = some bs → decodeBytes bs = .ok i → step s = exec i s

/-- R63: the word at `pc` is fetched little-endian from the four bytes at `pc`, decoded and executed; where `pc` is no
multiple of 4 or one of the four bytes is not in `PROGRAM` there is no next state. -/
def Obligations.FetchNeedsAlignedPcInsideProgram : Prop :=
  (∀ (s : State) (b0 b1 b2 b3 : Byte) (i : Instr), s.cfg.legal = true → s.pc.toNat % 4 = 0 →
    Memory.read s.mem s.pc.toNat = some b0 → Memory.read s.mem (s.pc.toNat + 1) = some b1 →
    Memory.read s.mem (s.pc.toNat + 2) = some b2 → Memory.read s.mem (s.pc.toNat + 3) = some b3 →
    decode (b3 ++ b2 ++ b1 ++ b0) = .ok i → step s = exec i s) ∧
  (∀ s t : State, s.pc.toNat % 4 ≠ 0 → step s ≠ .next t) ∧
  (∀ (s t : State) (k : Nat), k < 4 → Memory.read s.mem (s.pc.toNat + k) = none → step s ≠ .next t)

/-- R220 case (c): a word that is neither under the extension's major opcode nor one of the six CSR instructions, and a CSR
instruction on a CSR number other than the three, has no next state. That the model says so by a refusal of that name is
its own choice (log entry 8). -/
def Obligations.UndescribedHostWordsAreRefused : Prop :=
  (∀ (s : State) (b0 b1 b2 b3 : Byte), s.cfg.legal = true → s.pc.toNat % 4 = 0 →
    memRead s.mem s.pc.toNat 4 = some [b0, b1, b2, b3] →
    let w : InstrWord := b3 ++ b2 ++ b1 ++ b0
    w.extractLsb' 0 7 ≠ 0b0001011#7 →
    w.extractLsb' 0 7 ≠ 0b1110011#7 ∨ (w.extractLsb' 12 3).toNat ∈ [0, 4] ∨ ¬ NamesCsr (w.extractLsb' 20 12) →
    step s = .refused (.undescribedHostInstruction s.pc w)) ∧
  (∀ (s : State) (rd rs1 : Reg) (csr : CsrNumber), ¬ NamesCsr csr →
    exec (.csrrw rd csr rs1) s = .refused (.undescribedHostInstruction s.pc (encode (.csrrw rd csr rs1))) ∧
    exec (.csrrs rd csr rs1) s = .refused (.undescribedHostInstruction s.pc (encode (.csrrs rd csr rs1))) ∧
    exec (.csrrc rd csr rs1) s = .refused (.undescribedHostInstruction s.pc (encode (.csrrc rd csr rs1))) ∧
    exec (.csrrwi rd csr rs1) s = .refused (.undescribedHostInstruction s.pc (encode (.csrrwi rd csr rs1))) ∧
    exec (.csrrsi rd csr rs1) s = .refused (.undescribedHostInstruction s.pc (encode (.csrrsi rd csr rs1))) ∧
    exec (.csrrci rd csr rs1) s = .refused (.undescribedHostInstruction s.pc (encode (.csrrci rd csr rs1))))

/-- R10: the legal configurations, whatever the numerics, and that there are fourteen. -/
def Obligations.FourteenLegalConfigurations : Prop :=
  (∀ c : Config, c.legal = true ↔
    (c.regfile, c.hasH, c.hasS) ∈
      [(RegFile.f .w32, true, false), (.f .w64, true, false), (.f .w64, false, true), (.f .w64, true, true),
        (.x, true, false), (.x, false, true), (.x, true, true)]) ∧
  ∀ num : NumChoice,
    (((([Width.w32, .w64].product [RegFile.f .w32, .f .w64, .x]).product ([true, false].product [true, false])).map
      fun q => ({ xlen := q.1.1, regfile := q.1.2, hasH := q.2.1, hasS := q.2.2, num := num } : Config)).filter
      fun c => c.legal).length = 14

/-- The step refuses a configuration that is not legal rather than run it (R271); the refusal's name is the model's. -/
def Obligations.IllegalConfigurationIsRefused : Prop :=
  ∀ s : State, s.cfg.legal = false → step s = .refused (.illegalConfiguration s.cfg)

/-! ## Reserved encodings and the one exception -/

/-- R92: a word under the extension's major opcode is executed, or raises `IllegalInstruction` with its `pc` and word and no
next state, exactly as the seven lines of the table say. -/
def Obligations.ReservedWordsRaiseIllegalInstruction : Prop :=
  ∀ (s : State) (b0 b1 b2 b3 : Byte), s.cfg.legal = true → s.pc.toNat % 4 = 0 →
    memRead s.mem s.pc.toNat 4 = some [b0, b1, b2, b3] →
    let w : InstrWord := b3 ++ b2 ++ b1 ++ b0
    w.extractLsb' 0 7 = 0b0001011#7 →
    (ReservedWord s.cfg s.frm w → step s = .fault (.illegalInstruction s.pc w)) ∧
    (¬ ReservedWord s.cfg s.frm w → ∃ t, step s = .next t)

/-- `IllegalInstruction` is raised by nothing else (R244): the recorded address is `pc`, the recorded word is the fetched one,
and it is a reserved word of the extension. -/
def Obligations.IllegalInstructionOnlyOnReservedWords : Prop :=
  ∀ (s : State) (p : Word) (w : InstrWord), step s = .fault (.illegalInstruction p w) →
    p = s.pc ∧ w.extractLsb' 0 7 = 0b0001011#7 ∧ ReservedWord s.cfg s.frm w ∧
      memRead s.mem s.pc.toNat 4 =
        some [w.extractLsb' 0 8, w.extractLsb' 8 8, w.extractLsb' 16 8, w.extractLsb' 24 8]

/-- An instruction of the extension raises `IllegalInstruction` exactly where it is reserved in its configuration and with
its `frm` (R92 lines 2, 6 and 7, R244), and completes everywhere else: no flag causes a trap (R242). -/
def Obligations.ExtensionInstructionTrapsOrCompletes : Prop :=
  ∀ (i : Instr) (s : State), formatOf i ≠ none →
    (ReservedHere s i → exec i s = .fault (.illegalInstruction s.pc (encode i))) ∧
    (¬ ReservedHere s i → ∃ t, exec i s = .next t)

/-- R91: under RV32 `Zfintx` a single-precision instruction completes only with even numbers in the fields that name a pair;
in every other configuration, and for half precision, all 32 numbers are allowed in every field. -/
def Obligations.OddPairRegistersAreReserved : Prop :=
  ∀ (i : Instr) (s : State) (fmt : Fmt), formatOf i = some fmt →
    (fmt = .h → s.cfg.hasH = true) → (fmt = .s → s.cfg.hasS = true) →
    (∀ rm, rmFieldOf i = some rm → ∃ mode, ModeInForce rm s.frm mode) →
    (PairedRegisters s.cfg ∧ fmt = .s →
      ((∃ t, exec i s = .next t) ↔ ∀ r ∈ intervalFieldsOf i, r.toNat % 2 = 0) ∧
      ((∃ r ∈ intervalFieldsOf i, r.toNat % 2 = 1) → exec i s = .fault (.illegalInstruction s.pc (encode i)))) ∧
    (¬ (PairedRegisters s.cfg ∧ fmt = .s) → ∃ t, exec i s = .next t)

/-- The rounding mode in force (R113, R114): the field's own mode, under `111` the mode in `frm`, and none for the reserved
values of either. -/
def Obligations.RoundingModeInForce : Prop :=
  ∀ (rm : Rm) (frm : BitVec 3),
    (∀ mode, effRm rm frm = some mode ↔ ModeInForce rm frm mode) ∧
    (effRm rm frm = none ↔ rm.bits = 0b101#3 ∨ rm.bits = 0b110#3 ∨ (rm.bits = 0b111#3 ∧ 5 ≤ frm.toNat))

/-! ## What the arithmetic instructions do, for every numerics record -/

/-- `INTADD` (R157, R158, R150): where it is not reserved it completes, with the record's sum of the two source intervals in
the destination, its flags accrued, and nothing else changed. -/
def Obligations.IntaddResult : Prop :=
  ∀ (s : State) (rd rs1 rs2 : Reg) (rm : Rm) (mode : Mode), s.cfg.legal = true → ModeInForce rm s.frm mode →
    (¬ ReservedHere s (.intaddH rd rs1 rs2 rm) →
      ∃ t, exec (.intaddH rd rs1 rs2 rm) s = .next t ∧
        StoresInterval s t .h rd
          ((numOf s.cfg.num).intervalAdd .h mode (readInterval s .h rs1) (readInterval s .h rs2)).1 ∧
        Completes s t ((numOf s.cfg.num).intervalAdd .h mode (readInterval s .h rs1) (readInterval s .h rs2)).2) ∧
    (¬ ReservedHere s (.intaddS rd rs1 rs2 rm) →
      ∃ t, exec (.intaddS rd rs1 rs2 rm) s = .next t ∧
        StoresInterval s t .s rd
          ((numOf s.cfg.num).intervalAdd .s mode (readInterval s .s rs1) (readInterval s .s rs2)).1 ∧
        Completes s t ((numOf s.cfg.num).intervalAdd .s mode (readInterval s .s rs1) (readInterval s .s rs2)).2)

/-- `INTSUB` (R159, R160, R150): the first source interval minus the second. -/
def Obligations.IntsubResult : Prop :=
  ∀ (s : State) (rd rs1 rs2 : Reg) (rm : Rm) (mode : Mode), s.cfg.legal = true → ModeInForce rm s.frm mode →
    (¬ ReservedHere s (.intsubH rd rs1 rs2 rm) →
      ∃ t, exec (.intsubH rd rs1 rs2 rm) s = .next t ∧
        StoresInterval s t .h rd
          ((numOf s.cfg.num).intervalSub .h mode (readInterval s .h rs1) (readInterval s .h rs2)).1 ∧
        Completes s t ((numOf s.cfg.num).intervalSub .h mode (readInterval s .h rs1) (readInterval s .h rs2)).2) ∧
    (¬ ReservedHere s (.intsubS rd rs1 rs2 rm) →
      ∃ t, exec (.intsubS rd rs1 rs2 rm) s = .next t ∧
        StoresInterval s t .s rd
          ((numOf s.cfg.num).intervalSub .s mode (readInterval s .s rs1) (readInterval s .s rs2)).1 ∧
        Completes s t ((numOf s.cfg.num).intervalSub .s mode (readInterval s .s rs1) (readInterval s .s rs2)).2)

/-- `INTMUL` (R161, R162, R150). -/
def Obligations.IntmulResult : Prop :=
  ∀ (s : State) (rd rs1 rs2 : Reg) (rm : Rm) (mode : Mode), s.cfg.legal = true → ModeInForce rm s.frm mode →
    (¬ ReservedHere s (.intmulH rd rs1 rs2 rm) →
      ∃ t, exec (.intmulH rd rs1 rs2 rm) s = .next t ∧
        StoresInterval s t .h rd
          ((numOf s.cfg.num).intervalMul .h mode (readInterval s .h rs1) (readInterval s .h rs2)).1 ∧
        Completes s t ((numOf s.cfg.num).intervalMul .h mode (readInterval s .h rs1) (readInterval s .h rs2)).2) ∧
    (¬ ReservedHere s (.intmulS rd rs1 rs2 rm) →
      ∃ t, exec (.intmulS rd rs1 rs2 rm) s = .next t ∧
        StoresInterval s t .s rd
          ((numOf s.cfg.num).intervalMul .s mode (readInterval s .s rs1) (readInterval s .s rs2)).1 ∧
        Completes s t ((numOf s.cfg.num).intervalMul .s mode (readInterval s .s rs1) (readInterval s .s rs2)).2)

/-- `INTDIV` (R163, R164, R156): the record's quotient, or its answer for a divisor that contains zero, which is no trap
(R243). -/
def Obligations.IntdivResult : Prop :=
  ∀ (s : State) (rd rs1 rs2 : Reg) (rm : Rm) (mode : Mode), s.cfg.legal = true → ModeInForce rm s.frm mode →
    (¬ ReservedHere s (.intdivH rd rs1 rs2 rm) →
      ∃ t, exec (.intdivH rd rs1 rs2 rm) s = .next t ∧
        ∃ z, z = (if containsZero (readInterval s .h rs2) = true
            then (numOf s.cfg.num).divByZeroInterval .h mode (readInterval s .h rs1) (readInterval s .h rs2)
            else (numOf s.cfg.num).intervalDiv .h mode (readInterval s .h rs1) (readInterval s .h rs2)) ∧
          StoresInterval s t .h rd z.1 ∧ Completes s t z.2) ∧
    (¬ ReservedHere s (.intdivS rd rs1 rs2 rm) →
      ∃ t, exec (.intdivS rd rs1 rs2 rm) s = .next t ∧
        ∃ z, z = (if containsZero (readInterval s .s rs2) = true
            then (numOf s.cfg.num).divByZeroInterval .s mode (readInterval s .s rs1) (readInterval s .s rs2)
            else (numOf s.cfg.num).intervalDiv .s mode (readInterval s .s rs1) (readInterval s .s rs2)) ∧
          StoresInterval s t .s rd z.1 ∧ Completes s t z.2)

/-! ## What the statistical instructions do -/

/-- `INTMID`, `INTWDT` and `INTRAD` (R176 to R181, R170): where they are not reserved they complete, with the record's value of
the source interval in the destination register, its flags accrued, and nothing else changed. -/
def Obligations.MidWdtRadResult : Prop :=
  ∀ (s : State) (rd rs1 : Reg) (rm : Rm) (mode : Mode), s.cfg.legal = true → ModeInForce rm s.frm mode →
    (¬ ReservedHere s (.intmidH rd rs1 rm) → ∃ t, exec (.intmidH rd rs1 rm) s = .next t ∧
      StoresScalar s t .h rd ((numOf s.cfg.num).mid .h mode (readInterval s .h rs1)).1 ∧
      Completes s t ((numOf s.cfg.num).mid .h mode (readInterval s .h rs1)).2) ∧
    (¬ ReservedHere s (.intmidS rd rs1 rm) → ∃ t, exec (.intmidS rd rs1 rm) s = .next t ∧
      StoresScalar s t .s rd ((numOf s.cfg.num).mid .s mode (readInterval s .s rs1)).1 ∧
      Completes s t ((numOf s.cfg.num).mid .s mode (readInterval s .s rs1)).2) ∧
    (¬ ReservedHere s (.intwdtH rd rs1 rm) → ∃ t, exec (.intwdtH rd rs1 rm) s = .next t ∧
      StoresScalar s t .h rd ((numOf s.cfg.num).wdt .h mode (readInterval s .h rs1)).1 ∧
      Completes s t ((numOf s.cfg.num).wdt .h mode (readInterval s .h rs1)).2) ∧
    (¬ ReservedHere s (.intwdtS rd rs1 rm) → ∃ t, exec (.intwdtS rd rs1 rm) s = .next t ∧
      StoresScalar s t .s rd ((numOf s.cfg.num).wdt .s mode (readInterval s .s rs1)).1 ∧
      Completes s t ((numOf s.cfg.num).wdt .s mode (readInterval s .s rs1)).2) ∧
    (¬ ReservedHere s (.intradH rd rs1 rm) → ∃ t, exec (.intradH rd rs1 rm) s = .next t ∧
      StoresScalar s t .h rd ((numOf s.cfg.num).rad .h mode (readInterval s .h rs1)).1 ∧
      Completes s t ((numOf s.cfg.num).rad .h mode (readInterval s .h rs1)).2) ∧
    (¬ ReservedHere s (.intradS rd rs1 rm) → ∃ t, exec (.intradS rd rs1 rm) s = .next t ∧
      StoresScalar s t .s rd ((numOf s.cfg.num).rad .s mode (readInterval s .s rs1)).1 ∧
      Completes s t ((numOf s.cfg.num).rad .s mode (readInterval s .s rs1)).2)

/-- `INTMIN` and `INTMAX` (R174, R182 to R185): a bit copy of the lower or the upper bound, with no flag, whatever the bounds
are and whatever the numerics record; the `rm` field is checked all the same. -/
def Obligations.MinMaxCopyABound : Prop :=
  ∀ (s : State) (rd rs1 : Reg) (rm : Rm), s.cfg.legal = true →
    (¬ ReservedHere s (.intminH rd rs1 rm) → ∃ t, exec (.intminH rd rs1 rm) s = .next t ∧
      StoresScalar s t .h rd (readInterval s .h rs1).lo ∧ Completes s t 0#5) ∧
    (¬ ReservedHere s (.intminS rd rs1 rm) → ∃ t, exec (.intminS rd rs1 rm) s = .next t ∧
      StoresScalar s t .s rd (readInterval s .s rs1).lo ∧ Completes s t 0#5) ∧
    (¬ ReservedHere s (.intmaxH rd rs1 rm) → ∃ t, exec (.intmaxH rd rs1 rm) s = .next t ∧
      StoresScalar s t .h rd (readInterval s .h rs1).hi ∧ Completes s t 0#5) ∧
    (¬ ReservedHere s (.intmaxS rd rs1 rm) → ∃ t, exec (.intmaxS rd rs1 rm) s = .next t ∧
      StoresScalar s t .s rd (readInterval s .s rs1).hi ∧ Completes s t 0#5) ∧
    ((∀ mode, ¬ ModeInForce rm s.frm mode) →
      (∀ t, exec (.intminH rd rs1 rm) s ≠ .next t) ∧ (∀ t, exec (.intminS rd rs1 rm) s ≠ .next t) ∧
      (∀ t, exec (.intmaxH rd rs1 rm) s ≠ .next t) ∧ (∀ t, exec (.intmaxS rd rs1 rm) s ≠ .next t))

/-! ## What the temporal logic instructions do -/

/-- `INTBFR` and `INTMTS` (R198 to R201, R190): where they are not reserved they complete, with the record's bit in `x[rd]`
under both register files, its flags accrued, and nothing else changed. -/
def Obligations.BeforeMeetsResult : Prop :=
  ∀ (s : State) (rd rs1 rs2 : Reg), s.cfg.legal = true →
    (¬ ReservedHere s (.intbfrH rd rs1 rs2) → ∃ t, exec (.intbfrH rd rs1 rs2) s = .next t ∧
      StoresBool s t rd ((numOf s.cfg.num).before .h (readInterval s .h rs1) (readInterval s .h rs2)).1 ∧
      Completes s t ((numOf s.cfg.num).before .h (readInterval s .h rs1) (readInterval s .h rs2)).2) ∧
    (¬ ReservedHere s (.intbfrS rd rs1 rs2) → ∃ t, exec (.intbfrS rd rs1 rs2) s = .next t ∧
      StoresBool s t rd ((numOf s.cfg.num).before .s (readInterval s .s rs1) (readInterval s .s rs2)).1 ∧
      Completes s t ((numOf s.cfg.num).before .s (readInterval s .s rs1) (readInterval s .s rs2)).2) ∧
    (¬ ReservedHere s (.intmtsH rd rs1 rs2) → ∃ t, exec (.intmtsH rd rs1 rs2) s = .next t ∧
      StoresBool s t rd ((numOf s.cfg.num).meets .h (readInterval s .h rs1) (readInterval s .h rs2)).1 ∧
      Completes s t ((numOf s.cfg.num).meets .h (readInterval s .h rs1) (readInterval s .h rs2)).2) ∧
    (¬ ReservedHere s (.intmtsS rd rs1 rs2) → ∃ t, exec (.intmtsS rd rs1 rs2) s = .next t ∧
      StoresBool s t rd ((numOf s.cfg.num).meets .s (readInterval s .s rs1) (readInterval s .s rs2)).1 ∧
      Completes s t ((numOf s.cfg.num).meets .s (readInterval s .s rs1) (readInterval s .s rs2)).2)

/-- `INTOVR` and `INTDUR` (R202 to R205, R190). -/
def Obligations.OverlapsDuringResult : Prop :=
  ∀ (s : State) (rd rs1 rs2 : Reg), s.cfg.legal = true →
    (¬ ReservedHere s (.intovrH rd rs1 rs2) → ∃ t, exec (.intovrH rd rs1 rs2) s = .next t ∧
      StoresBool s t rd ((numOf s.cfg.num).overlaps .h (readInterval s .h rs1) (readInterval s .h rs2)).1 ∧
      Completes s t ((numOf s.cfg.num).overlaps .h (readInterval s .h rs1) (readInterval s .h rs2)).2) ∧
    (¬ ReservedHere s (.intovrS rd rs1 rs2) → ∃ t, exec (.intovrS rd rs1 rs2) s = .next t ∧
      StoresBool s t rd ((numOf s.cfg.num).overlaps .s (readInterval s .s rs1) (readInterval s .s rs2)).1 ∧
      Completes s t ((numOf s.cfg.num).overlaps .s (readInterval s .s rs1) (readInterval s .s rs2)).2) ∧
    (¬ ReservedHere s (.intdurH rd rs1 rs2) → ∃ t, exec (.intdurH rd rs1 rs2) s = .next t ∧
      StoresBool s t rd ((numOf s.cfg.num).during .h (readInterval s .h rs1) (readInterval s .h rs2)).1 ∧
      Completes s t ((numOf s.cfg.num).during .h (readInterval s .h rs1) (readInterval s .h rs2)).2) ∧
    (¬ ReservedHere s (.intdurS rd rs1 rs2) → ∃ t, exec (.intdurS rd rs1 rs2) s = .next t ∧
      StoresBool s t rd ((numOf s.cfg.num).during .s (readInterval s .s rs1) (readInterval s .s rs2)).1 ∧
      Completes s t ((numOf s.cfg.num).during .s (readInterval s .s rs1) (readInterval s .s rs2)).2)

/-- `INTSTR`, `INTFIN` and `INTEQL` (R206 to R211, R190). -/
def Obligations.StartsFinishesEqualResult : Prop :=
  ∀ (s : State) (rd rs1 rs2 : Reg), s.cfg.legal = true →
    (¬ ReservedHere s (.intstrH rd rs1 rs2) → ∃ t, exec (.intstrH rd rs1 rs2) s = .next t ∧
      StoresBool s t rd ((numOf s.cfg.num).starts .h (readInterval s .h rs1) (readInterval s .h rs2)).1 ∧
      Completes s t ((numOf s.cfg.num).starts .h (readInterval s .h rs1) (readInterval s .h rs2)).2) ∧
    (¬ ReservedHere s (.intstrS rd rs1 rs2) → ∃ t, exec (.intstrS rd rs1 rs2) s = .next t ∧
      StoresBool s t rd ((numOf s.cfg.num).starts .s (readInterval s .s rs1) (readInterval s .s rs2)).1 ∧
      Completes s t ((numOf s.cfg.num).starts .s (readInterval s .s rs1) (readInterval s .s rs2)).2) ∧
    (¬ ReservedHere s (.intfinH rd rs1 rs2) → ∃ t, exec (.intfinH rd rs1 rs2) s = .next t ∧
      StoresBool s t rd ((numOf s.cfg.num).finishes .h (readInterval s .h rs1) (readInterval s .h rs2)).1 ∧
      Completes s t ((numOf s.cfg.num).finishes .h (readInterval s .h rs1) (readInterval s .h rs2)).2) ∧
    (¬ ReservedHere s (.intfinS rd rs1 rs2) → ∃ t, exec (.intfinS rd rs1 rs2) s = .next t ∧
      StoresBool s t rd ((numOf s.cfg.num).finishes .s (readInterval s .s rs1) (readInterval s .s rs2)).1 ∧
      Completes s t ((numOf s.cfg.num).finishes .s (readInterval s .s rs1) (readInterval s .s rs2)).2) ∧
    (¬ ReservedHere s (.inteqlH rd rs1 rs2) → ∃ t, exec (.inteqlH rd rs1 rs2) s = .next t ∧
      StoresBool s t rd ((numOf s.cfg.num).equal .h (readInterval s .h rs1) (readInterval s .h rs2)).1 ∧
      Completes s t ((numOf s.cfg.num).equal .h (readInterval s .h rs1) (readInterval s .h rs2)).2) ∧
    (¬ ReservedHere s (.inteqlS rd rs1 rs2) → ∃ t, exec (.inteqlS rd rs1 rs2) s = .next t ∧
      StoresBool s t rd ((numOf s.cfg.num).equal .s (readInterval s .s rs1) (readInterval s .s rs2)).1 ∧
      Completes s t ((numOf s.cfg.num).equal .s (readInterval s .s rs1) (readInterval s .s rs2)).2)

/-! ## What the CSR instructions do -/

/-- `CSRRW` and `CSRRWI` (R224, R227): the old value to `x[rd]`, the register or the immediate to the CSR. -/
def Obligations.CsrWriteResult : Prop :=
  ∀ (s : State) (rd rs1 : Reg) (uimm : BitVec 5) (csr : CsrNumber), NamesCsr csr →
    (∃ t, exec (.csrrw rd csr rs1) s = .next t ∧ CsrCompletes s t rd csr ∧ CsrTakes s t csr (readX s rs1)) ∧
    (∃ t, exec (.csrrwi rd csr uimm) s = .next t ∧ CsrCompletes s t rd csr ∧ CsrTakes s t csr (0#59 ++ uimm))

/-- `CSRRS` and `CSRRSI` (R225, R228): the set bits of the operand are set; with register number 0 or immediate 0 the CSR is
not written at all. -/
def Obligations.CsrSetResult : Prop :=
  ∀ (s : State) (rd rs1 : Reg) (uimm : BitVec 5) (csr : CsrNumber), NamesCsr csr →
    (∃ t, exec (.csrrs rd csr rs1) s = .next t ∧ CsrCompletes s t rd csr ∧
      (rs1 ≠ 0#5 → CsrTakes s t csr (csrImage s csr ||| readX s rs1)) ∧
      (rs1 = 0#5 → t.fflags = s.fflags ∧ t.frm = s.frm)) ∧
    (∃ t, exec (.csrrsi rd csr uimm) s = .next t ∧ CsrCompletes s t rd csr ∧
      (uimm ≠ 0#5 → CsrTakes s t csr (csrImage s csr ||| (0#59 ++ uimm))) ∧
      (uimm = 0#5 → t.fflags = s.fflags ∧ t.frm = s.frm))

/-- `CSRRC` and `CSRRCI` (R226, R229): the set bits of the operand are cleared; with register number 0 or immediate 0 the CSR
is not written at all. -/
def Obligations.CsrClearResult : Prop :=
  ∀ (s : State) (rd rs1 : Reg) (uimm : BitVec 5) (csr : CsrNumber), NamesCsr csr →
    (∃ t, exec (.csrrc rd csr rs1) s = .next t ∧ CsrCompletes s t rd csr ∧
      (rs1 ≠ 0#5 → CsrTakes s t csr (csrImage s csr &&& ~~~ readX s rs1)) ∧
      (rs1 = 0#5 → t.fflags = s.fflags ∧ t.frm = s.frm)) ∧
    (∃ t, exec (.csrrci rd csr uimm) s = .next t ∧ CsrCompletes s t rd csr ∧
      (uimm ≠ 0#5 → CsrTakes s t csr (csrImage s csr &&& ~~~ (0#59 ++ uimm : Word))) ∧
      (uimm = 0#5 → t.fflags = s.fflags ∧ t.frm = s.frm))

/-! ## Operands -/

/-- R30: what an interval operand reads as, in every configuration. Only the bits of the operand are used; a pair named by `x0`
reads as 64 zero bits. A single-precision operand in an `f` register needs `FLEN = 64`. -/
def Obligations.IntervalOperandReads : Prop :=
  ∀ (s : State) (r : Reg),
    (∀ flen, s.cfg.regfile = .f flen →
      (readInterval s .h r).hi ++ (readInterval s .h r).lo = (readF s r).extractLsb' 0 32 ∧
      (readInterval s .s r).hi ++ (readInterval s .s r).lo = readF s r) ∧
    (s.cfg.regfile = .x →
      (readInterval s .h r).hi ++ (readInterval s .h r).lo = (readX s r).extractLsb' 0 32 ∧
      (s.cfg.xlen = .w64 → (readInterval s .s r).hi ++ (readInterval s .s r).lo = readX s r) ∧
      (s.cfg.xlen = .w32 → r.toNat % 2 = 0 →
        (r = 0#5 → (readInterval s .s r).hi ++ (readInterval s .s r).lo = 0#64) ∧
        (r ≠ 0#5 → (readInterval s .s r).hi ++ (readInterval s .s r).lo
          = (readX s (r + 1#5)).extractLsb' 0 32 ++ (readX s r).extractLsb' 0 32)))

/-- An interval written to a destination is the interval that the destination reads as, in every legal configuration that has
the format; `x0` excepted, which discards it (R28 to R33). -/
def Obligations.WrittenIntervalReadsBack : Prop :=
  ∀ (s : State) (fmt : Fmt) (r : Reg) (I : Interval fmt), s.cfg.legal = true → formatImplemented s.cfg fmt = true →
    pairRegsOk s.cfg fmt [r] = true →
    (s.cfg.regfile = .x → r ≠ 0#5) → readInterval (writeInterval s fmt r I) fmt r = I

/-- R34: the boolean result. -/
def Obligations.BooleanResult : Prop :=
  ∀ (s : State) (r : Reg) (b : Bool),
    (r ≠ 0#5 → readX (writeBool s r b) r = (if b then 1#64 else 0#64)) ∧
    (r = 0#5 → writeBool s r b = s) ∧
    (∀ q, q ≠ r → readX (writeBool s r b) q = readX s q) ∧
    (∀ q, readF (writeBool s r b) q = readF s q)

/-- `x0` reads zero at all times and a write to it is discarded; every other `x` register reads what was last written, cut to
`XLEN` bits; every `f` register, `f0` included, reads what was last written, cut to `FLEN` bits (R20, R23, R24). -/
def Obligations.RegisterFiles : Prop :=
  ∀ (s : State) (r q : Reg) (v : Word),
    readX s 0#5 = 0#64 ∧ writeX s 0#5 v = s ∧
    (r ≠ 0#5 → (readX (writeX s r v) r).toNat = v.toNat % 2 ^ s.cfg.xlen.bits) ∧
    (q ≠ r → readX (writeX s r v) q = readX s q) ∧
    (∀ flen, s.cfg.regfile = .f flen → (readF (writeF s r v) r).toNat = v.toNat % 2 ^ flen.bits) ∧
    (q ≠ r → readF (writeF s r v) q = readF s q) ∧
    (s.cfg.regfile = .x → writeF s r v = s)

/-! ## Rounding and comparison -/

/-- What R115 says of `round`: the result of `RDN` is never above and the result of `RUP` never below the exact value; `RTZ`
delivers, of the data of no larger magnitude than the exact value, the one of largest magnitude; `OF` and `UF` never occur
without `NX`, `NV` and `DZ` never; `NX` is raised exactly when the delivered value is not the exact value; a value that the
format represents is delivered as itself with no flag, in every mode. `OF` is raised exactly when the value rounded without a
bound on the exponent exceeds the largest finite number; it comes with `NX` alone, and delivers the largest finite number in the
modes that round the magnitude down, an infinity in the others. `UF` is raised exactly when the result is inexact and tiny after
rounding. A zero that is delivered has the sign of the exact value. -/
def Obligations.RoundingProperties : Prop :=
  ∀ (fmt : Fmt) (r : Rat), r ≠ 0 →
    (∃ e, erOf (roundRat fmt .rdn r).1 = some e ∧ ER.le e (.fin r) = true) ∧
    (∃ e, erOf (roundRat fmt .rup r).1 = some e ∧ ER.le (.fin r) e = true) ∧
    (∃ d, erOf (roundRat fmt .rtz r).1 = some (.fin d) ∧ 0 ≤ d * r ∧ |d| ≤ |r| ∧
      ∀ (v : Datum fmt) (e : Rat), erOf v = some (.fin e) → |e| ≤ |r| → |e| ≤ |d|) ∧
    ∀ mode : Mode,
      ((roundRat fmt mode r).2 &&& (flagOF ||| flagUF) ≠ 0#5 → (roundRat fmt mode r).2 &&& flagNX ≠ 0#5) ∧
      (roundRat fmt mode r).2 &&& (flagNV ||| flagDZ) = 0#5 ∧
      ((roundRat fmt mode r).2 &&& flagNX = 0#5 ↔ erOf (roundRat fmt mode r).1 = some (.fin r)) ∧
      (∀ v : Datum fmt, erOf v = some (.fin r) → roundRat fmt mode r = (v, noFlags)) ∧
      ((roundRat fmt mode r).2 &&& flagOF ≠ 0#5 ↔ RoundsToAtLeast fmt mode r (emax fmt + 1)) ∧
      (RoundsToAtLeast fmt mode r (emax fmt + 1) →
        (roundRat fmt mode r).2 = flagOF ||| flagNX ∧
        (TowardZero mode r → erOf (roundRat fmt mode r).1 = some (.fin
          ((if r < 0 then -1 else 1) * (pow2 (emax fmt + 1) - pow2 (emax fmt - fracWidth fmt))))) ∧
        (¬ TowardZero mode r → erOf (roundRat fmt mode r).1 = some (if r < 0 then .ninf else .pinf))) ∧
      ((roundRat fmt mode r).2 &&& flagUF ≠ 0#5 ↔
        (roundRat fmt mode r).2 &&& flagNX ≠ 0#5 ∧ ¬ RoundsToAtLeast fmt mode r (emin fmt)) ∧
      (erOf (roundRat fmt mode r).1 = some (.fin 0) → (roundRat fmt mode r).1 = zeroDatum fmt (decide (r < 0)))

/-- In the two modes to nearest, without overflow, no datum of the format is nearer to the exact value than the delivered one; on a
tie with another value of the format, `RNE` delivers the one whose last significand bit is 0 and `RMM` the one of larger
magnitude (R113, R115). -/
def Obligations.NearestIsNearest : Prop :=
  ∀ (fmt : Fmt) (mode : Mode) (r : Rat), r ≠ 0 → mode = .rne ∨ mode = .rmm →
    (roundRat fmt mode r).2 &&& flagOF = 0#5 →
    ∃ d, erOf (roundRat fmt mode r).1 = some (.fin d) ∧
      ∀ (v : Datum fmt) (e : Rat), erOf v = some (.fin e) → |d - r| ≤ |e - r| ∧
        (|d - r| = |e - r| → e ≠ d →
          (mode = .rne → (roundRat fmt mode r).1.getLsbD 0 = false) ∧ (mode = .rmm → |e| < |d|))

/-- R121: `round_er` on the infinities and on zero, and outward rounding, which encloses the exact bounds and is the tightest
interval of the format that does. -/
def Obligations.OutwardIsTightest : Prop :=
  ∀ fmt : Fmt,
    (∀ mode, roundER fmt mode .pinf = (infDatum fmt false, noFlags) ∧
      roundER fmt mode .ninf = (infDatum fmt true, noFlags) ∧
      roundER fmt mode (.fin 0) = (0, noFlags) ∧
      ∀ r, r ≠ 0 → roundER fmt mode (.fin r) = roundRat fmt mode r) ∧
    ∀ lo hi : ER,
      (outward fmt lo hi).1.lo = (roundER fmt .rdn lo).1 ∧ (outward fmt lo hi).1.hi = (roundER fmt .rup hi).1 ∧
      (outward fmt lo hi).2 = (roundER fmt .rdn lo).2 ||| (roundER fmt .rup hi).2 ∧
      ∃ l h, bounds (outward fmt lo hi).1 = some (l, h) ∧ ER.le l lo = true ∧ ER.le hi h = true ∧
        ∀ (v : Datum fmt) (e : ER), erOf v = some e →
          (ER.le e lo = true → ER.le e l = true) ∧ (ER.le hi e = true → ER.le h e = true)

/-- R112: the canonical NaN, and that every NaN which a numeric function produces is the canonical one; `INTMIN` and `INTMAX`
copy. -/
def Obligations.ProducedNaNsAreCanonical : Prop :=
  canonicalNaN .h = 0x7E00#16 ∧ canonicalNaN .s = 0x7FC00000#32 ∧
  ∀ (fmt : Fmt) (mode : Mode),
    (∀ x y : Datum fmt, isNaN (fpAdd fmt mode x y).1 = true → (fpAdd fmt mode x y).1 = canonicalNaN fmt) ∧
    (∀ x y : Datum fmt, isNaN (fpSub fmt mode x y).1 = true → (fpSub fmt mode x y).1 = canonicalNaN fmt) ∧
    (∀ x y : Datum fmt, isNaN (fpDiv fmt mode x y).1 = true → (fpDiv fmt mode x y).1 = canonicalNaN fmt) ∧
    (∀ r : Rat, isNaN (roundRat fmt mode r).1 = true → (roundRat fmt mode r).1 = canonicalNaN fmt) ∧
    (∀ a : ER, isNaN (roundER fmt mode a).1 = false) ∧
    (∀ X : Interval fmt, (lowerCopy fmt mode X).1 = X.lo ∧ (upperCopy fmt mode X).1 = X.hi)

/-- R118 and R119: quiet equality; signaling less-than, and less-or-equal, which is the same with `<=`. The two zeros are equal,
and neither is less than the other. -/
def Obligations.ComparisonPrimitives : Prop :=
  ∀ (fmt : Fmt) (x y : Datum fmt),
    (isNaN x = true ∨ isNaN y = true →
      (fpEq fmt x y).1 = false ∧
      (fpEq fmt x y).2 = (if isSignaling x = true ∨ isSignaling y = true then flagNV else noFlags) ∧
      fpLt fmt x y = (false, flagNV) ∧ fpLe fmt x y = (false, flagNV)) ∧
    (∀ a b, erOf x = some a → erOf y = some b →
      fpEq fmt x y = (decide (a = b), noFlags) ∧
      fpLt fmt x y = (ER.lt a b, noFlags) ∧ fpLe fmt x y = (ER.lt a b || decide (a = b), noFlags)) ∧
    (isNaN x = false → ∃ a, erOf x = some a) ∧
    (∀ s, erOf (zeroDatum fmt s) = some (.fin 0) ∧ erOf (infDatum fmt s) = some (if s = true then .ninf else .pinf)) ∧
    (∀ p q : Rat, ER.lt (.fin p) (.fin q) = decide (p < q) ∧ ER.lt .ninf (.fin p) = true ∧
      ER.lt (.fin p) .pinf = true ∧ ER.lt .ninf .pinf = true ∧ ER.lt (.fin p) .ninf = false ∧
      ER.lt .pinf (.fin p) = false ∧ ER.lt .ninf .ninf = false ∧ ER.lt .pinf .pinf = false ∧
      ER.lt .pinf .ninf = false)

/-- R123: the four conditions on a valid interval; `Entire`, every degenerate interval with a finite bound and the zero
intervals with zeros of either sign are valid, `[+inf, +inf]` and `[-inf, -inf]` are not. -/
def Obligations.ValidIntervalConditions : Prop :=
  ∀ fmt : Fmt,
    (∀ I : Interval fmt, valid I = true ↔
      isNaN I.lo = false ∧ isNaN I.hi = false ∧ (fpLe fmt I.lo I.hi).1 = true ∧
        erOf I.lo ≠ some .pinf ∧ erOf I.hi ≠ some .ninf) ∧
    valid (entire fmt) = true ∧
    (∀ (v : Datum fmt) (r : Rat), erOf v = some (.fin r) → valid { lo := v, hi := v : Interval fmt } = true) ∧
    (∀ s s' : Bool, valid { lo := zeroDatum fmt s, hi := zeroDatum fmt s' : Interval fmt } = true) ∧
    (∀ s : Bool, valid { lo := infDatum fmt s, hi := infDatum fmt s : Interval fmt } = false)

/-! ## The reference arithmetic -/

/-- Containment for addition and subtraction (R155 (P2)), of the reference and of every implementation: of valid operands the
result is a valid interval that holds the sum, or the difference, of every two real numbers in them. Of the reference, the result
and its flags are those of rounding the exact bounds `[a + c, b + d]`, or `[a - d, b - c]`, outward, and the result is the tightest
interval of the format that contains every sum, or difference (R151, R152, R121). -/
def Obligations.AdditionAndSubtractionContain : Prop :=
  ∀ (n : NumChoice) (fmt : Fmt) (mode : Mode) (X Y : Interval fmt), valid X = true → valid Y = true →
    (ContainsImage X Y ((numOf n).intervalAdd fmt mode X Y).1 (· + ·) ∧
      ContainsImage X Y ((numOf n).intervalSub fmt mode X Y).1 (· - ·)) ∧
    ∀ a b c d : ER, bounds X = some (a, b) → bounds Y = some (c, d) →
      TightestResult X Y (refAdd fmt mode X Y) (· + ·) (ER.add a c) (ER.add b d) ∧
      TightestResult X Y (refSub fmt mode X Y) (· - ·) (ER.add a (ER.neg d)) (ER.add b (ER.neg c))

/-- Containment for multiplication (R155 (P2)), of the reference and of every implementation. Of the reference, the result and its
flags are those of rounding the least and the greatest of the four products of the bounds outward, and the result is the tightest
interval of the format that contains every product (R153, R121). -/
def Obligations.MultiplicationContains : Prop :=
  ∀ (n : NumChoice) (fmt : Fmt) (mode : Mode) (X Y : Interval fmt), valid X = true → valid Y = true →
    ContainsImage X Y ((numOf n).intervalMul fmt mode X Y).1 (· * ·) ∧
    ∀ a b c d : ER, bounds X = some (a, b) → bounds Y = some (c, d) →
      ∃ lo ∈ [ER.mul a c, ER.mul a d, ER.mul b c, ER.mul b d], ∃ hi ∈ [ER.mul a c, ER.mul a d, ER.mul b c, ER.mul b d],
        (∀ p ∈ [ER.mul a c, ER.mul a d, ER.mul b c, ER.mul b d], ER.le lo p = true ∧ ER.le p hi = true) ∧
        TightestResult X Y (refMul fmt mode X Y) (· * ·) lo hi

/-- Containment for division (R155 (P2)), of the reference and of every implementation: by a divisor without zero the quotient of
every two real numbers; for the reference, by a divisor with zero (R156) the quotient by every number of it but zero. Of the
reference, by a divisor without zero, the result and its flags are those of rounding the exact quotients of the six-case table of
R154 outward, and the result is the tightest interval of the format that contains every quotient (R154, R121). -/
def Obligations.DivisionContains : Prop :=
  ∀ (n : NumChoice) (fmt : Fmt) (mode : Mode) (X Y : Interval fmt), valid X = true → valid Y = true →
    (containsZero Y = false → ContainsImage X Y ((numOf n).intervalDiv fmt mode X Y).1 (· / ·)) ∧
    (containsZero Y = true →
      ∀ x y : ℝ, Contains X x → Contains Y y → y ≠ 0 → Contains (refDivByZeroInterval fmt mode X Y).1 (x / y)) ∧
    ∀ a b c d : ER, bounds X = some (a, b) → bounds Y = some (c, d) →
      (ER.lt (.fin 0) c = true →
        (ER.le (.fin 0) a = true → TightestResult X Y (refDiv fmt mode X Y) (· / ·) (ER.div a d) (ER.div b c)) ∧
        (ER.lt a (.fin 0) = true → ER.le b (.fin 0) = true →
          TightestResult X Y (refDiv fmt mode X Y) (· / ·) (ER.div a c) (ER.div b d)) ∧
        (ER.lt a (.fin 0) = true → ER.lt (.fin 0) b = true →
          TightestResult X Y (refDiv fmt mode X Y) (· / ·) (ER.div a c) (ER.div b c))) ∧
      (ER.lt d (.fin 0) = true →
        (ER.le (.fin 0) a = true → TightestResult X Y (refDiv fmt mode X Y) (· / ·) (ER.div b d) (ER.div a c)) ∧
        (ER.lt a (.fin 0) = true → ER.le b (.fin 0) = true →
          TightestResult X Y (refDiv fmt mode X Y) (· / ·) (ER.div b c) (ER.div a d)) ∧
        (ER.lt a (.fin 0) = true → ER.lt (.fin 0) b = true →
          TightestResult X Y (refDiv fmt mode X Y) (· / ·) (ER.div b d) (ER.div a d)))

/-- Reference addition and subtraction never raise `UF` or `DZ` (R151, R152): a sum in the subnormal range is exact. -/
def Obligations.AdditionNeverUnderflows : Prop :=
  ∀ (fmt : Fmt) (mode : Mode) (X Y : Interval fmt),
    (refAdd fmt mode X Y).2 &&& (flagUF ||| flagDZ) = 0#5 ∧ (refSub fmt mode X Y).2 &&& (flagUF ||| flagDZ) = 0#5

/-- An operand that is not a valid interval makes both bounds of the reference result the canonical NaN and raises `NV` alone
(R151 to R154); on valid operands `NV` is never raised. -/
def Obligations.InvalidOperandGivesNaNBounds : Prop :=
  ∀ (fmt : Fmt) (mode : Mode) (X Y : Interval fmt),
    (valid X = false ∨ valid Y = false →
      ∀ op ∈ [refAdd, refSub, refMul, refDiv],
        op fmt mode X Y = ({ lo := canonicalNaN fmt, hi := canonicalNaN fmt }, flagNV)) ∧
    (valid X = true → valid Y = true →
      ∀ op ∈ [refAdd, refSub, refMul, refDiv], (op fmt mode X Y).2 &&& flagNV = 0#5)

/-- R156: the dispatch of `INTDIV` for every numerics record, in which the dividend plays no part, and the reference answer for a
divisor that contains zero; the flag set for such a divisor is not empty, in the reference and in every implementation (R155
(P3)). -/
def Obligations.DivisionByAnIntervalWithZero : Prop :=
  ∀ (fmt : Fmt) (mode : Mode) (X Y : Interval fmt),
    (∀ (n : Sys2Proof.Num) (c d : ER), bounds Y = some (c, d) → ER.le c (.fin 0) = true → ER.le (.fin 0) d = true →
      divideDispatch n fmt mode X Y = n.divByZeroInterval fmt mode X Y) ∧
    (∀ n : Sys2Proof.Num, (∀ c d, bounds Y = some (c, d) → ER.lt (.fin 0) c = true ∨ ER.lt d (.fin 0) = true) →
      divideDispatch n fmt mode X Y = n.intervalDiv fmt mode X Y) ∧
    (valid X = true → referenceNum.divByZeroInterval fmt mode X Y
      = ({ lo := infDatum fmt true, hi := infDatum fmt false }, flagDZ)) ∧
    (valid X = false → referenceNum.divByZeroInterval fmt mode X Y
      = ({ lo := canonicalNaN fmt, hi := canonicalNaN fmt }, flagNV ||| flagDZ)) ∧
    ∀ c : NumChoice, containsZero Y = true → (divideDispatch (numOf c) fmt mode X Y).2 ≠ noFlags

/-- The zero interval, with zeros of either sign, times any valid interval is `[+0, +0]` with no flag (R153), `Entire` included. -/
def Obligations.ZeroTimesAnyIntervalIsZero : Prop :=
  ∀ (fmt : Fmt) (mode : Mode) (X Y : Interval fmt), bounds X = some (.fin 0, .fin 0) → valid Y = true →
    refMul fmt mode X Y = ({ lo := 0, hi := 0 }, noFlags) ∧ refMul fmt mode Y X = ({ lo := 0, hi := 0 }, noFlags)

/-! ## The reference statistical functions -/

/-- R172: the width as one subtraction in the mode in force. Of two numbers it is the exact difference rounded, and for an exact
zero difference `+0`, `-0` in mode RDN, or the zero itself for `+0 - -0` and `-0 - +0`; an infinity is kept, with its sign
inverted when it is subtracted; a NaN or two infinities of one sign give the canonical NaN (R116). `NV` exactly for a signaling NaN
bound or two infinities of one sign, never `UF` and never `DZ`; the width of `Entire` is `+inf` with no flag; the width of a
degenerate interval is `+0`, and `-0` in mode RDN. -/
def Obligations.WidthOfAnInterval : Prop :=
  ∀ (fmt : Fmt) (mode : Mode),
    (∀ X : Interval fmt, refWdt fmt mode X = fpSub fmt mode X.hi X.lo ∧
      (refWdt fmt mode X).2 &&& (flagUF ||| flagDZ) = 0#5 ∧
      ((refWdt fmt mode X).2 &&& flagNV ≠ 0#5 ↔
        isSignaling X.hi = true ∨ isSignaling X.lo = true ∨
          ∃ s, valueOf X.hi = .inf s ∧ valueOf X.lo = .inf s)) ∧
    refWdt fmt mode (entire fmt) = (infDatum fmt false, noFlags) ∧
    (∀ (v : Datum fmt) (s : Bool) (r : Rat), valueOf v = .num s r →
      refWdt fmt mode { lo := v, hi := v } = (zeroDatum fmt (mode == .rdn), noFlags)) ∧
    ∀ X : Interval fmt,
      (∀ (s t : Bool) (h l : Rat), valueOf X.hi = .num s h → valueOf X.lo = .num t l →
        refWdt fmt mode X = if h = l
          then (zeroDatum fmt (if h = 0 ∧ s ≠ t then s else mode == .rdn), noFlags)
          else roundRat fmt mode (h - l)) ∧
      (∀ s : Bool, valueOf X.hi = .inf s → isNaN X.lo = false → valueOf X.lo ≠ .inf s →
        refWdt fmt mode X = (X.hi, noFlags)) ∧
      (∀ (s t : Bool) (h : Rat), valueOf X.hi = .num s h → valueOf X.lo = .inf t →
        refWdt fmt mode X = (negateDatum X.lo, noFlags) ∧
          erOf (refWdt fmt mode X).1 = some (if t = true then .pinf else .ninf)) ∧
      (∀ s : Bool, valueOf X.hi = .inf s → valueOf X.lo = .inf s → refWdt fmt mode X = (canonicalNaN fmt, flagNV)) ∧
      (isNaN X.hi = true ∨ isNaN X.lo = true → refWdt fmt mode X =
        (canonicalNaN fmt, if isSignaling X.hi = true ∨ isSignaling X.lo = true then flagNV else noFlags))

/-- The midpoint is the rounded sum halved and the radius the rounded difference halved (R171, R173), with the flags of both
operations. The sum of two numbers is the exact sum rounded, and for an exact zero sum `+0`, `-0` in mode RDN, or the zero itself
of two zeros of one sign; an infinity is kept, two of opposite signs or a NaN give the canonical NaN (R116; the difference is that
of WidthOfAnInterval). Half a number is the exact half rounded, half a zero or an infinity is itself, half a NaN the canonical
NaN (R117). Halving a finite datum never raises `NV`, `DZ` or `OF`, and is exact unless the quotient is subnormal. -/
def Obligations.MidpointAndRadiusHalve : Prop :=
  ∀ (fmt : Fmt) (mode : Mode),
    (∀ X : Interval fmt,
      (refMid fmt mode X).1 = (fpDiv fmt mode (fpAdd fmt mode X.hi X.lo).1 (twoDatum fmt)).1 ∧
      (refMid fmt mode X).2 =
        (fpAdd fmt mode X.hi X.lo).2 ||| (fpDiv fmt mode (fpAdd fmt mode X.hi X.lo).1 (twoDatum fmt)).2 ∧
      (refRad fmt mode X).1 = (fpDiv fmt mode (fpSub fmt mode X.hi X.lo).1 (twoDatum fmt)).1 ∧
      (refRad fmt mode X).2 =
        (fpSub fmt mode X.hi X.lo).2 ||| (fpDiv fmt mode (fpSub fmt mode X.hi X.lo).1 (twoDatum fmt)).2) ∧
    erOf (twoDatum fmt) = some (.fin 2) ∧
    (∀ x y : Datum fmt,
      (∀ (s t : Bool) (a b : Rat), valueOf x = .num s a → valueOf y = .num t b →
        fpAdd fmt mode x y = if a + b = 0
          then (zeroDatum fmt (if a = 0 ∧ s = t then s else mode == .rdn), noFlags)
          else roundRat fmt mode (a + b)) ∧
      (∀ s : Bool, valueOf x = .inf s → isNaN y = false → valueOf y ≠ .inf (!s) → fpAdd fmt mode x y = (x, noFlags)) ∧
      (∀ (s t : Bool) (a : Rat), valueOf x = .num s a → valueOf y = .inf t → fpAdd fmt mode x y = (y, noFlags)) ∧
      (∀ s : Bool, valueOf x = .inf s → valueOf y = .inf (!s) → fpAdd fmt mode x y = (canonicalNaN fmt, flagNV)) ∧
      (isNaN x = true ∨ isNaN y = true → fpAdd fmt mode x y =
        (canonicalNaN fmt, if isSignaling x = true ∨ isSignaling y = true then flagNV else noFlags))) ∧
    (∀ v : Datum fmt,
      (∀ (s : Bool) (r : Rat), valueOf v = .num s r → fpDiv fmt mode v (twoDatum fmt) =
        if r = 0 then (zeroDatum fmt s, noFlags) else roundRat fmt mode (r / 2)) ∧
      (∀ s : Bool, valueOf v = .inf s → fpDiv fmt mode v (twoDatum fmt) = (infDatum fmt s, noFlags)) ∧
      (isNaN v = true → fpDiv fmt mode v (twoDatum fmt) =
        (canonicalNaN fmt, if isSignaling v = true then flagNV else noFlags))) ∧
    ∀ (v : Datum fmt) (r : Rat), erOf v = some (.fin r) →
      (fpDiv fmt mode v (twoDatum fmt)).2 &&& (flagNV ||| flagDZ ||| flagOF) = 0#5 ∧
      (pow2 (emin fmt) ≤ |r / 2| →
        erOf (fpDiv fmt mode v (twoDatum fmt)).1 = some (.fin (r / 2)) ∧
          (fpDiv fmt mode v (twoDatum fmt)).2 = noFlags)

/-! ## The reference relations -/

/-- R191 to R197: each relation as the comparisons it is made of, all of them evaluated and their flags united; on operands
without a NaN bound the bit is Allen's relation on the values of the bounds. `Overlaps` is never true both ways round, zeros of
either sign are equal bounds, and an interval with a NaN bound is not equal to itself. -/
def Obligations.ReferenceRelations : Prop :=
  ∀ (fmt : Fmt) (X Y : Interval fmt),
    (refBefore fmt X Y = fpLt fmt X.hi Y.lo ∧ refMeets fmt X Y = fpEq fmt X.hi Y.lo ∧
      refOverlaps fmt X Y = ((fpLt fmt X.lo Y.lo).1 && (fpLt fmt Y.lo X.hi).1 && (fpLt fmt X.hi Y.hi).1,
        (fpLt fmt X.lo Y.lo).2 ||| (fpLt fmt Y.lo X.hi).2 ||| (fpLt fmt X.hi Y.hi).2) ∧
      refDuring fmt X Y = ((fpLt fmt Y.lo X.lo).1 && (fpLt fmt X.hi Y.hi).1,
        (fpLt fmt Y.lo X.lo).2 ||| (fpLt fmt X.hi Y.hi).2) ∧
      refStarts fmt X Y = ((fpEq fmt X.lo Y.lo).1 && (fpLt fmt X.hi Y.hi).1,
        (fpEq fmt X.lo Y.lo).2 ||| (fpLt fmt X.hi Y.hi).2) ∧
      refFinishes fmt X Y = ((fpEq fmt X.hi Y.hi).1 && (fpLt fmt Y.lo X.lo).1,
        (fpEq fmt X.hi Y.hi).2 ||| (fpLt fmt Y.lo X.lo).2) ∧
      refEqual fmt X Y = ((fpEq fmt X.lo Y.lo).1 && (fpEq fmt X.hi Y.hi).1,
        (fpEq fmt X.lo Y.lo).2 ||| (fpEq fmt X.hi Y.hi).2)) ∧
    (∀ a b c d : ER, bounds X = some (a, b) → bounds Y = some (c, d) →
      (refBefore fmt X Y).1 = ER.lt b c ∧
      (refMeets fmt X Y).1 = decide (b = c) ∧
      (refOverlaps fmt X Y).1 = (ER.lt a c && ER.lt c b && ER.lt b d) ∧
      (refDuring fmt X Y).1 = (ER.lt c a && ER.lt b d) ∧
      (refStarts fmt X Y).1 = (decide (a = c) && ER.lt b d) ∧
      (refFinishes fmt X Y).1 = (decide (b = d) && ER.lt c a) ∧
      (refEqual fmt X Y).1 = (decide (a = c) && decide (b = d))) ∧
    ¬ ((refOverlaps fmt X Y).1 = true ∧ (refOverlaps fmt Y X).1 = true) ∧
    (∀ (v : Datum fmt) (s s' : Bool), isNaN v = false →
      (refEqual fmt { lo := zeroDatum fmt s, hi := v } { lo := zeroDatum fmt s', hi := v }).1 = true) ∧
    (bounds X = none → (refEqual fmt X X).1 = false)

/-- The flags of the reference relations (R118, R119, 43_temporal.md section 3): only `NV` can be raised, and only by a NaN
bound; a relation that raises it is false. -/
def Obligations.ReferenceRelationFlags : Prop :=
  ∀ (fmt : Fmt) (X Y : Interval fmt),
    ∀ rel ∈ [refBefore, refMeets, refOverlaps, refDuring, refStarts, refFinishes, refEqual],
      ((rel fmt X Y).2 = noFlags ∨ (rel fmt X Y).2 = flagNV) ∧
      ((rel fmt X Y).2 = flagNV → (rel fmt X Y).1 = false) ∧
      (bounds X ≠ none → bounds Y ≠ none → (rel fmt X Y).2 = noFlags)

/-- On proper intervals exactly one holds of Allen's thirteen relations, the seven of the instructions and the six that exchanging
the operands gives (43_temporal.md section 2: they are mutually exclusive). -/
def Obligations.AllenRelationsAreExclusive : Prop :=
  ∀ (fmt : Fmt) (X Y : Interval fmt) (a b c d : ER), bounds X = some (a, b) → bounds Y = some (c, d) →
    ER.lt a b = true → ER.lt c d = true →
    ([(refBefore fmt X Y).1, (refMeets fmt X Y).1, (refOverlaps fmt X Y).1, (refDuring fmt X Y).1,
      (refStarts fmt X Y).1, (refFinishes fmt X Y).1, (refEqual fmt X Y).1,
      (refBefore fmt Y X).1, (refMeets fmt Y X).1, (refOverlaps fmt Y X).1, (refDuring fmt Y X).1,
      (refStarts fmt Y X).1, (refFinishes fmt Y X).1].count true) = 1

/-! ## The whole machine -/

/-- Every step keeps the invariant: a legal configuration, registers and `pc` within their widths, `x0` zero, no `f` file under
`REGFILE = X`, `pc` a multiple of 4, memory in canonical form and inside the address space. -/
def Obligations.StepKeepsInvariant : Prop :=
  ∀ s t : State, s.Inv → step s = .next t → t.Inv

/-- The reset state satisfies the invariant. What it holds beyond `x0 = 0` and `pc = RESET_PC` is the model's choice (log entries
1, 3 and 4). -/
def Obligations.ResetSatisfiesInvariant : Prop :=
  State.reset.Inv

/-- What reset leaves: `x0` zero and `pc` at `RESET_PC` (R42, R270). The value of `RESET_PC`, the zeros and the empty `PROGRAM` are
the model's choice (log entries 3, 4 and 5). -/
def Obligations.ResetState : Prop :=
  readX State.reset 0#5 = 0#64 ∧ State.reset.pc = Config.resetPc ∧
  (∀ r, readX State.reset r = 0#64 ∧ readF State.reset r = 0#64) ∧
  State.reset.fflags = 0#5 ∧ State.reset.frm = 0#3 ∧ ∀ a, Memory.read State.reset.mem a = none

/-- R70: nothing in the machine stores to memory. That no step changes the configuration is the model's reading of R9, whose
parameters are fixed for a run (log entry 1, DESIGN CHOICE). -/
def Obligations.ProgramIsImmutable : Prop :=
  ∀ s t : State, step s = .next t → t.mem = s.mem ∧ t.cfg = s.cfg

/-- R26: an instruction that completes moves `pc` on by 4 modulo `2^XLEN`; none reads `pc`; one that raises `IllegalInstruction`
leaves `pc` where it is, which the fault records. -/
def Obligations.PcAdvancesByFour : Prop :=
  ∀ (i : Instr) (s : State),
    (∀ t, exec i s = .next t → t.pc.toNat = (s.pc.toNat + 4) % 2 ^ s.cfg.xlen.bits) ∧
    (∀ (t : State) (p : Word), exec i s = .next t →
      ∃ u, exec i { s with pc := p } = .next u ∧ { u with pc := t.pc } = t) ∧
    (∀ p w, exec i s = .fault (.illegalInstruction p w) → p = s.pc)

/-- No instruction of the extension clears a flag; a flag that a step clears was cleared by a CSR instruction on `fflags` or
`fcsr` (R37). -/
def Obligations.FlagsAreSticky : Prop :=
  ∀ (i : Instr) (s t : State), exec i s = .next t →
    (formatOf i ≠ none → s.fflags &&& t.fflags = s.fflags) ∧
    (s.fflags &&& t.fflags ≠ s.fflags →
      ∃ rd csr op, (csr = 0x001#12 ∨ csr = 0x003#12) ∧
        (i = .csrrw rd csr op ∨ i = .csrrs rd csr op ∨ i = .csrrc rd csr op ∨
          i = .csrrwi rd csr op ∨ i = .csrrsi rd csr op ∨ i = .csrrci rd csr op))

/-- `frm` is read by the instructions of the extension whose `rm` field is `DYN` and by no other, temporal ones included, and no
instruction of the extension writes it (R38, R90). -/
def Obligations.FrmIsReadOnlyUnderDyn : Prop :=
  ∀ (i : Instr) (s : State), formatOf i ≠ none →
    (∀ t, exec i s = .next t → t.frm = s.frm) ∧
    (rmFieldOf i ≠ some .dyn → ∀ (m : BitVec 3) (t : State), exec i s = .next t →
      exec i { s with frm := m } = .next { t with frm := m })

/-- Under `REGFILE = F` no instruction of the extension reads an `x` register, and only the temporal ones, which have no rounding
mode, write one (R21). -/
def Obligations.NoXRegisterIsReadUnderF : Prop :=
  ∀ (i : Instr) (s t : State) (flen : Width), s.cfg.regfile = .f flen → formatOf i ≠ none → exec i s = .next t →
    (∀ x : Vector Word 32, ∃ u, exec i { s with x := x } = .next u ∧ (∀ r, readF u r = readF t r) ∧
      u.fflags = t.fflags ∧
      ∀ r, (readX u r = readX { s with x := x } r ∧ readX t r = readX s r) ∨ readX u r = readX t r) ∧
    (rmFieldOf i ≠ none → KeepsX s t)

/-- With the reference numerics `DZ` is raised by `INTDIV` with a divisor that contains zero, and by nothing else (R241). -/
def Obligations.DivideByZeroFlagOnlyFromDivision : Prop :=
  ∀ (i : Instr) (s t : State), s.cfg.num = .reference → formatOf i ≠ none → exec i s = .next t →
    s.fflags &&& flagDZ = 0#5 →
    (t.fflags &&& flagDZ ≠ 0#5 ↔
      ∃ rd rs1 rs2 rm,
        (i = .intdivH rd rs1 rs2 rm ∧ containsZero (readInterval s .h rs2) = true) ∨
        (i = .intdivS rd rs1 rs2 rm ∧ containsZero (readInterval s .s rs2) = true))

/-- With the reference numerics the rounding mode does not change what an arithmetic instruction does (R151 to R154): two modes in
force give the same state. -/
def Obligations.ArithmeticIgnoresTheRoundingMode : Prop :=
  ∀ (s : State) (rd rs1 rs2 : Reg) (rm rm' : Rm) (mode mode' : Mode), s.cfg.num = .reference →
    ModeInForce rm s.frm mode → ModeInForce rm' s.frm mode' →
    (∀ t, exec (.intaddH rd rs1 rs2 rm) s = .next t → exec (.intaddH rd rs1 rs2 rm') s = .next t) ∧
    (∀ t, exec (.intaddS rd rs1 rs2 rm) s = .next t → exec (.intaddS rd rs1 rs2 rm') s = .next t) ∧
    (∀ t, exec (.intsubH rd rs1 rs2 rm) s = .next t → exec (.intsubH rd rs1 rs2 rm') s = .next t) ∧
    (∀ t, exec (.intsubS rd rs1 rs2 rm) s = .next t → exec (.intsubS rd rs1 rs2 rm') s = .next t) ∧
    (∀ t, exec (.intmulH rd rs1 rs2 rm) s = .next t → exec (.intmulH rd rs1 rs2 rm') s = .next t) ∧
    (∀ t, exec (.intmulS rd rs1 rs2 rm) s = .next t → exec (.intmulS rd rs1 rs2 rm') s = .next t) ∧
    (∀ t, exec (.intdivH rd rs1 rs2 rm) s = .next t → exec (.intdivH rd rs1 rs2 rm') s = .next t) ∧
    (∀ t, exec (.intdivS rd rs1 rs2 rm) s = .next t → exec (.intdivS rd rs1 rs2 rm') s = .next t)

/-- A word placed at an aligned `pc` is the instruction that the next step runs (R62, R63): the bytes are stored little-endian and
fetched the same way, whatever the memory held. -/
def Obligations.PlacedInstructionRunsNext : Prop :=
  ∀ (s : State) (i : Instr), s.cfg.legal = true → s.pc.toNat % 4 = 0 →
    step (s.withFetchWord 32 (encode i).toNat) = exec i (s.withFetchWord 32 (encode i).toNat) ∧
    ∀ a, a < s.pc.toNat ∨ s.pc.toNat + 4 ≤ a →
      Memory.read (s.withFetchWord 32 (encode i).toNat).mem a = Memory.read s.mem a
end

