-- ==== Sys2Proof/Laws/Decode.lean ====
section
/-!
SUPPORT. The fields of an encoded word, and the bytes of a word: what the round trips of the decoder and the encoder
are assembled from.
-/

namespace Sys2Proof

@[simp] theorem rmOfBits_bits (rm : Rm) : rmOfBits rm.bits = rm := by cases rm <;> rfl

theorem bits_rmOfBits (b : BitVec 3) : (rmOfBits b).bits = b := by revert b; decide

@[simp] theorem fmtOfBits_bits (fmt : Fmt) : fmtOfBits fmt.bits = some fmt := by cases fmt <;> rfl

theorem fmtOfBits_eq_some {b : BitVec 2} {fmt : Fmt} (h : fmtOfBits b = some fmt) : fmt.bits = b := by
  revert b; cases fmt <;> decide

/-! ## The fields of the format IA-R (R81) -/

section
variable (funct5 : BitVec 5) (fmt : Fmt) (rs2 rs1 rd : Reg) (rm : BitVec 3)

@[simp] theorem opcodeOf_packInterval : opcodeOf (packInterval funct5 fmt rs2 rs1 rm rd) = intervalOpcode := by
  simp only [opcodeOf, packInterval]
  rw [BitVec.extractLsb'_append_eq_of_add_le (by omega)]
  simp

@[simp] theorem rdOf_packInterval : rdOf (packInterval funct5 fmt rs2 rs1 rm rd) = rd := by
  simp only [rdOf, packInterval]
  rw [BitVec.extractLsb'_append_eq_of_le (by omega), BitVec.extractLsb'_append_eq_of_add_le (by omega)]
  simp

@[simp] theorem funct3Of_packInterval : funct3Of (packInterval funct5 fmt rs2 rs1 rm rd) = rm := by
  simp only [funct3Of, packInterval]
  rw [BitVec.extractLsb'_append_eq_of_le (by omega), BitVec.extractLsb'_append_eq_of_le (by omega), BitVec.extractLsb'_append_eq_of_add_le (by omega)]
  simp

@[simp] theorem rs1Of_packInterval : rs1Of (packInterval funct5 fmt rs2 rs1 rm rd) = rs1 := by
  simp only [rs1Of, packInterval]
  rw [BitVec.extractLsb'_append_eq_of_le (by omega), BitVec.extractLsb'_append_eq_of_le (by omega), BitVec.extractLsb'_append_eq_of_le (by omega), BitVec.extractLsb'_append_eq_of_add_le (by omega)]
  simp

@[simp] theorem rs2Of_packInterval : rs2Of (packInterval funct5 fmt rs2 rs1 rm rd) = rs2 := by
  simp only [rs2Of, packInterval]
  rw [BitVec.extractLsb'_append_eq_of_le (by omega), BitVec.extractLsb'_append_eq_of_le (by omega), BitVec.extractLsb'_append_eq_of_le (by omega), BitVec.extractLsb'_append_eq_of_le (by omega), BitVec.extractLsb'_append_eq_of_add_le (by omega)]
  simp

@[simp] theorem fmtOf_packInterval : fmtOf (packInterval funct5 fmt rs2 rs1 rm rd) = fmt.bits := by
  simp only [fmtOf, packInterval]
  rw [BitVec.extractLsb'_append_eq_of_le (by omega), BitVec.extractLsb'_append_eq_of_le (by omega), BitVec.extractLsb'_append_eq_of_le (by omega), BitVec.extractLsb'_append_eq_of_le (by omega), BitVec.extractLsb'_append_eq_of_le (by omega), BitVec.extractLsb'_append_eq_of_add_le (by omega)]
  simp

@[simp] theorem funct5Of_packInterval : funct5Of (packInterval funct5 fmt rs2 rs1 rm rd) = funct5 := by
  simp only [funct5Of, packInterval]
  rw [BitVec.extractLsb'_append_eq_of_le (by omega), BitVec.extractLsb'_append_eq_of_le (by omega), BitVec.extractLsb'_append_eq_of_le (by omega), BitVec.extractLsb'_append_eq_of_le (by omega), BitVec.extractLsb'_append_eq_of_le (by omega), BitVec.extractLsb'_append_eq_of_le (by omega)]
  simp

end

/-! ## The fields of the CSR format (R221) -/

section
variable (csr : CsrNumber) (rs1 rd : Reg) (funct3 : BitVec 3)

@[simp] theorem opcodeOf_packCsr : opcodeOf (packCsr csr rs1 funct3 rd) = systemOpcode := by
  simp only [opcodeOf, packCsr]
  rw [BitVec.extractLsb'_append_eq_of_add_le (by omega)]
  simp

@[simp] theorem rdOf_packCsr : rdOf (packCsr csr rs1 funct3 rd) = rd := by
  simp only [rdOf, packCsr]
  rw [BitVec.extractLsb'_append_eq_of_le (by omega), BitVec.extractLsb'_append_eq_of_add_le (by omega)]
  simp

@[simp] theorem funct3Of_packCsr : funct3Of (packCsr csr rs1 funct3 rd) = funct3 := by
  simp only [funct3Of, packCsr]
  rw [BitVec.extractLsb'_append_eq_of_le (by omega), BitVec.extractLsb'_append_eq_of_le (by omega), BitVec.extractLsb'_append_eq_of_add_le (by omega)]
  simp

@[simp] theorem rs1Of_packCsr : rs1Of (packCsr csr rs1 funct3 rd) = rs1 := by
  simp only [rs1Of, packCsr]
  rw [BitVec.extractLsb'_append_eq_of_le (by omega), BitVec.extractLsb'_append_eq_of_le (by omega), BitVec.extractLsb'_append_eq_of_le (by omega), BitVec.extractLsb'_append_eq_of_add_le (by omega)]
  simp

@[simp] theorem csrOf_packCsr : csrOf (packCsr csr rs1 funct3 rd) = csr := by
  simp only [csrOf, packCsr]
  rw [BitVec.extractLsb'_append_eq_of_le (by omega), BitVec.extractLsb'_append_eq_of_le (by omega), BitVec.extractLsb'_append_eq_of_le (by omega), BitVec.extractLsb'_append_eq_of_le (by omega)]
  simp

end

/-- A word under the extension's opcode is packed from its own fields. -/
theorem packInterval_fields (w : InstrWord) (fmt : Fmt) (hop : opcodeOf w = intervalOpcode) (hfmt : fmt.bits = fmtOf w) :
    packInterval (funct5Of w) fmt (rs2Of w) (rs1Of w) (funct3Of w) (rdOf w) = w := by
  simp only [packInterval, hfmt, ← hop]
  apply BitVec.eq_of_getLsbD_eq
  intro i hi
  simp only [funct5Of, fmtOf, rs2Of, rs1Of, funct3Of, rdOf, opcodeOf, BitVec.getLsbD_append,
    BitVec.getLsbD_extractLsb']
  repeat' split
  all_goals (rw [decide_eq_true (by omega), Bool.true_and]; congr 1; omega)

/-- A word under the opcode `SYSTEM` is packed from its own fields. -/
theorem packCsr_fields (w : InstrWord) (hop : opcodeOf w = systemOpcode) :
    packCsr (csrOf w) (rs1Of w) (funct3Of w) (rdOf w) = w := by
  simp only [packCsr, ← hop]
  apply BitVec.eq_of_getLsbD_eq
  intro i hi
  simp only [csrOf, rs1Of, funct3Of, rdOf, opcodeOf, BitVec.getLsbD_append, BitVec.getLsbD_extractLsb']
  repeat' split
  all_goals (rw [decide_eq_true (by omega), Bool.true_and]; congr 1; omega)

/-- The bytes of a word, put together again, are the word (R62). -/
theorem wordOfBytes_bytesOfWord (w : InstrWord) :
    wordOfBytes (w.extractLsb' 0 8) (w.extractLsb' 8 8) (w.extractLsb' 16 8) (w.extractLsb' 24 8) = w := by
  apply BitVec.eq_of_getLsbD_eq
  intro i hi
  simp only [wordOfBytes, BitVec.getLsbD_append, BitVec.getLsbD_extractLsb']
  repeat' split
  all_goals (rw [decide_eq_true (by omega), Bool.true_and]; congr 1; omega)

/-- Decoding the bytes of a word is decoding the word. -/
@[simp] theorem decodeBytes_bytesOfWord (w : InstrWord) : decodeBytes (bytesOfWord w) = decode w := by
  simp only [bytesOfWord, decodeBytes, wordOfBytes_bytesOfWord]

end Sys2Proof
end

