-- ==== Sys2Proof/Laws/Float.lean ====
section
/-!
SUPPORT. The primitives of the numerics: powers of two, the exponent of a magnitude, rounding to an integer (R115), the
fields of a packed datum (R110), and the order of the extended reals (R120).
-/

namespace Sys2Proof.Machine

/-! ## Powers of two -/

theorem pow2_eq_zpow (e : Int) : pow2 e = (2 : Rat) ^ e := by
  cases e with
  | ofNat n => simp [pow2]
  | negSucc n => simp [pow2, Rat.mkRat_eq_div, zpow_negSucc]

theorem pow2_pos (e : Int) : 0 < pow2 e := by
  rw [pow2_eq_zpow]; positivity

theorem pow2_ne_zero (e : Int) : pow2 e ≠ 0 := (pow2_pos e).ne'

theorem pow2_add (a b : Int) : pow2 (a + b) = pow2 a * pow2 b := by
  simp only [pow2_eq_zpow]; exact zpow_add₀ (by norm_num) a b

theorem pow2_succ (a : Int) : pow2 (a + 1) = 2 * pow2 a := by
  rw [pow2_add, mul_comm]; rfl

theorem pow2_natCast (n : Nat) : pow2 (n : Int) = ((2 ^ n : Nat) : Rat) := rfl

theorem pow2_le_iff {a b : Int} : pow2 a ≤ pow2 b ↔ a ≤ b := by
  simp only [pow2_eq_zpow]; exact zpow_le_zpow_iff_right₀ (by norm_num)

theorem pow2_lt_iff {a b : Int} : pow2 a < pow2 b ↔ a < b := by
  simp only [pow2_eq_zpow]; exact zpow_lt_zpow_iff_right₀ (by norm_num)

/-! ## The exponent of a magnitude -/

/-- `floorLog2` gives the integer that R115 step 1 asks for. -/
theorem floorLog2_spec {a : Rat} (ha : 0 < a) : pow2 (floorLog2 a) ≤ a ∧ a < pow2 (floorLog2 a + 1) := by
  have hn : 0 < a.num := Rat.num_pos.2 ha
  have hn' : a.num.toNat ≠ 0 := by omega
  have hd : a.den ≠ 0 := a.den_nz
  have hnz : ((a.num.toNat : Nat) : Rat) = (a.num : Rat) := by
    have : ((a.num.toNat : Nat) : Int) = a.num := Int.toNat_of_nonneg hn.le
    exact_mod_cast this
  have hval : a * (a.den : Rat) = ((a.num.toNat : Nat) : Rat) := by rw [hnz]; exact Rat.mul_den_eq_num a
  have n1 : pow2 (a.num.toNat.log2 : Int) ≤ ((a.num.toNat : Nat) : Rat) := by
    rw [pow2_natCast]; exact_mod_cast Nat.log2_self_le hn'
  have n2 : ((a.num.toNat : Nat) : Rat) < pow2 ((a.num.toNat.log2 : Int) + 1) := by
    have := Nat.lt_log2_self (n := a.num.toNat)
    rw [show ((a.num.toNat.log2 : Int) + 1) = ((a.num.toNat.log2 + 1 : Nat) : Int) by push_cast; rfl, pow2_natCast]
    exact_mod_cast this
  have d1 : pow2 (a.den.log2 : Int) ≤ ((a.den : Nat) : Rat) := by
    rw [pow2_natCast]; exact_mod_cast Nat.log2_self_le hd
  have d2 : ((a.den : Nat) : Rat) < pow2 ((a.den.log2 : Int) + 1) := by
    have := Nat.lt_log2_self (n := a.den)
    rw [show ((a.den.log2 : Int) + 1) = ((a.den.log2 + 1 : Nat) : Int) by push_cast; rfl, pow2_natCast]
    exact_mod_cast this
  have hi : a < pow2 ((a.num.toNat.log2 : Int) - (a.den.log2 : Int) + 1) := by
    have hm : pow2 ((a.num.toNat.log2 : Int) - (a.den.log2 : Int) + 1) * pow2 (a.den.log2 : Int)
        = pow2 ((a.num.toNat.log2 : Int) + 1) := by rw [← pow2_add]; congr 1; ring
    by_contra hc
    have := mul_le_mul (not_lt.1 hc) d1 (pow2_pos _).le ha.le
    linarith
  have lo : pow2 ((a.num.toNat.log2 : Int) - (a.den.log2 : Int) - 1) ≤ a := by
    have hm : pow2 ((a.num.toNat.log2 : Int) - (a.den.log2 : Int) - 1) * pow2 ((a.den.log2 : Int) + 1)
        = pow2 (a.num.toNat.log2 : Int) := by rw [← pow2_add]; congr 1; ring
    by_contra hc
    have := mul_lt_mul'' (not_le.1 hc) d2 ha.le (by positivity)
    linarith
  simp only [floorLog2]
  split
  · rename_i h; exact ⟨h, hi⟩
  · rename_i h
    refine ⟨lo, ?_⟩
    rw [sub_add_cancel]; exact not_le.1 h

/-! ## Rounding to an integer -/

/-- `RInt` gives the floor or the integer above it (R115). -/
theorem roundToInt_mem (mode : Mode) (negative : Bool) (n : Rat) :
    roundToInt mode negative n = ⌊n⌋ ∨ roundToInt mode negative n = ⌊n⌋ + 1 := by
  have hf : n.floor = ⌊n⌋ := rfl
  simp only [roundToInt, hf]
  split
  · exact .inl rfl
  · cases mode <;> simp only
    all_goals first
      | exact .inl trivial
      | (split <;> first | exact .inl rfl | exact .inr rfl)

/-- An integer is not changed (R115: `frac = 0`). -/
theorem roundToInt_intCast (mode : Mode) (negative : Bool) (k : Int) : roundToInt mode negative (k : Rat) = k := by
  have hf : (k : Rat).floor = k := Rat.floor_intCast k
  simp [roundToInt, hf]

/-- Towards zero on the magnitude: the modes `RTZ`, `RDN` of a positive and `RUP` of a negative number. -/
theorem roundToInt_down_le (mode : Mode) (negative : Bool) (n : Rat)
    (h : mode = .rtz ∨ (mode = .rdn ∧ negative = false) ∨ (mode = .rup ∧ negative = true)) :
    (roundToInt mode negative n : Rat) ≤ n := by
  have hf : n.floor = ⌊n⌋ := rfl
  have hk : roundToInt mode negative n = ⌊n⌋ := by
    simp only [roundToInt, hf]
    rcases h with rfl | ⟨rfl, rfl⟩ | ⟨rfl, rfl⟩ <;> split <;> rfl
  rw [hk]; exact Int.floor_le n

/-- Away from zero on the magnitude: the modes `RDN` of a negative and `RUP` of a positive number. -/
theorem le_roundToInt_up (mode : Mode) (negative : Bool) (n : Rat)
    (h : (mode = .rdn ∧ negative = true) ∨ (mode = .rup ∧ negative = false)) :
    n ≤ (roundToInt mode negative n : Rat) := by
  have hf : n.floor = ⌊n⌋ := rfl
  simp only [roundToInt, hf]
  split
  · rename_i h0; linarith
  · rcases h with ⟨rfl, rfl⟩ | ⟨rfl, rfl⟩
    · push_cast; exact (Int.lt_floor_add_one n).le
    · push_cast; exact (Int.lt_floor_add_one n).le

/-- Rounding to an integer is monotone against an integer bound. -/
theorem roundToInt_le_of_le_intCast (mode : Mode) (negative : Bool) {n : Rat} {k : Int} (h : n ≤ (k : Rat)) :
    roundToInt mode negative n ≤ k := by
  rcases eq_or_lt_of_le h with rfl | hlt
  · exact (roundToInt_intCast mode negative k).le
  · have hf : ⌊n⌋ < k := Int.floor_lt.2 hlt
    rcases roundToInt_mem mode negative n with e | e <;> omega

/-- Rounding to an integer is monotone against an integer bound. -/
theorem le_roundToInt_of_intCast_le (mode : Mode) (negative : Bool) {n : Rat} {k : Int} (h : (k : Rat) ≤ n) :
    k ≤ roundToInt mode negative n := by
  have hf : k ≤ ⌊n⌋ := Int.le_floor.2 h
  rcases roundToInt_mem mode negative n with e | e <;> omega

/-! ## The fields of a packed datum -/

/-- The width of a datum is its sign bit, its exponent and its fraction (R110). -/
theorem width_eq (fmt : Fmt) : fmt.w = 1 + (expWidth fmt + fracWidth fmt) := by cases fmt <;> rfl

theorem packDatum_toNat (fmt : Fmt) (sign : Bool) {e t : Nat} (he : e < 2 ^ expWidth fmt) (ht : t < 2 ^ fracWidth fmt) :
    (packDatum fmt sign e t).toNat = sign.toNat * 2 ^ (expWidth fmt + fracWidth fmt) + e * 2 ^ fracWidth fmt + t := by
  rw [packDatum, BitVec.toNat_ofNat]
  apply Nat.mod_eq_of_lt
  rw [width_eq]
  cases fmt <;> cases sign <;> simp only [expWidth, fracWidth, Bool.toNat_false, Bool.toNat_true] at * <;> omega

theorem expOf_packDatum (fmt : Fmt) (sign : Bool) {e t : Nat} (he : e < 2 ^ expWidth fmt) (ht : t < 2 ^ fracWidth fmt) :
    expOf (packDatum fmt sign e t) = e := by
  rw [expOf, packDatum_toNat fmt sign he ht]
  cases fmt <;> cases sign <;> simp only [expWidth, fracWidth, Bool.toNat_false, Bool.toNat_true] at * <;> omega

theorem fracOf_packDatum (fmt : Fmt) (sign : Bool) {e t : Nat} (he : e < 2 ^ expWidth fmt) (ht : t < 2 ^ fracWidth fmt) :
    fracOf (packDatum fmt sign e t) = t := by
  rw [fracOf, packDatum_toNat fmt sign he ht]
  cases fmt <;> cases sign <;> simp only [expWidth, fracWidth, Bool.toNat_false, Bool.toNat_true] at * <;> omega

/-- The sign bit as a comparison. -/
theorem signOf_eq_decide {fmt : Fmt} (v : Datum fmt) :
    signOf v = decide (2 ^ (expWidth fmt + fracWidth fmt) ≤ v.toNat) := by
  have h : fmt.w - 1 = expWidth fmt + fracWidth fmt := by rw [width_eq, Nat.add_sub_cancel_left]
  rw [signOf, BitVec.msb_eq_decide, h]

theorem signOf_packDatum (fmt : Fmt) (sign : Bool) {e t : Nat} (he : e < 2 ^ expWidth fmt) (ht : t < 2 ^ fracWidth fmt) :
    signOf (packDatum fmt sign e t) = sign := by
  rw [signOf_eq_decide, packDatum_toNat fmt sign he ht]
  cases sign
  · apply decide_eq_false
    cases fmt <;> simp only [expWidth, fracWidth, Bool.toNat_false] at * <;> omega
  · apply decide_eq_true
    cases fmt <;> simp only [expWidth, fracWidth, Bool.toNat_true] at * <;> omega

/-- The fields put together again are the datum. -/
theorem packDatum_fields {fmt : Fmt} (v : Datum fmt) : packDatum fmt (signOf v) (expOf v) (fracOf v) = v := by
  apply BitVec.eq_of_toNat_eq
  have he : expOf v < 2 ^ expWidth fmt := Nat.mod_lt _ (by positivity)
  have ht : fracOf v < 2 ^ fracWidth fmt := Nat.mod_lt _ (by positivity)
  rw [packDatum_toNat fmt _ he ht]
  have hv : v.toNat < 2 ^ (1 + (expWidth fmt + fracWidth fmt)) := by rw [← width_eq]; exact v.isLt
  rw [signOf_eq_decide, expOf, fracOf]
  by_cases hs : 2 ^ (expWidth fmt + fracWidth fmt) ≤ v.toNat
  · rw [decide_eq_true hs]
    cases fmt <;> simp only [expWidth, fracWidth, Bool.toNat_true] at * <;> omega
  · rw [decide_eq_false hs]
    cases fmt <;> simp only [expWidth, fracWidth, Bool.toNat_false] at * <;> omega

end Sys2Proof.Machine
end

