-- ==== Sys2Proof/Laws/State.lean ====
section
/-!
SUPPORT. One lemma per field per update of the state, so that no later proof unfolds a record update.
-/

namespace Sys2Proof.Machine

/-! ## `accrueFlags` -/

@[simp] theorem accrueFlags_cfg (s : State) (fl : FlagSet) : (accrueFlags s fl).cfg = s.cfg := rfl
@[simp] theorem accrueFlags_x (s : State) (fl : FlagSet) : (accrueFlags s fl).x = s.x := rfl
@[simp] theorem accrueFlags_f (s : State) (fl : FlagSet) : (accrueFlags s fl).f = s.f := rfl
@[simp] theorem accrueFlags_pc (s : State) (fl : FlagSet) : (accrueFlags s fl).pc = s.pc := rfl
@[simp] theorem accrueFlags_fflags (s : State) (fl : FlagSet) : (accrueFlags s fl).fflags = s.fflags ||| fl := rfl
@[simp] theorem accrueFlags_frm (s : State) (fl : FlagSet) : (accrueFlags s fl).frm = s.frm := rfl
@[simp] theorem accrueFlags_mem (s : State) (fl : FlagSet) : (accrueFlags s fl).mem = s.mem := rfl

/-! ## `advancePc` -/

@[simp] theorem advancePc_cfg (s : State) : (advancePc s).cfg = s.cfg := rfl
@[simp] theorem advancePc_x (s : State) : (advancePc s).x = s.x := rfl
@[simp] theorem advancePc_f (s : State) : (advancePc s).f = s.f := rfl
@[simp] theorem advancePc_pc (s : State) : (advancePc s).pc = truncTo s.cfg.xlen (s.pc + 4#64) := rfl
@[simp] theorem advancePc_fflags (s : State) : (advancePc s).fflags = s.fflags := rfl
@[simp] theorem advancePc_frm (s : State) : (advancePc s).frm = s.frm := rfl
@[simp] theorem advancePc_mem (s : State) : (advancePc s).mem = s.mem := rfl

/-! ## `writeX` -/

@[simp] theorem writeX_cfg (s : State) (r : Reg) (v : Word) : (writeX s r v).cfg = s.cfg := by
  unfold writeX; split <;> rfl
@[simp] theorem writeX_f (s : State) (r : Reg) (v : Word) : (writeX s r v).f = s.f := by
  unfold writeX; split <;> rfl
@[simp] theorem writeX_pc (s : State) (r : Reg) (v : Word) : (writeX s r v).pc = s.pc := by
  unfold writeX; split <;> rfl
@[simp] theorem writeX_fflags (s : State) (r : Reg) (v : Word) : (writeX s r v).fflags = s.fflags := by
  unfold writeX; split <;> rfl
@[simp] theorem writeX_frm (s : State) (r : Reg) (v : Word) : (writeX s r v).frm = s.frm := by
  unfold writeX; split <;> rfl
@[simp] theorem writeX_mem (s : State) (r : Reg) (v : Word) : (writeX s r v).mem = s.mem := by
  unfold writeX; split <;> rfl

/-! ## `writeF` -/

@[simp] theorem writeF_cfg (s : State) (r : Reg) (v : Word) : (writeF s r v).cfg = s.cfg := by
  unfold writeF; split <;> rfl
@[simp] theorem writeF_x (s : State) (r : Reg) (v : Word) : (writeF s r v).x = s.x := by
  unfold writeF; split <;> rfl
@[simp] theorem writeF_pc (s : State) (r : Reg) (v : Word) : (writeF s r v).pc = s.pc := by
  unfold writeF; split <;> rfl
@[simp] theorem writeF_fflags (s : State) (r : Reg) (v : Word) : (writeF s r v).fflags = s.fflags := by
  unfold writeF; split <;> rfl
@[simp] theorem writeF_frm (s : State) (r : Reg) (v : Word) : (writeF s r v).frm = s.frm := by
  unfold writeF; split <;> rfl
@[simp] theorem writeF_mem (s : State) (r : Reg) (v : Word) : (writeF s r v).mem = s.mem := by
  unfold writeF; split <;> rfl

/-! ## `csrWrite` -/

@[simp] theorem csrWrite_cfg (s : State) (c : Csr) (v : Word) : (csrWrite s c v).cfg = s.cfg := by cases c <;> rfl
@[simp] theorem csrWrite_x (s : State) (c : Csr) (v : Word) : (csrWrite s c v).x = s.x := by cases c <;> rfl
@[simp] theorem csrWrite_f (s : State) (c : Csr) (v : Word) : (csrWrite s c v).f = s.f := by cases c <;> rfl
@[simp] theorem csrWrite_pc (s : State) (c : Csr) (v : Word) : (csrWrite s c v).pc = s.pc := by cases c <;> rfl
@[simp] theorem csrWrite_mem (s : State) (c : Csr) (v : Word) : (csrWrite s c v).mem = s.mem := by cases c <;> rfl
@[simp] theorem csrWrite_fflags_fflags (s : State) (v : Word) :
    (csrWrite s .fflags v).fflags = v.extractLsb' 0 5 := rfl
@[simp] theorem csrWrite_fflags_frm (s : State) (v : Word) : (csrWrite s .fflags v).frm = s.frm := rfl
@[simp] theorem csrWrite_frm_fflags (s : State) (v : Word) : (csrWrite s .frm v).fflags = s.fflags := rfl
@[simp] theorem csrWrite_frm_frm (s : State) (v : Word) : (csrWrite s .frm v).frm = v.extractLsb' 0 3 := rfl
@[simp] theorem csrWrite_fcsr_fflags (s : State) (v : Word) :
    (csrWrite s .fcsr v).fflags = v.extractLsb' 0 5 := rfl
@[simp] theorem csrWrite_fcsr_frm (s : State) (v : Word) : (csrWrite s .fcsr v).frm = v.extractLsb' 5 3 := rfl

/-! ## The destination forms: everything but the register files is unchanged -/

@[simp] theorem writeBool_cfg (s : State) (r : Reg) (b : Bool) : (writeBool s r b).cfg = s.cfg := writeX_cfg ..
@[simp] theorem writeBool_f (s : State) (r : Reg) (b : Bool) : (writeBool s r b).f = s.f := writeX_f ..
@[simp] theorem writeBool_pc (s : State) (r : Reg) (b : Bool) : (writeBool s r b).pc = s.pc := writeX_pc ..
@[simp] theorem writeBool_fflags (s : State) (r : Reg) (b : Bool) : (writeBool s r b).fflags = s.fflags :=
  writeX_fflags ..
@[simp] theorem writeBool_frm (s : State) (r : Reg) (b : Bool) : (writeBool s r b).frm = s.frm := writeX_frm ..
@[simp] theorem writeBool_mem (s : State) (r : Reg) (b : Bool) : (writeBool s r b).mem = s.mem := writeX_mem ..

@[simp] theorem writeScalar_cfg (s : State) (fmt : Fmt) (r : Reg) (v : Datum fmt) :
    (writeScalar s fmt r v).cfg = s.cfg := by unfold writeScalar; split <;> simp
@[simp] theorem writeScalar_pc (s : State) (fmt : Fmt) (r : Reg) (v : Datum fmt) :
    (writeScalar s fmt r v).pc = s.pc := by unfold writeScalar; split <;> simp
@[simp] theorem writeScalar_fflags (s : State) (fmt : Fmt) (r : Reg) (v : Datum fmt) :
    (writeScalar s fmt r v).fflags = s.fflags := by unfold writeScalar; split <;> simp
@[simp] theorem writeScalar_frm (s : State) (fmt : Fmt) (r : Reg) (v : Datum fmt) :
    (writeScalar s fmt r v).frm = s.frm := by unfold writeScalar; split <;> simp
@[simp] theorem writeScalar_mem (s : State) (fmt : Fmt) (r : Reg) (v : Datum fmt) :
    (writeScalar s fmt r v).mem = s.mem := by unfold writeScalar; split <;> simp

@[simp] theorem writeInterval_cfg (s : State) (fmt : Fmt) (r : Reg) (I : Interval fmt) :
    (writeInterval s fmt r I).cfg = s.cfg := by unfold writeInterval; repeat' (first | split | simp)
@[simp] theorem writeInterval_pc (s : State) (fmt : Fmt) (r : Reg) (I : Interval fmt) :
    (writeInterval s fmt r I).pc = s.pc := by unfold writeInterval; repeat' (first | split | simp)
@[simp] theorem writeInterval_fflags (s : State) (fmt : Fmt) (r : Reg) (I : Interval fmt) :
    (writeInterval s fmt r I).fflags = s.fflags := by unfold writeInterval; repeat' (first | split | simp)
@[simp] theorem writeInterval_frm (s : State) (fmt : Fmt) (r : Reg) (I : Interval fmt) :
    (writeInterval s fmt r I).frm = s.frm := by unfold writeInterval; repeat' (first | split | simp)
@[simp] theorem writeInterval_mem (s : State) (fmt : Fmt) (r : Reg) (I : Interval fmt) :
    (writeInterval s fmt r I).mem = s.mem := by unfold writeInterval; repeat' (first | split | simp)

end Sys2Proof.Machine
end

