-- ==== Sys2Proof/Laws/Registers.lean ====
section
/-!
SUPPORT. Reading a register after a write, for both files, and the widths that writes keep.
-/

namespace Sys2Proof.Machine

/-- Different register numbers are different slots. -/
theorem reg_toNat_ne {a b : Reg} (h : a ≠ b) : a.toNat ≠ b.toNat := fun e => h (BitVec.eq_of_toNat_eq e)

@[simp] theorem truncTo_w64 (v : Word) : truncTo .w64 v = v := rfl

theorem truncTo_w32_toNat (v : Word) : (truncTo .w32 v).toNat = v.toNat % 2 ^ 32 := by
  simp only [truncTo, BitVec.toNat_setWidth]
  omega

/-- A truncated word fits the width. -/
theorem truncTo_toNat_lt (w : Width) (v : Word) : (truncTo w v).toNat < 2 ^ w.bits := by
  cases w
  · rw [truncTo_w32_toNat]; exact Nat.mod_lt _ (by decide)
  · exact v.isLt

/-- A word that fits is unchanged by the truncation. -/
theorem truncTo_of_lt (w : Width) (v : Word) (h : v.toNat < 2 ^ w.bits) : truncTo w v = v := by
  cases w
  · exact BitVec.eq_of_toNat_eq (by rw [truncTo_w32_toNat]; exact Nat.mod_eq_of_lt h)
  · rfl

@[simp] theorem readX_zero (s : State) : readX s 0#5 = 0#64 := rfl

theorem readX_of_ne {s : State} {r : Reg} (h : r ≠ 0#5) : readX s r = s.x[r.toNat] := by simp [readX, h]

/-- `x[r]` after `x[rd] <- v` (R20): the written value in the destination, unless that is `x0`. -/
theorem readX_writeX (s : State) (rd r : Reg) (v : Word) :
    readX (writeX s rd v) r = if r = rd ∧ rd ≠ 0#5 then truncTo s.cfg.xlen v else readX s r := by
  by_cases h0 : rd = 0#5
  · simp [writeX, h0]
  · by_cases hr : r = rd
    · subst hr; simp [writeX, readX, h0]
    · have hne := reg_toNat_ne (Ne.symm hr)
      by_cases hz : r = 0#5
      · simp [hz, Ne.symm h0]
      · simp [writeX, readX, h0, hr, hz, Vector.getElem_set_ne, hne]

@[simp] theorem readX_writeF (s : State) (rd r : Reg) (v : Word) : readX (writeF s rd v) r = readX s r := by
  simp [readX]

@[simp] theorem readF_writeX (s : State) (rd r : Reg) (v : Word) : readF (writeX s rd v) r = readF s r := by
  simp [readF]

/-- `f[r]` after `f[rd] <- v` under `REGFILE = F` (R23). -/
theorem readF_writeF {s : State} {flen : Width} (hf : s.cfg.regfile = .f flen) (rd r : Reg) (v : Word) :
    readF (writeF s rd v) r = if r = rd then truncTo flen v else readF s r := by
  by_cases hr : r = rd
  · subst hr; simp [writeF, readF, hf]
  · have hne := reg_toNat_ne (Ne.symm hr)
    simp [writeF, readF, hf, hr, Vector.getElem_set_ne, hne]

/-- Under `REGFILE = X` nothing is written to the `f` file (R24). -/
theorem writeF_of_x {s : State} (hx : s.cfg.regfile = .x) (rd : Reg) (v : Word) : writeF s rd v = s := by
  simp [writeF, hx]

@[simp] theorem readX_accrueFlags (s : State) (fl : FlagSet) (r : Reg) : readX (accrueFlags s fl) r = readX s r := rfl
@[simp] theorem readX_advancePc (s : State) (r : Reg) : readX (advancePc s) r = readX s r := rfl
@[simp] theorem readF_accrueFlags (s : State) (fl : FlagSet) (r : Reg) : readF (accrueFlags s fl) r = readF s r := rfl
@[simp] theorem readF_advancePc (s : State) (r : Reg) : readF (advancePc s) r = readF s r := rfl
@[simp] theorem readX_csrWrite (s : State) (c : Csr) (v : Word) (r : Reg) : readX (csrWrite s c v) r = readX s r := by
  cases c <;> rfl
@[simp] theorem readF_csrWrite (s : State) (c : Csr) (v : Word) (r : Reg) : readF (csrWrite s c v) r = readF s r := by
  cases c <;> rfl

/-- Storing a word that fits keeps a file's width. -/
theorem fileFits_set {w : Width} {file : Vector Word 32} (h : fileFits w file = true) (i : Nat) (hi : i < 32)
    (v : Word) (hv : v.toNat < 2 ^ w.bits) : fileFits w (file.set i v) = true := by
  simp only [fileFits, List.all_eq_true, decide_eq_true_eq] at h ⊢
  intro a ha
  rw [Vector.toList_set] at ha
  rcases List.mem_or_eq_of_mem_set ha with hm | rfl
  · exact h a hm
  · exact hv

end Sys2Proof.Machine
end

