-- ==== Sys2Proof/Laws/Operands.lean ====
section
/-!
SUPPORT. The operand forms: the layout round trip (R28), the narrow values (R29), what each destination form leaves in
the two register files.
-/

namespace Sys2Proof.Machine

@[simp] theorem intervalOfBits_bits {fmt : Fmt} (I : Interval fmt) : intervalOfBits fmt (Interval.bits I) = I := by
  obtain ⟨lo, hi⟩ := I
  simp only [intervalOfBits, Interval.bits]
  rw [BitVec.extractLsb'_append_eq_right, BitVec.extractLsb'_append_eq_left]

theorem bits_intervalOfBits (fmt : Fmt) (b : BitVec (fmt.w + fmt.w)) : Interval.bits (intervalOfBits fmt b) = b := by
  apply BitVec.eq_of_getLsbD_eq
  intro i hi
  simp only [Interval.bits, intervalOfBits, BitVec.getLsbD_append, BitVec.getLsbD_extractLsb']
  split
  · rw [decide_eq_true (by omega), Bool.true_and, Nat.zero_add]
  · rw [decide_eq_true (by omega), Bool.true_and]; congr 1; omega

/-- NaN-boxing puts ones above the value and keeps the value below (R29). -/
theorem getLsbD_nanBox {n : Nat} (v : BitVec n) (i : Nat) (hi : i < 64) :
    (nanBox v).getLsbD i = if i < n then v.getLsbD i else true := by
  simp only [nanBox, BitVec.getLsbD_or, BitVec.getLsbD_setWidth, BitVec.getLsbD_shiftLeft,
    BitVec.getLsbD_allOnes]
  by_cases h : i < n <;> simp [hi, h]
  right; omega

/-- A register pair is used exactly on RV32 with the `X` group and single precision (R33). -/
theorem pairing_eq_true (c : Config) (fmt : Fmt) :
    pairing c fmt = true ↔ c.regfile = .x ∧ c.xlen = .w32 ∧ fmt = .s := by
  simp [pairing, and_assoc]

@[simp] theorem pairing_h (c : Config) : pairing c .h = false := by
  simp [pairing]

@[simp] theorem pairing_of_f {c : Config} {flen : Width} (h : c.regfile = .f flen) (fmt : Fmt) :
    pairing c fmt = false := by
  simp [pairing, h]

/-- `WriteInterval` under `REGFILE = F` (R31). -/
theorem writeInterval_of_f {s : State} {flen : Width} (h : s.cfg.regfile = .f flen) (fmt : Fmt) (r : Reg)
    (I : Interval fmt) : writeInterval s fmt r I = writeF s r (nanBox (Interval.bits I)) := by
  simp [writeInterval, h]

/-- `WriteInterval` of an interval that fills or fits one `x` register (R31). -/
theorem writeInterval_of_single {s : State} {fmt : Fmt} (h : s.cfg.regfile = .x) (hp : pairing s.cfg fmt = false)
    (r : Reg) (I : Interval fmt) :
    writeInterval s fmt r I = writeX s r ((Interval.bits I).signExtend 64) := by
  simp [writeInterval, h, hp]

/-- `WriteInterval` of a register pair (R31, R33): nothing for `x0`, otherwise lower bound, then upper bound. -/
theorem writeInterval_of_pair {s : State} {fmt : Fmt} (hp : pairing s.cfg fmt = true) (r : Reg) (I : Interval fmt) :
    writeInterval s fmt r I =
      if r = 0#5 then s else writeX (writeX s r (I.lo.setWidth 64)) (r + 1#5) (I.hi.setWidth 64) := by
  have hx := ((pairing_eq_true _ _).1 hp).1
  simp [writeInterval, hx, hp]

/-- An interval written under `REGFILE = X` leaves the `f` file alone. -/
theorem writeInterval_f_of_x {s : State} (h : s.cfg.regfile = .x) (fmt : Fmt) (r : Reg) (I : Interval fmt) :
    (writeInterval s fmt r I).f = s.f := by
  simp only [writeInterval, h]
  repeat' (first | split | simp)

/-- An interval written under `REGFILE = F` leaves the `x` file alone. -/
theorem writeInterval_x_of_f {s : State} {flen : Width} (h : s.cfg.regfile = .f flen) (fmt : Fmt) (r : Reg)
    (I : Interval fmt) : (writeInterval s fmt r I).x = s.x := by
  simp [writeInterval, h]

/-- `EffRm` under a static mode does not read `frm` (R38, R114). -/
theorem effRm_of_ne_dyn {rm : Rm} (h : rm ≠ .dyn) (frm : BitVec 3) : effRm rm frm = modeOf rm := by
  cases rm <;> simp_all [effRm]

@[simp] theorem effRm_dyn (frm : BitVec 3) : effRm .dyn frm = modeOf (rmOfBits frm) := rfl

end Sys2Proof.Machine
end

