-- ==== Sys2Proof/Laws/Meaning.lean ====
section
/-!
SUPPORT. What each shared operation of a family can do, said once: where it gives a next state and which, and that
nothing but `IllegalInstruction` (or, for a CSR instruction, the refusal of an undescribed CSR) stops it.
-/

namespace Sys2Proof.Machine

/-- Where an arithmetic instruction gives a next state, and which (R150). -/
theorem arithmetic_eq_next {word : InstrWord} {fmt : Fmt} {op : Mode → Interval fmt → Interval fmt → Interval fmt × FlagSet}
    {rd rs1 rs2 : Reg} {rm : Rm} {s t : State} :
    arithmetic word fmt op rd rs1 rs2 rm s = .next t ↔
      formatImplemented s.cfg fmt = true ∧ pairRegsOk s.cfg fmt [rs1, rs2, rd] = true ∧
      ∃ mode, effRm rm s.frm = some mode ∧
        t = advancePc (accrueFlags
          (writeInterval s fmt rd (op mode (readInterval s fmt rs1) (readInterval s fmt rs2)).1)
          (op mode (readInterval s fmt rs1) (readInterval s fmt rs2)).2) := by
  unfold arithmetic
  split
  · rename_i h
    rw [Bool.and_eq_true] at h
    cases hm : effRm rm s.frm with
    | none => simp [raiseIllegal]
    | some mode =>
      simp only [Host.Outcome.next.injEq, h.1, h.2, true_and, Option.some.injEq]
      constructor
      · rintro rfl; exact ⟨mode, rfl, rfl⟩
      · rintro ⟨m, rfl, rfl⟩; rfl
  · rename_i h
    simp only [Bool.and_eq_true, not_and] at h
    simp only [raiseIllegal, reduceCtorEq, false_iff]
    rintro ⟨h1, h2, -⟩
    exact h h1 h2

/-- An arithmetic instruction that gives no next state raises `IllegalInstruction` (R150, R92). -/
theorem arithmetic_cases (word : InstrWord) (fmt : Fmt) (op : Mode → Interval fmt → Interval fmt → Interval fmt × FlagSet)
    (rd rs1 rs2 : Reg) (rm : Rm) (s : State) :
    (∃ t, arithmetic word fmt op rd rs1 rs2 rm s = .next t) ∨
      arithmetic word fmt op rd rs1 rs2 rm s = .fault (.illegalInstruction s.pc word) := by
  unfold arithmetic
  split
  · split
    · exact .inr rfl
    · exact .inl ⟨_, rfl⟩
  · exact .inr rfl

/-- Where a statistical instruction gives a next state, and which (R170). -/
theorem statistical_eq_next {word : InstrWord} {fmt : Fmt} {fn : Mode → Interval fmt → Datum fmt × FlagSet}
    {rd rs1 : Reg} {rm : Rm} {s t : State} :
    statistical word fmt fn rd rs1 rm s = .next t ↔
      formatImplemented s.cfg fmt = true ∧ pairRegsOk s.cfg fmt [rs1] = true ∧
      ∃ mode, effRm rm s.frm = some mode ∧
        t = advancePc (accrueFlags (writeScalar s fmt rd (fn mode (readInterval s fmt rs1)).1)
          (fn mode (readInterval s fmt rs1)).2) := by
  unfold statistical
  split
  · rename_i h
    rw [Bool.and_eq_true] at h
    cases hm : effRm rm s.frm with
    | none => simp [raiseIllegal]
    | some mode =>
      simp only [Host.Outcome.next.injEq, h.1, h.2, true_and, Option.some.injEq]
      constructor
      · rintro rfl; exact ⟨mode, rfl, rfl⟩
      · rintro ⟨m, rfl, rfl⟩; rfl
  · rename_i h
    simp only [Bool.and_eq_true, not_and] at h
    simp only [raiseIllegal, reduceCtorEq, false_iff]
    rintro ⟨h1, h2, -⟩
    exact h h1 h2

/-- A statistical instruction that gives no next state raises `IllegalInstruction` (R170, R92). -/
theorem statistical_cases (word : InstrWord) (fmt : Fmt) (fn : Mode → Interval fmt → Datum fmt × FlagSet)
    (rd rs1 : Reg) (rm : Rm) (s : State) :
    (∃ t, statistical word fmt fn rd rs1 rm s = .next t) ∨
      statistical word fmt fn rd rs1 rm s = .fault (.illegalInstruction s.pc word) := by
  unfold statistical
  split
  · split
    · exact .inr rfl
    · exact .inl ⟨_, rfl⟩
  · exact .inr rfl

/-- Where a temporal instruction gives a next state, and which (R190). -/
theorem temporal_eq_next {word : InstrWord} {fmt : Fmt} {rel : Interval fmt → Interval fmt → Bool × FlagSet}
    {rd rs1 rs2 : Reg} {s t : State} :
    temporal word fmt rel rd rs1 rs2 s = .next t ↔
      formatImplemented s.cfg fmt = true ∧ pairRegsOk s.cfg fmt [rs1, rs2] = true ∧
        t = advancePc (accrueFlags (writeBool s rd (rel (readInterval s fmt rs1) (readInterval s fmt rs2)).1)
          (rel (readInterval s fmt rs1) (readInterval s fmt rs2)).2) := by
  unfold temporal
  split
  · rename_i h
    rw [Bool.and_eq_true] at h
    simp only [Host.Outcome.next.injEq, h.1, h.2, true_and]
    exact eq_comm
  · rename_i h
    simp only [Bool.and_eq_true, not_and] at h
    simp only [raiseIllegal, reduceCtorEq, false_iff]
    rintro ⟨h1, h2, -⟩
    exact h h1 h2

/-- A temporal instruction that gives no next state raises `IllegalInstruction` (R190, R92). -/
theorem temporal_cases (word : InstrWord) (fmt : Fmt) (rel : Interval fmt → Interval fmt → Bool × FlagSet)
    (rd rs1 rs2 : Reg) (s : State) :
    (∃ t, temporal word fmt rel rd rs1 rs2 s = .next t) ∨
      temporal word fmt rel rd rs1 rs2 s = .fault (.illegalInstruction s.pc word) := by
  unfold temporal
  split
  · exact .inl ⟨_, rfl⟩
  · exact .inr rfl

/-- Where a CSR instruction gives a next state, and which (R222). -/
theorem csrAccess_eq_next {word : InstrWord} {csr : CsrNumber} {rd : Reg} {write : Bool} {newValue : Word → Word}
    {s t : State} :
    csrAccess word csr rd write newValue s = .next t ↔
      ∃ c, csrOfNumber csr = some c ∧
        t = advancePc (writeX (if write then csrWrite s c (newValue (csrRead s c)) else s) rd (csrRead s c)) := by
  unfold csrAccess
  cases hc : csrOfNumber csr with
  | none => simp
  | some c =>
    simp only [Host.Outcome.next.injEq, Option.some.injEq]
    constructor
    · rintro rfl; exact ⟨c, rfl, rfl⟩
    · rintro ⟨d, rfl, rfl⟩; rfl

/-- A CSR instruction on another CSR number is refused (R220 case (c)). -/
theorem csrAccess_of_none {word : InstrWord} {csr : CsrNumber} {rd : Reg} {write : Bool} {newValue : Word → Word}
    {s : State} (h : csrOfNumber csr = none) :
    csrAccess word csr rd write newValue s = .refused (.undescribedHostInstruction s.pc word) := by
  simp [csrAccess, h]

/-- The three CSR numbers (R35). -/
theorem csrOfNumber_eq_some (n : CsrNumber) (c : Csr) :
    csrOfNumber n = some c ↔
      (n = 0x001#12 ∧ c = .fflags) ∨ (n = 0x002#12 ∧ c = .frm) ∨ (n = 0x003#12 ∧ c = .fcsr) := by
  unfold csrOfNumber
  by_cases h1 : n = 0x001#12
  · subst h1; simp [eq_comm]
  · by_cases h2 : n = 0x002#12
    · subst h2; simp [eq_comm]
    · by_cases h3 : n = 0x003#12
      · subst h3; simp [eq_comm]
      · simp [h1, h2, h3]

/-- A next state of the step is a next state of the fetched instruction, in a legal configuration. -/
theorem step_eq_next {s t : State} :
    step s = .next t ↔ s.cfg.legal = true ∧ ∃ i, fetchInstr s = .next i ∧ exec i s = .next t := by
  unfold step
  split
  · rename_i hl
    cases hf : fetchInstr s <;> simp [hl]
  · rename_i hl
    simp [hl]

/-- Where the fetch gives an instruction (R63): `pc` is a multiple of 4 and four bytes there decode to it. -/
theorem fetchInstr_eq_next {s : State} {i : Instr} :
    fetchInstr s = .next i ↔
      s.pc.toNat % 4 = 0 ∧ ∃ b0 b1 b2 b3, memRead s.mem s.pc.toNat 4 = some [b0, b1, b2, b3] ∧
        decode (wordOfBytes b0 b1 b2 b3) = .ok i := by
  unfold fetchInstr
  by_cases hp : s.pc.toNat % 4 = 0
  · simp only [hp, ne_eq, not_true_eq_false, if_false, true_and]
    split
    · rename_i b0 b1 b2 b3 hm
      simp only [decodeBytes]
      constructor
      · intro h
        refine ⟨b0, b1, b2, b3, hm, ?_⟩
        revert h
        split <;> simp_all
      · rintro ⟨c0, c1, c2, c3, hc, hd⟩
        rw [hm] at hc
        simp only [Option.some.injEq, List.cons.injEq, and_true] at hc
        obtain ⟨rfl, rfl, rfl, rfl⟩ := hc
        simp [hd]
    · rename_i hne
      simp only [reduceCtorEq, false_iff]
      rintro ⟨c0, c1, c2, c3, hc, -⟩
      exact hne c0 c1 c2 c3 hc
  · simp [hp]

/-! ## Each instruction as its family's shared operation -/

theorem exec_intaddH (rd rs1 rs2 : Reg) (rm : Rm) (s : State) : exec (.intaddH rd rs1 rs2 rm) s =
    arithmetic (encode (.intaddH rd rs1 rs2 rm)) .h ((numOf s.cfg.num).intervalAdd .h) rd rs1 rs2 rm s := rfl

theorem exec_intsubH (rd rs1 rs2 : Reg) (rm : Rm) (s : State) : exec (.intsubH rd rs1 rs2 rm) s =
    arithmetic (encode (.intsubH rd rs1 rs2 rm)) .h ((numOf s.cfg.num).intervalSub .h) rd rs1 rs2 rm s := rfl

theorem exec_intmulH (rd rs1 rs2 : Reg) (rm : Rm) (s : State) : exec (.intmulH rd rs1 rs2 rm) s =
    arithmetic (encode (.intmulH rd rs1 rs2 rm)) .h ((numOf s.cfg.num).intervalMul .h) rd rs1 rs2 rm s := rfl

theorem exec_intdivH (rd rs1 rs2 : Reg) (rm : Rm) (s : State) : exec (.intdivH rd rs1 rs2 rm) s =
    arithmetic (encode (.intdivH rd rs1 rs2 rm)) .h (divideDispatch (numOf s.cfg.num) .h) rd rs1 rs2 rm s := rfl

theorem exec_intmidH (rd rs1 : Reg) (rm : Rm) (s : State) : exec (.intmidH rd rs1 rm) s =
    statistical (encode (.intmidH rd rs1 rm)) .h ((numOf s.cfg.num).mid .h) rd rs1 rm s := rfl

theorem exec_intwdtH (rd rs1 : Reg) (rm : Rm) (s : State) : exec (.intwdtH rd rs1 rm) s =
    statistical (encode (.intwdtH rd rs1 rm)) .h ((numOf s.cfg.num).wdt .h) rd rs1 rm s := rfl

theorem exec_intradH (rd rs1 : Reg) (rm : Rm) (s : State) : exec (.intradH rd rs1 rm) s =
    statistical (encode (.intradH rd rs1 rm)) .h ((numOf s.cfg.num).rad .h) rd rs1 rm s := rfl

theorem exec_intminH (rd rs1 : Reg) (rm : Rm) (s : State) : exec (.intminH rd rs1 rm) s =
    statistical (encode (.intminH rd rs1 rm)) .h (lowerCopy .h) rd rs1 rm s := rfl

theorem exec_intmaxH (rd rs1 : Reg) (rm : Rm) (s : State) : exec (.intmaxH rd rs1 rm) s =
    statistical (encode (.intmaxH rd rs1 rm)) .h (upperCopy .h) rd rs1 rm s := rfl

theorem exec_intbfrH (rd rs1 rs2 : Reg) (s : State) : exec (.intbfrH rd rs1 rs2) s =
    temporal (encode (.intbfrH rd rs1 rs2)) .h ((numOf s.cfg.num).before .h) rd rs1 rs2 s := rfl

theorem exec_intmtsH (rd rs1 rs2 : Reg) (s : State) : exec (.intmtsH rd rs1 rs2) s =
    temporal (encode (.intmtsH rd rs1 rs2)) .h ((numOf s.cfg.num).meets .h) rd rs1 rs2 s := rfl

theorem exec_intovrH (rd rs1 rs2 : Reg) (s : State) : exec (.intovrH rd rs1 rs2) s =
    temporal (encode (.intovrH rd rs1 rs2)) .h ((numOf s.cfg.num).overlaps .h) rd rs1 rs2 s := rfl

theorem exec_intdurH (rd rs1 rs2 : Reg) (s : State) : exec (.intdurH rd rs1 rs2) s =
    temporal (encode (.intdurH rd rs1 rs2)) .h ((numOf s.cfg.num).during .h) rd rs1 rs2 s := rfl

theorem exec_intstrH (rd rs1 rs2 : Reg) (s : State) : exec (.intstrH rd rs1 rs2) s =
    temporal (encode (.intstrH rd rs1 rs2)) .h ((numOf s.cfg.num).starts .h) rd rs1 rs2 s := rfl

theorem exec_intfinH (rd rs1 rs2 : Reg) (s : State) : exec (.intfinH rd rs1 rs2) s =
    temporal (encode (.intfinH rd rs1 rs2)) .h ((numOf s.cfg.num).finishes .h) rd rs1 rs2 s := rfl

theorem exec_inteqlH (rd rs1 rs2 : Reg) (s : State) : exec (.inteqlH rd rs1 rs2) s =
    temporal (encode (.inteqlH rd rs1 rs2)) .h ((numOf s.cfg.num).equal .h) rd rs1 rs2 s := rfl

theorem exec_intaddS (rd rs1 rs2 : Reg) (rm : Rm) (s : State) : exec (.intaddS rd rs1 rs2 rm) s =
    arithmetic (encode (.intaddS rd rs1 rs2 rm)) .s ((numOf s.cfg.num).intervalAdd .s) rd rs1 rs2 rm s := rfl

theorem exec_intsubS (rd rs1 rs2 : Reg) (rm : Rm) (s : State) : exec (.intsubS rd rs1 rs2 rm) s =
    arithmetic (encode (.intsubS rd rs1 rs2 rm)) .s ((numOf s.cfg.num).intervalSub .s) rd rs1 rs2 rm s := rfl

theorem exec_intmulS (rd rs1 rs2 : Reg) (rm : Rm) (s : State) : exec (.intmulS rd rs1 rs2 rm) s =
    arithmetic (encode (.intmulS rd rs1 rs2 rm)) .s ((numOf s.cfg.num).intervalMul .s) rd rs1 rs2 rm s := rfl

theorem exec_intdivS (rd rs1 rs2 : Reg) (rm : Rm) (s : State) : exec (.intdivS rd rs1 rs2 rm) s =
    arithmetic (encode (.intdivS rd rs1 rs2 rm)) .s (divideDispatch (numOf s.cfg.num) .s) rd rs1 rs2 rm s := rfl

theorem exec_intmidS (rd rs1 : Reg) (rm : Rm) (s : State) : exec (.intmidS rd rs1 rm) s =
    statistical (encode (.intmidS rd rs1 rm)) .s ((numOf s.cfg.num).mid .s) rd rs1 rm s := rfl

theorem exec_intwdtS (rd rs1 : Reg) (rm : Rm) (s : State) : exec (.intwdtS rd rs1 rm) s =
    statistical (encode (.intwdtS rd rs1 rm)) .s ((numOf s.cfg.num).wdt .s) rd rs1 rm s := rfl

theorem exec_intradS (rd rs1 : Reg) (rm : Rm) (s : State) : exec (.intradS rd rs1 rm) s =
    statistical (encode (.intradS rd rs1 rm)) .s ((numOf s.cfg.num).rad .s) rd rs1 rm s := rfl

theorem exec_intminS (rd rs1 : Reg) (rm : Rm) (s : State) : exec (.intminS rd rs1 rm) s =
    statistical (encode (.intminS rd rs1 rm)) .s (lowerCopy .s) rd rs1 rm s := rfl

theorem exec_intmaxS (rd rs1 : Reg) (rm : Rm) (s : State) : exec (.intmaxS rd rs1 rm) s =
    statistical (encode (.intmaxS rd rs1 rm)) .s (upperCopy .s) rd rs1 rm s := rfl

theorem exec_intbfrS (rd rs1 rs2 : Reg) (s : State) : exec (.intbfrS rd rs1 rs2) s =
    temporal (encode (.intbfrS rd rs1 rs2)) .s ((numOf s.cfg.num).before .s) rd rs1 rs2 s := rfl

theorem exec_intmtsS (rd rs1 rs2 : Reg) (s : State) : exec (.intmtsS rd rs1 rs2) s =
    temporal (encode (.intmtsS rd rs1 rs2)) .s ((numOf s.cfg.num).meets .s) rd rs1 rs2 s := rfl

theorem exec_intovrS (rd rs1 rs2 : Reg) (s : State) : exec (.intovrS rd rs1 rs2) s =
    temporal (encode (.intovrS rd rs1 rs2)) .s ((numOf s.cfg.num).overlaps .s) rd rs1 rs2 s := rfl

theorem exec_intdurS (rd rs1 rs2 : Reg) (s : State) : exec (.intdurS rd rs1 rs2) s =
    temporal (encode (.intdurS rd rs1 rs2)) .s ((numOf s.cfg.num).during .s) rd rs1 rs2 s := rfl

theorem exec_intstrS (rd rs1 rs2 : Reg) (s : State) : exec (.intstrS rd rs1 rs2) s =
    temporal (encode (.intstrS rd rs1 rs2)) .s ((numOf s.cfg.num).starts .s) rd rs1 rs2 s := rfl

theorem exec_intfinS (rd rs1 rs2 : Reg) (s : State) : exec (.intfinS rd rs1 rs2) s =
    temporal (encode (.intfinS rd rs1 rs2)) .s ((numOf s.cfg.num).finishes .s) rd rs1 rs2 s := rfl

theorem exec_inteqlS (rd rs1 rs2 : Reg) (s : State) : exec (.inteqlS rd rs1 rs2) s =
    temporal (encode (.inteqlS rd rs1 rs2)) .s ((numOf s.cfg.num).equal .s) rd rs1 rs2 s := rfl

theorem exec_csrrw (rd : Reg) (csr : CsrNumber) (rs1 : Reg) (s : State) : exec (.csrrw rd csr rs1) s =
    csrAccess (encode (.csrrw rd csr rs1)) csr rd true (fun _ => readX s rs1) s := rfl

theorem exec_csrrs (rd : Reg) (csr : CsrNumber) (rs1 : Reg) (s : State) : exec (.csrrs rd csr rs1) s =
    csrAccess (encode (.csrrs rd csr rs1)) csr rd (rs1 != 0#5) (fun t => t ||| readX s rs1) s := rfl

theorem exec_csrrc (rd : Reg) (csr : CsrNumber) (rs1 : Reg) (s : State) : exec (.csrrc rd csr rs1) s =
    csrAccess (encode (.csrrc rd csr rs1)) csr rd (rs1 != 0#5) (fun t => t &&& ~~~(readX s rs1)) s := rfl

theorem exec_csrrwi (rd : Reg) (csr : CsrNumber) (uimm : BitVec 5) (s : State) : exec (.csrrwi rd csr uimm) s =
    csrAccess (encode (.csrrwi rd csr uimm)) csr rd true (fun _ => uimm.setWidth 64) s := rfl

theorem exec_csrrsi (rd : Reg) (csr : CsrNumber) (uimm : BitVec 5) (s : State) : exec (.csrrsi rd csr uimm) s =
    csrAccess (encode (.csrrsi rd csr uimm)) csr rd (uimm != 0#5) (fun t => t ||| uimm.setWidth 64) s := rfl

theorem exec_csrrci (rd : Reg) (csr : CsrNumber) (uimm : BitVec 5) (s : State) : exec (.csrrci rd csr uimm) s =
    csrAccess (encode (.csrrci rd csr uimm)) csr rd (uimm != 0#5) (fun t => t &&& ~~~(uimm.setWidth 64)) s := rfl

/-! ## The shape of every next state -/

/-- Every next state of an instruction is one of four: an interval, a scalar or a boolean result with flags accrued, or a
CSR access; `pc` moves on last. -/
theorem exec_next_shape {i : Instr} {s t : State} (h : exec i s = .next t) :
    (∃ fmt rd z fl, t = advancePc (accrueFlags (writeInterval s fmt rd z) fl)) ∨
    (∃ fmt rd z fl, t = advancePc (accrueFlags (writeScalar s fmt rd z) fl)) ∨
    (∃ rd b fl, t = advancePc (accrueFlags (writeBool s rd b) fl)) ∨
    (∃ (c : Csr) (rd : Reg) (v : Word) (w : Bool),
      t = advancePc (writeX (if w then csrWrite s c v else s) rd (csrRead s c))) := by
  cases i
  case intaddH | intsubH | intmulH | intdivH | intaddS | intsubS | intmulS | intdivS =>
    obtain ⟨-, -, m, -, rfl⟩ := arithmetic_eq_next.1 h
    exact .inl ⟨_, _, _, _, rfl⟩
  case intmidH | intwdtH | intradH | intminH | intmaxH | intmidS | intwdtS | intradS | intminS | intmaxS =>
    obtain ⟨-, -, m, -, rfl⟩ := statistical_eq_next.1 h
    exact .inr (.inl ⟨_, _, _, _, rfl⟩)
  case csrrw | csrrs | csrrc | csrrwi | csrrsi | csrrci =>
    simp only [exec_csrrw, exec_csrrs, exec_csrrc, exec_csrrwi, exec_csrrsi, exec_csrrci] at h
    obtain ⟨c, -, rfl⟩ := csrAccess_eq_next.1 h
    exact .inr (.inr (.inr ⟨c, _, _, _, rfl⟩))
  all_goals
    obtain ⟨-, -, rfl⟩ := temporal_eq_next.1 h
    exact .inr (.inr (.inl ⟨_, _, _, rfl⟩))

end Sys2Proof.Machine
end

