-- ==== Sys2Proof/Laws/Images.lean ====
section
/-!
SUPPORT. The register images of R29's table: what a register holds after a narrow value is written to it. The left sides
are what the destination forms store, the right sides what the statements say.
-/

namespace Sys2Proof.Machine

/-- The NaN-boxed word is the one with the value below and ones above. -/
theorem nanBox_eq_of_bits (n : Nat) (v : BitVec n) (w : Word) (h : ∀ i, i < 64 → w.getLsbD i = if i < n then v.getLsbD i else true) :
    nanBox v = w := by
  apply BitVec.eq_of_getLsbD_eq
  intro i hi
  rw [getLsbD_nanBox v i hi, h i hi]

theorem getLsbD_append_ite {n m : Nat} (hi : BitVec m) (lo : BitVec n) (i : Nat) : (hi ++ lo).getLsbD i = if i < n then lo.getLsbD i else hi.getLsbD (i - n) := by
  simp [BitVec.getLsbD_append]

theorem nanBox_32 (v : BitVec 32) : nanBox v = (BitVec.allOnes 32 ++ v : Word) := by
  apply nanBox_eq_of_bits; intro i hi
  rw [getLsbD_append_ite, BitVec.getLsbD_allOnes]
  split
  · rfl
  · exact decide_eq_true (by omega)
theorem nanBox_64 (v : BitVec 64) : nanBox v = v := by
  apply nanBox_eq_of_bits; intro i hi
  simp [hi]
theorem nanBox_16 (v : BitVec 16) : nanBox v = (BitVec.allOnes 48 ++ v : Word) := by
  apply nanBox_eq_of_bits; intro i hi
  rw [getLsbD_append_ite, BitVec.getLsbD_allOnes]
  split
  · rfl
  · exact decide_eq_true (by omega)

theorem truncTo_w32_append (a b : BitVec 32) : truncTo .w32 (a ++ b : Word) = (0#32 ++ b : Word) := by
  apply BitVec.eq_of_getLsbD_eq
  intro i hi
  simp only [truncTo, getLsbD_append_ite, BitVec.getLsbD_setWidth]
  by_cases h : i < 32 <;> simp [h, hi]
  
theorem truncTo_w32_signExtend_32 (v : BitVec 32) : truncTo .w32 (v.signExtend 64) = (0#32 ++ v : Word) := by
  apply BitVec.eq_of_getLsbD_eq
  intro i hi
  simp only [truncTo, getLsbD_append_ite, BitVec.getLsbD_setWidth, BitVec.getLsbD_signExtend]
  by_cases h : i < 32 <;> simp [h, hi]
  
theorem truncTo_w32_signExtend_16 (v : BitVec 16) : truncTo .w32 (v.signExtend 64) = (0#32 ++ v.signExtend 32 : Word) := by
  apply BitVec.eq_of_getLsbD_eq
  intro i hi
  simp only [truncTo, getLsbD_append_ite, BitVec.getLsbD_setWidth, BitVec.getLsbD_signExtend]
  by_cases h : i < 32 <;> simp [h, hi]
theorem truncTo_w32_setWidth_32 (v : BitVec 32) : truncTo .w32 (v.setWidth 64) = (0#32 ++ v : Word) := by
  apply BitVec.eq_of_getLsbD_eq
  intro i hi
  simp only [truncTo, getLsbD_append_ite, BitVec.getLsbD_setWidth]
  by_cases h : i < 32 <;> simp [h, hi]
theorem allOnes_48_append (v : BitVec 16) : (BitVec.allOnes 48 ++ v : Word) = BitVec.allOnes 32 ++ (BitVec.allOnes 16 ++ v : BitVec 32) := by
  apply BitVec.eq_of_getLsbD_eq
  intro i hi
  simp only [getLsbD_append_ite, BitVec.getLsbD_allOnes]
  by_cases h : i < 16 <;> by_cases h2 : i < 32 <;> simp only [h, h2, if_true, if_false] <;> first | omega | (rw [decide_eq_true, decide_eq_true] <;> omega)

/-- An interval written to an `f` register (R29); a single-precision one needs `FLEN = 64`. -/
theorem truncTo_nanBox_bits (fmt : Fmt) (flen : Width) (I : Interval fmt) (h : fmt = .s → flen = .w64) :
    truncTo flen (nanBox (Interval.bits I)) = fImageOfInterval fmt flen I := by
  cases fmt <;> cases flen
  · exact (congrArg (truncTo .w32) (nanBox_32 _)).trans (truncTo_w32_append ..)
  · exact nanBox_32 _
  · exact absurd (h rfl) (by decide)
  · exact nanBox_64 _

/-- A scalar written to an `f` register (R29); a single-precision one needs `FLEN = 64`. -/
theorem truncTo_nanBox_datum (fmt : Fmt) (flen : Width) (v : Datum fmt) (h : fmt = .s → flen = .w64) :
    truncTo flen (nanBox v) = fImageOfScalar fmt flen v := by
  cases fmt <;> cases flen
  · exact (congrArg (truncTo .w32) ((nanBox_16 _).trans (allOnes_48_append _))).trans (truncTo_w32_append ..)
  · exact nanBox_16 _
  · exact absurd (h rfl) (by decide)
  · exact nanBox_32 _

/-- An interval written to one `x` register (R29); a single-precision one needs `XLEN = 64`. -/
theorem truncTo_signExtend_bits (fmt : Fmt) (xlen : Width) (I : Interval fmt) (h : fmt = .s → xlen = .w64) :
    truncTo xlen ((Interval.bits I).signExtend 64) = xImageOfInterval fmt xlen I := by
  cases fmt <;> cases xlen
  · exact truncTo_w32_signExtend_32 _
  · rfl
  · exact absurd (h rfl) (by decide)
  · exact BitVec.signExtend_eq _

/-- A scalar written to an `x` register (R29). -/
theorem truncTo_signExtend_datum (fmt : Fmt) (xlen : Width) (v : Datum fmt) :
    truncTo xlen (v.signExtend 64) = xImageOfScalar fmt xlen v := by
  cases fmt <;> cases xlen
  · exact truncTo_w32_signExtend_16 _
  · rfl
  · exact truncTo_w32_signExtend_32 _
  · rfl

/-- `pc + 4` in the container is `pc + 4` modulo `2^XLEN` (R26). -/
theorem truncTo_add_four (w : Width) (pc : Word) : (truncTo w (pc + 4#64)).toNat = (pc.toNat + 4) % 2 ^ w.bits := by
  cases w
  · rw [truncTo_w32_toNat, BitVec.toNat_add]
    simp only [Width.bits, BitVec.toNat_ofNat]
    omega
  · simp [Width.bits, BitVec.toNat_add]

/-! ## The checks of R92 lines 2, 6 and 7, as conditions -/

theorem formatImplemented_h (c : Config) : formatImplemented c .h = true ↔ ¬ c.hasH = false := by simp [formatImplemented]

theorem formatImplemented_s (c : Config) : formatImplemented c .s = true ↔ ¬ c.hasS = false := by simp [formatImplemented]

theorem reg_odd_iff (r : Reg) : r.getLsbD 0 = true ↔ r.toNat % 2 = 1 := by revert r; decide

@[simp] theorem pairRegsOk_h (c : Config) (l : List Reg) : pairRegsOk c .h l = true := by simp [pairRegsOk]

theorem pairRegsOk_s (c : Config) (l : List Reg) :
    pairRegsOk c .s l = true ↔ ¬ (PairedRegisters c ∧ ∃ r ∈ l, r.toNat % 2 = 1) := by
  simp only [pairRegsOk, Bool.or_eq_true, Bool.not_eq_true', List.all_eq_true, PairedRegisters]
  rw [← Bool.not_eq_true, pairing_eq_true]
  constructor
  · rintro (h | h) ⟨⟨h1, h2⟩, r, hr, ho⟩
    · exact h ⟨h1, h2, rfl⟩
    · have := h r hr
      rw [← reg_odd_iff] at ho
      rw [this] at ho; cases ho
  · intro h
    by_cases hp : c.regfile = .x ∧ c.xlen = .w32
    · right; intro r hr
      by_contra hc
      exact h ⟨hp, r, hr, (reg_odd_iff r).1 (by simpa using hc)⟩
    · left; rintro ⟨a, b, -⟩; exact hp ⟨a, b⟩

/-- Where `EffRm` gives a mode (R114). -/
theorem effRm_isSome (rm : Rm) (frm : BitVec 3) :
    (effRm rm frm).isSome = true ↔ ¬ (rm = .reserved5 ∨ rm = .reserved6 ∨ (rm = .dyn ∧ 5 ≤ frm.toNat)) := by
  revert frm; cases rm <;> decide

end Sys2Proof.Machine
end

