-- ==== Sys2Proof/Laws/Memory.lean ====
section
/-!
SUPPORT. The memory operations: the canonical form is kept, a read after a write, and a write leaves every other
address alone.
-/

namespace Sys2Proof.Machine

/-- The canonical form of a list with a first entry: the entry's address is below the next, and the rest is
canonical. -/
theorem memory_wf_cons (a : Nat) (b : Byte) (m : Memory) :
    Memory.wf ((a, b) :: m) = true ↔ (∀ c ∈ m.head?, a < c.1) ∧ Memory.wf m = true := by
  cases m with
  | nil => simp [Memory.wf]
  | cons c rest => obtain ⟨a', b'⟩ := c; simp [Memory.wf]

/-- The first address after a write is the written one or the old first one. -/
theorem memory_write_head (m : Memory) (addr : Nat) (v : Byte) :
    ∀ c ∈ (Memory.write m addr v).head?, c.1 = addr ∨ ∃ d ∈ m.head?, c.1 = d.1 := by
  intro c hc
  cases m with
  | nil => left; simp [Memory.write] at hc; rw [← hc]
  | cons e rest =>
    obtain ⟨a, b⟩ := e
    simp only [Memory.write] at hc
    split at hc
    · left; simp at hc; rw [← hc]
    · split at hc
      · left; simp at hc; rw [← hc]
      · right; simp at hc; exact ⟨(a, b), by simp, by rw [← hc]⟩

/-- A write keeps the canonical form. -/
theorem memory_write_wf (m : Memory) (addr : Nat) (v : Byte) (h : Memory.wf m = true) :
    Memory.wf (Memory.write m addr v) = true := by
  induction m with
  | nil => rfl
  | cons e rest ih =>
    obtain ⟨a, b⟩ := e
    have hc := (memory_wf_cons a b rest).1 h
    simp only [Memory.write]
    split
    · rename_i hlt
      exact (memory_wf_cons addr v _).2 ⟨by simpa using hlt, h⟩
    · split
      · rename_i _ heq
        exact (memory_wf_cons addr v rest).2 ⟨heq ▸ hc.1, hc.2⟩
      · rename_i hlt hne
        refine (memory_wf_cons a b _).2 ⟨fun c hm => ?_, ih hc.2⟩
        rcases memory_write_head rest addr v c hm with he | ⟨d, hd, he⟩
        · omega
        · rw [he]; exact hc.1 d hd

/-- A sequence of writes keeps the canonical form. -/
theorem memWrite_wf (bs : List Byte) (m : Memory) (addr : Nat) (h : Memory.wf m = true) :
    Memory.wf (memWrite m addr bs) = true := by
  induction bs generalizing m addr with
  | nil => exact h
  | cons b bs ih => exact ih _ _ (memory_write_wf m addr b h)

/-- A read gives the byte just written there, and is unchanged elsewhere. No hypothesis on the form is needed. -/
theorem memory_read_write (m : Memory) (addr a : Nat) (v : Byte) :
    Memory.read (Memory.write m addr v) a = if a = addr then some v else Memory.read m a := by
  by_cases h : addr = a
  · subst h
    induction m with
    | nil => simp [Memory.write, Memory.read]
    | cons e rest ih =>
      obtain ⟨k, b⟩ := e
      simp only [Memory.write]
      split
      · simp [Memory.read]
      · split
        · simp [Memory.read]
        · rename_i _ hne
          simp [Memory.read, Ne.symm hne, ih]
  · rw [if_neg (Ne.symm h)]
    induction m with
    | nil => simp [Memory.write, Memory.read, h]
    | cons e rest ih =>
      obtain ⟨k, b⟩ := e
      simp only [Memory.write]
      split
      · simp [Memory.read, h]
      · split
        · rename_i _ heq
          subst heq
          simp [Memory.read, h]
        · simp only [Memory.read, ih]

/-- The addresses after a write are the old ones and the written one. -/
theorem memory_mem_write (m : Memory) (addr : Nat) (v : Byte) :
    ∀ c ∈ Memory.write m addr v, c ∈ m ∨ c = (addr, v) := by
  induction m with
  | nil => intro c hc; exact .inr (by simpa [Memory.write] using hc)
  | cons e rest ih =>
    obtain ⟨a, b⟩ := e
    intro c hc
    simp only [Memory.write] at hc
    split at hc
    · rcases List.mem_cons.1 hc with h | h
      · exact .inr h
      · exact .inl h
    · split at hc
      · rcases List.mem_cons.1 hc with h | h
        · exact .inr h
        · exact .inl (List.mem_cons_of_mem _ h)
      · rcases List.mem_cons.1 hc with h | h
        · exact .inl (by rw [h]; exact List.mem_cons_self ..)
        · rcases ih c h with h | h
          · exact .inl (List.mem_cons_of_mem _ h)
          · exact .inr h

/-- A read after a sequence of writes, below or above the written bytes. -/
theorem memory_read_memWrite_outside (bs : List Byte) (m : Memory) (addr a : Nat)
    (h : a < addr ∨ addr + bs.length ≤ a) : Memory.read (memWrite m addr bs) a = Memory.read m a := by
  induction bs generalizing m addr with
  | nil => rfl
  | cons b bs ih =>
    simp only [List.length_cons] at h
    simp only [memWrite]
    rw [ih _ _ (by omega), memory_read_write, if_neg (by omega)]

end Sys2Proof.Machine
end

