-- ==== Sys2Proof/Laws/Numerics.lean ====
section
/-!
SUPPORT. What `supported` keeps of a free numerics record (R155), said once: containment passes from the reference result to
what `withContainment` keeps, and `withFlag` leaves a flag.
-/

namespace Sys2Proof.Machine

theorem ER.AtMost.mono {a b : ER} {x : ℝ} (h : ER.le a b = true) (hb : b.AtMost x) : a.AtMost x := by
  cases a <;> cases b <;> simp_all [ER.le, ER.lt, ER.AtMost]
  exact le_trans (by exact_mod_cast h) hb

theorem ER.AtLeast.mono {a b : ER} {x : ℝ} (h : ER.le a b = true) (ha : a.AtLeast x) : b.AtLeast x := by
  cases a <;> cases b <;> simp_all [ER.le, ER.lt, ER.AtLeast]
  exact le_trans ha (by exact_mod_cast h)

theorem bounds_of_validBounds {fmt : Fmt} {I : Interval fmt} {p : ER × ER} (h : validBounds I = some p) :
    bounds I = some p := by
  unfold validBounds at h
  split at h
  · rename_i a b hb
    split at h
    · exact hb.trans h
    · cases h
  · cases h

/-- What `encloses` says: both intervals have bounds, the outer one is valid, and they nest. -/
theorem encloses_iff {fmt : Fmt} {Z W : Interval fmt} :
    encloses Z W = true ↔ ∃ a b c d, validBounds Z = some (a, b) ∧ bounds W = some (c, d) ∧
      ER.le a c = true ∧ ER.le d b = true := by
  unfold encloses
  rcases validBounds Z with _ | ⟨a, b⟩ <;> rcases bounds W with _ | ⟨c, d⟩ <;> simp

theorem valid_of_encloses {fmt : Fmt} {Z W : Interval fmt} (h : encloses Z W = true) : valid Z = true := by
  obtain ⟨a, b, c, d, hz, -⟩ := encloses_iff.1 h
  simp [valid, hz]

theorem Contains.of_encloses {fmt : Fmt} {Z W : Interval fmt} {x : ℝ} (hx : Contains W x) (h : encloses Z W = true) :
    Contains Z x := by
  obtain ⟨a, b, c, d, hz, hw, h1, h2⟩ := encloses_iff.1 h
  obtain ⟨c', d', hw', h3, h4⟩ := hx
  obtain ⟨rfl, rfl⟩ : c = c' ∧ d = d' := by simpa [hw] using hw'
  exact ⟨a, b, bounds_of_validBounds hz, h3.mono h1, h4.mono h2⟩

/-- On valid operands, what `withContainment` keeps contains what the reference result contains. -/
theorem withContainment_containsImage {fmt : Fmt} {X Y : Interval fmt} {ref free : Interval fmt × FlagSet}
    {op : ℝ → ℝ → ℝ} (hX : valid X = true) (hY : valid Y = true) (h : ContainsImage X Y ref.1 op) :
    ContainsImage X Y (withContainment X Y ref free).1 op := by
  unfold withContainment
  split
  · exact h
  · rename_i hk
    have he : encloses free.1 ref.1 = true := by simpa [hX, hY] using hk
    exact ⟨valid_of_encloses he, fun x y hx hy => (h.2 x y hx hy).of_encloses he⟩

/-- A free result that encloses the reference result, or that stands on an invalid operand, is kept as it is. -/
theorem withContainment_eq_free {fmt : Fmt} {X Y : Interval fmt} {ref free : Interval fmt × FlagSet}
    (h : valid X = true → valid Y = true → encloses free.1 ref.1 = true) : withContainment X Y ref free = free := by
  unfold withContainment
  cases hX : valid X <;> cases hY : valid Y <;> simp_all

theorem withFlag_ne_noFlags {fmt : Fmt} (z : Interval fmt × FlagSet) : (withFlag z).2 ≠ noFlags := by
  unfold withFlag
  split
  · exact (by decide : flagDZ ≠ noFlags)
  · assumption

theorem withFlag_eq_free {fmt : Fmt} {z : Interval fmt × FlagSet} (h : z.2 ≠ noFlags) : withFlag z = z := by
  simp [withFlag, h]

/-- Containment (P2) passes from the reference record to every supported one. -/
theorem NumContains.supported (h : NumContains referenceNum) (n : Sys2Proof.Num) : NumContains (supported n) := by
  intro fmt mode X Y hX hY
  obtain ⟨h1, h2, h3, h4⟩ := h fmt mode X Y hX hY
  refine ⟨withContainment_containsImage hX hY h1, withContainment_containsImage hX hY h2,
    withContainment_containsImage hX hY h3, fun hz => ?_⟩
  simpa [Machine.supported, referenceNum, hz] using
    withContainment_containsImage (free := n.intervalDiv fmt mode X Y) hX hY (h4 hz)

end Sys2Proof.Machine
end

