-- ==== Sys2Proof/Laws/PerInstr.lean ====
section
/-!
SUPPORT. The family of statements made per instruction: the word of an instruction meets the mask and match of its row
of the opcode map (R88, R221).
-/

namespace Sys2Proof.Laws.EncodesTableRow

/-- The instruction's word is one of its row's words. -/
def Statement (i : Instr) : Prop := encode i &&& rowMask i = rowMatch i

/-- Masking a word of the format IA-R field by field. -/
theorem and_interval_fields (a ma : BitVec 5) (b mb : BitVec 2) (c mc d md : BitVec 5) (e me : BitVec 3)
    (f mf : BitVec 5) (g mg : BitVec 7) :
    ((a ++ b ++ c ++ d ++ e ++ f ++ g : InstrWord) &&& (ma ++ mb ++ mc ++ md ++ me ++ mf ++ mg : InstrWord))
      = ((a &&& ma) ++ (b &&& mb) ++ (c &&& mc) ++ (d &&& md) ++ (e &&& me) ++ (f &&& mf) ++ (g &&& mg) : InstrWord) := by
  refine BitVec.and_append.trans ?_
  simp only [BitVec.and_append]

/-- Masking a word of the CSR format field by field. -/
theorem and_csr_fields (a ma : BitVec 12) (b mb : BitVec 5) (c mc : BitVec 3) (d md : BitVec 5) (e me : BitVec 7) :
    ((a ++ b ++ c ++ d ++ e : InstrWord) &&& (ma ++ mb ++ mc ++ md ++ me : InstrWord))
      = ((a &&& ma) ++ (b &&& mb) ++ (c &&& mc) ++ (d &&& md) ++ (e &&& me) : InstrWord) := by
  refine BitVec.and_append.trans ?_
  simp only [BitVec.and_append]

/-- The constant bits of an arithmetic word (R88). -/
theorem packInterval_and_arithmetic (funct5 : BitVec 5) (fmt : Fmt) (rs2 rs1 rd : Reg) (rm : BitVec 3) :
    packInterval funct5 fmt rs2 rs1 rm rd &&& 0xFE00007F#32 = funct5 ++ fmt.bits ++ 0#18 ++ intervalOpcode := by
  have hm : 0xFE00007F#32
      = BitVec.allOnes 5 ++ BitVec.allOnes 2 ++ 0#5 ++ 0#5 ++ 0#3 ++ 0#5 ++ BitVec.allOnes 7 := rfl
  have hz : (funct5 ++ fmt.bits ++ 0#18 ++ intervalOpcode : InstrWord)
      = funct5 ++ fmt.bits ++ 0#5 ++ 0#5 ++ 0#3 ++ 0#5 ++ intervalOpcode := by
    revert funct5; cases fmt <;> decide
  rw [hm, hz, packInterval, and_interval_fields]
  simp only [BitVec.and_allOnes, BitVec.and_zero]

/-- The constant bits of a statistical word (R88). -/
theorem packInterval_and_statistical (funct5 : BitVec 5) (fmt : Fmt) (rs1 rd : Reg) (rm : BitVec 3) :
    packInterval funct5 fmt 0b00000#5 rs1 rm rd &&& 0xFFF0007F#32
      = funct5 ++ fmt.bits ++ 0#18 ++ intervalOpcode := by
  have hm : 0xFFF0007F#32
      = BitVec.allOnes 5 ++ BitVec.allOnes 2 ++ BitVec.allOnes 5 ++ 0#5 ++ 0#3 ++ 0#5 ++ BitVec.allOnes 7 := rfl
  have hz : (funct5 ++ fmt.bits ++ 0#18 ++ intervalOpcode : InstrWord)
      = funct5 ++ fmt.bits ++ 0b00000#5 ++ 0#5 ++ 0#3 ++ 0#5 ++ intervalOpcode := by
    revert funct5; cases fmt <;> decide
  rw [hm, hz, packInterval, and_interval_fields]
  simp only [BitVec.and_allOnes, BitVec.and_zero]

/-- The constant bits of a temporal word (R88). -/
theorem packInterval_and_temporal (funct5 : BitVec 5) (fmt : Fmt) (rs2 rs1 rd : Reg) :
    packInterval funct5 fmt rs2 rs1 0b000#3 rd &&& 0xFE00707F#32
      = funct5 ++ fmt.bits ++ 0#18 ++ intervalOpcode := by
  have hm : 0xFE00707F#32
      = BitVec.allOnes 5 ++ BitVec.allOnes 2 ++ 0#5 ++ 0#5 ++ BitVec.allOnes 3 ++ 0#5 ++ BitVec.allOnes 7 := rfl
  have hz : (funct5 ++ fmt.bits ++ 0#18 ++ intervalOpcode : InstrWord)
      = funct5 ++ fmt.bits ++ 0#5 ++ 0#5 ++ 0b000#3 ++ 0#5 ++ intervalOpcode := by
    revert funct5; cases fmt <;> decide
  rw [hm, hz, packInterval, and_interval_fields]
  simp only [BitVec.and_allOnes, BitVec.and_zero]

/-- The constant bits of a CSR word (R221). -/
theorem packCsr_and (csr : CsrNumber) (rs1 rd : Reg) (funct3 : BitVec 3) :
    packCsr csr rs1 funct3 rd &&& 0x0000707F#32 = 0#17 ++ funct3 ++ 0#5 ++ systemOpcode := by
  have hm : 0x0000707F#32 = 0#12 ++ 0#5 ++ BitVec.allOnes 3 ++ 0#5 ++ BitVec.allOnes 7 := rfl
  have hz : (0#17 ++ funct3 ++ 0#5 ++ systemOpcode : InstrWord) = 0#12 ++ 0#5 ++ funct3 ++ 0#5 ++ systemOpcode := by
    revert funct3; decide
  rw [hm, hz, packCsr, and_csr_fields]
  simp only [BitVec.and_allOnes, BitVec.and_zero]

theorem intaddH (rd rs1 rs2 : Reg) (rm : Rm) : Statement (.intaddH rd rs1 rs2 rm) :=
  packInterval_and_arithmetic ..

theorem intsubH (rd rs1 rs2 : Reg) (rm : Rm) : Statement (.intsubH rd rs1 rs2 rm) :=
  packInterval_and_arithmetic ..

theorem intmulH (rd rs1 rs2 : Reg) (rm : Rm) : Statement (.intmulH rd rs1 rs2 rm) :=
  packInterval_and_arithmetic ..

theorem intdivH (rd rs1 rs2 : Reg) (rm : Rm) : Statement (.intdivH rd rs1 rs2 rm) :=
  packInterval_and_arithmetic ..

theorem intmidH (rd rs1 : Reg) (rm : Rm) : Statement (.intmidH rd rs1 rm) :=
  packInterval_and_statistical ..

theorem intwdtH (rd rs1 : Reg) (rm : Rm) : Statement (.intwdtH rd rs1 rm) :=
  packInterval_and_statistical ..

theorem intradH (rd rs1 : Reg) (rm : Rm) : Statement (.intradH rd rs1 rm) :=
  packInterval_and_statistical ..

theorem intminH (rd rs1 : Reg) (rm : Rm) : Statement (.intminH rd rs1 rm) :=
  packInterval_and_statistical ..

theorem intmaxH (rd rs1 : Reg) (rm : Rm) : Statement (.intmaxH rd rs1 rm) :=
  packInterval_and_statistical ..

theorem intbfrH (rd rs1 rs2 : Reg) : Statement (.intbfrH rd rs1 rs2) :=
  packInterval_and_temporal ..

theorem intmtsH (rd rs1 rs2 : Reg) : Statement (.intmtsH rd rs1 rs2) :=
  packInterval_and_temporal ..

theorem intovrH (rd rs1 rs2 : Reg) : Statement (.intovrH rd rs1 rs2) :=
  packInterval_and_temporal ..

theorem intdurH (rd rs1 rs2 : Reg) : Statement (.intdurH rd rs1 rs2) :=
  packInterval_and_temporal ..

theorem intstrH (rd rs1 rs2 : Reg) : Statement (.intstrH rd rs1 rs2) :=
  packInterval_and_temporal ..

theorem intfinH (rd rs1 rs2 : Reg) : Statement (.intfinH rd rs1 rs2) :=
  packInterval_and_temporal ..

theorem inteqlH (rd rs1 rs2 : Reg) : Statement (.inteqlH rd rs1 rs2) :=
  packInterval_and_temporal ..

theorem intaddS (rd rs1 rs2 : Reg) (rm : Rm) : Statement (.intaddS rd rs1 rs2 rm) :=
  packInterval_and_arithmetic ..

theorem intsubS (rd rs1 rs2 : Reg) (rm : Rm) : Statement (.intsubS rd rs1 rs2 rm) :=
  packInterval_and_arithmetic ..

theorem intmulS (rd rs1 rs2 : Reg) (rm : Rm) : Statement (.intmulS rd rs1 rs2 rm) :=
  packInterval_and_arithmetic ..

theorem intdivS (rd rs1 rs2 : Reg) (rm : Rm) : Statement (.intdivS rd rs1 rs2 rm) :=
  packInterval_and_arithmetic ..

theorem intmidS (rd rs1 : Reg) (rm : Rm) : Statement (.intmidS rd rs1 rm) :=
  packInterval_and_statistical ..

theorem intwdtS (rd rs1 : Reg) (rm : Rm) : Statement (.intwdtS rd rs1 rm) :=
  packInterval_and_statistical ..

theorem intradS (rd rs1 : Reg) (rm : Rm) : Statement (.intradS rd rs1 rm) :=
  packInterval_and_statistical ..

theorem intminS (rd rs1 : Reg) (rm : Rm) : Statement (.intminS rd rs1 rm) :=
  packInterval_and_statistical ..

theorem intmaxS (rd rs1 : Reg) (rm : Rm) : Statement (.intmaxS rd rs1 rm) :=
  packInterval_and_statistical ..

theorem intbfrS (rd rs1 rs2 : Reg) : Statement (.intbfrS rd rs1 rs2) :=
  packInterval_and_temporal ..

theorem intmtsS (rd rs1 rs2 : Reg) : Statement (.intmtsS rd rs1 rs2) :=
  packInterval_and_temporal ..

theorem intovrS (rd rs1 rs2 : Reg) : Statement (.intovrS rd rs1 rs2) :=
  packInterval_and_temporal ..

theorem intdurS (rd rs1 rs2 : Reg) : Statement (.intdurS rd rs1 rs2) :=
  packInterval_and_temporal ..

theorem intstrS (rd rs1 rs2 : Reg) : Statement (.intstrS rd rs1 rs2) :=
  packInterval_and_temporal ..

theorem intfinS (rd rs1 rs2 : Reg) : Statement (.intfinS rd rs1 rs2) :=
  packInterval_and_temporal ..

theorem inteqlS (rd rs1 rs2 : Reg) : Statement (.inteqlS rd rs1 rs2) :=
  packInterval_and_temporal ..

theorem csrrw (rd : Reg) (csr : CsrNumber) (rs1 : Reg) : Statement (.csrrw rd csr rs1) :=
  packCsr_and ..

theorem csrrs (rd : Reg) (csr : CsrNumber) (rs1 : Reg) : Statement (.csrrs rd csr rs1) :=
  packCsr_and ..

theorem csrrc (rd : Reg) (csr : CsrNumber) (rs1 : Reg) : Statement (.csrrc rd csr rs1) :=
  packCsr_and ..

theorem csrrwi (rd : Reg) (csr : CsrNumber) (uimm : BitVec 5) : Statement (.csrrwi rd csr uimm) :=
  packCsr_and ..

theorem csrrsi (rd : Reg) (csr : CsrNumber) (uimm : BitVec 5) : Statement (.csrrsi rd csr uimm) :=
  packCsr_and ..

theorem csrrci (rd : Reg) (csr : CsrNumber) (uimm : BitVec 5) : Statement (.csrrci rd csr uimm) :=
  packCsr_and ..

end Sys2Proof.Laws.EncodesTableRow
end

