-- ==== Sys2Proof/Laws/Rounding.lean ====
section
/-!
SUPPORT. Which magnitudes a format represents, the datum of such a magnitude, and rounding as rounding to a grid (R115):
what rounding to a representable neighbour is derived from.
-/

namespace Sys2Proof.Machine

/-- The magnitudes that a format represents (R110, R111): a multiple of the subnormal spacing below the normal range,
or a significand of `M + 1` bits at an exponent from `emin` to `emax`. -/
def Representable (fmt : Fmt) (d : Rat) : Prop :=
  (∃ n : Nat, n < 2 ^ fracWidth fmt ∧ d = (n : Rat) * pow2 (emin fmt - fracWidth fmt)) ∨
  (∃ (n : Nat) (k : Int), 2 ^ fracWidth fmt ≤ n ∧ n < 2 ^ (fracWidth fmt + 1) ∧ emin fmt ≤ k ∧ k ≤ emax fmt ∧
    d = (n : Rat) * pow2 (k - fracWidth fmt))

theorem natCast_mul_pow2_div (n : Nat) (e : Int) : (((n : Rat) * pow2 e) / pow2 e).num.toNat = n := by
  rw [mul_div_assoc, div_self (pow2_ne_zero e), mul_one]; simp

theorem pow2_fracWidth (fmt : Fmt) : pow2 (fracWidth fmt : Int) = ((2 ^ fracWidth fmt : Nat) : Rat) := rfl

theorem pow2_shift (fmt : Fmt) (k : Int) : pow2 k = ((2 ^ fracWidth fmt : Nat) : Rat) * pow2 (k - fracWidth fmt) := by
  rw [← pow2_fracWidth, ← pow2_add]; congr 1; ring

theorem floorLog2_unique {a : Rat} {k : Int} (h1 : pow2 k ≤ a) (h2 : a < pow2 (k + 1)) : floorLog2 a = k := by
  have ha : 0 < a := (pow2_pos k).trans_le h1
  obtain ⟨g1, g2⟩ := floorLog2_spec ha
  have := pow2_lt_iff.1 (g1.trans_lt h2)
  have := pow2_lt_iff.1 (h1.trans_lt g2)
  omega

/-- A multiple of the subnormal spacing is packed with exponent 0. -/
theorem datumOfMagnitude_subnormal (fmt : Fmt) (negative : Bool) {n : Nat} (hn : n < 2 ^ fracWidth fmt) :
    datumOfMagnitude fmt negative ((n : Rat) * pow2 (emin fmt - fracWidth fmt)) = packDatum fmt negative 0 n := by
  have hlt : (n : Rat) * pow2 (emin fmt - fracWidth fmt) < pow2 (emin fmt) := by
    rw [pow2_shift fmt (emin fmt)]
    exact mul_lt_mul_of_pos_right (by exact_mod_cast hn) (pow2_pos _)
  rw [datumOfMagnitude, if_pos hlt, natCast_mul_pow2_div]

/-- A significand at an exponent of the normal range is packed with that exponent. -/
theorem datumOfMagnitude_normal (fmt : Fmt) (negative : Bool) {n : Nat} {k : Int} (h1 : 2 ^ fracWidth fmt ≤ n)
    (h2 : n < 2 ^ (fracWidth fmt + 1)) (hk : emin fmt ≤ k) :
    datumOfMagnitude fmt negative ((n : Rat) * pow2 (k - fracWidth fmt))
      = packDatum fmt negative (k + bias fmt).toNat (n - 2 ^ fracWidth fmt) := by
  have g1 : pow2 k ≤ (n : Rat) * pow2 (k - fracWidth fmt) := by
    rw [pow2_shift fmt k]
    exact mul_le_mul_of_nonneg_right (by exact_mod_cast h1) (pow2_pos _).le
  have g2 : (n : Rat) * pow2 (k - fracWidth fmt) < pow2 (k + 1) := by
    rw [pow2_succ, pow2_shift fmt k, ← mul_assoc]
    refine mul_lt_mul_of_pos_right ?_ (pow2_pos _)
    rw [pow_succ] at h2
    exact_mod_cast (by omega : n < 2 * 2 ^ fracWidth fmt)
  have hnlt : ¬ (n : Rat) * pow2 (k - fracWidth fmt) < pow2 (emin fmt) :=
    not_lt.2 ((pow2_le_iff.2 hk).trans g1)
  rw [datumOfMagnitude, if_neg hnlt]
  simp only [floorLog2_unique g1 g2, natCast_mul_pow2_div]

theorem valueOf_packDatum_subnormal (fmt : Fmt) (negative : Bool) {n : Nat} (hn : n < 2 ^ fracWidth fmt) :
    valueOf (packDatum fmt negative 0 n)
      = .num negative (signFactor negative * (n : Rat) * pow2 (emin fmt - fracWidth fmt)) := by
  have he : (0 : Nat) < 2 ^ expWidth fmt := by positivity
  have hne : (0 : Nat) ≠ 2 ^ expWidth fmt - 1 := by cases fmt <;> decide
  rw [valueOf, expOf_packDatum fmt negative he hn, fracOf_packDatum fmt negative he hn,
    signOf_packDatum fmt negative he hn, if_neg hne, if_pos rfl]

theorem valueOf_packDatum_normal (fmt : Fmt) (negative : Bool) {e t : Nat} (h1 : 1 ≤ e)
    (h2 : e ≤ 2 ^ expWidth fmt - 2) (ht : t < 2 ^ fracWidth fmt) :
    valueOf (packDatum fmt negative e t)
      = .num negative (signFactor negative * ((2 ^ fracWidth fmt + t : Nat) : Rat)
          * pow2 ((e : Int) - bias fmt - fracWidth fmt)) := by
  have hp : 2 ≤ 2 ^ expWidth fmt := by cases fmt <;> decide
  have he : e < 2 ^ expWidth fmt := by omega
  rw [valueOf, expOf_packDatum fmt negative he ht, fracOf_packDatum fmt negative he ht,
    signOf_packDatum fmt negative he ht, if_neg (by omega), if_neg (by omega)]

theorem emax_bounds (fmt : Fmt) : emax fmt + bias fmt = ((2 ^ expWidth fmt - 2 : Nat) : Int) ∧ emin fmt + bias fmt = 1 := by
  cases fmt <;> decide

/-- The datum of a representable magnitude has that magnitude. -/
theorem valueOf_datumOfMagnitude {fmt : Fmt} {d : Rat} (negative : Bool) (h : Representable fmt d) :
    valueOf (datumOfMagnitude fmt negative d) = .num negative (signFactor negative * d) := by
  obtain ⟨e1, e2⟩ := emax_bounds fmt
  rcases h with ⟨n, hn, rfl⟩ | ⟨n, k, h1, h2, h3, h4, rfl⟩
  · rw [datumOfMagnitude_subnormal fmt negative hn, valueOf_packDatum_subnormal fmt negative hn, mul_assoc]
  · rw [datumOfMagnitude_normal fmt negative h1 h2 h3,
      valueOf_packDatum_normal fmt negative (by omega) (by omega) (by rw [pow_succ] at h2; omega)]
    rw [show 2 ^ fracWidth fmt + (n - 2 ^ fracWidth fmt) = n by omega, Int.toNat_of_nonneg (by omega),
      show k + bias fmt - bias fmt = k by ring, mul_assoc]

/-- Every number datum is the datum of a representable magnitude with its sign. -/
theorem exists_magnitude_of_num {fmt : Fmt} {v : Datum fmt} {s : Bool} {r : Rat} (h : valueOf v = .num s r) :
    ∃ d, Representable fmt d ∧ r = signFactor s * d ∧ v = datumOfMagnitude fmt s d := by
  obtain ⟨e1, e2⟩ := emax_bounds fmt
  have ht : fracOf v < 2 ^ fracWidth fmt := Nat.mod_lt _ (by positivity)
  have he : expOf v < 2 ^ expWidth fmt := Nat.mod_lt _ (by positivity)
  have hf := packDatum_fields v
  unfold valueOf at h
  split at h
  · split at h <;> simp at h
  · rename_i hmax
    split at h
    · rename_i h0
      injection h with hs hr
      subst hs
      refine ⟨(fracOf v : Rat) * pow2 (emin fmt - fracWidth fmt), .inl ⟨_, ht, rfl⟩, ?_, ?_⟩
      · rw [← hr, mul_assoc]
      · rw [datumOfMagnitude_subnormal fmt _ ht, ← h0, hf]
    · rename_i h0
      injection h with hs hr
      subst hs
      have hk1 : emin fmt ≤ (expOf v : Int) - bias fmt := by omega
      have hn1 : 2 ^ fracWidth fmt ≤ 2 ^ fracWidth fmt + fracOf v := by omega
      have hn2 : 2 ^ fracWidth fmt + fracOf v < 2 ^ (fracWidth fmt + 1) := by rw [pow_succ]; omega
      refine ⟨((2 ^ fracWidth fmt + fracOf v : Nat) : Rat) * pow2 ((expOf v : Int) - bias fmt - fracWidth fmt),
        .inr ⟨_, (expOf v : Int) - bias fmt, hn1, hn2, hk1, by omega, rfl⟩, ?_, ?_⟩
      · rw [← hr, mul_assoc]
      · rw [datumOfMagnitude_normal fmt _ hn1 hn2 hk1]
        rw [show 2 ^ fracWidth fmt + fracOf v - 2 ^ fracWidth fmt = fracOf v by omega,
          show ((expOf v : Int) - bias fmt + bias fmt).toNat = expOf v by omega, hf]


/-! ## Rounding on a grid -/

/-- A representable magnitude lies on every grid that is no coarser than its own spacing. -/
theorem Representable.on_grid {fmt : Fmt} {b : Rat} (h : Representable fmt b) {e : Int}
    (he : e ≤ emin fmt ∨ pow2 e ≤ b) : ∃ m : Nat, b = (m : Rat) * pow2 (e - fracWidth fmt) := by
  have step : ∀ (n : Nat) (k : Int), e ≤ k → ∃ m : Nat,
      (n : Rat) * pow2 (k - fracWidth fmt) = (m : Rat) * pow2 (e - fracWidth fmt) := by
    intro n k hk
    refine ⟨n * 2 ^ (k - e).toNat, ?_⟩
    rw [show k - (fracWidth fmt : Int) = ((k - e).toNat : Int) + (e - fracWidth fmt) by omega, pow2_add, pow2_natCast]
    push_cast; ring
  rcases h with ⟨n, hn, rfl⟩ | ⟨n, k, h1, h2, h3, h4, rfl⟩
  · refine step n (emin fmt) ?_
    rcases he with he | he
    · exact he
    · have hlt : (n : Rat) * pow2 (emin fmt - fracWidth fmt) < pow2 (emin fmt) := by
        rw [pow2_shift fmt (emin fmt)]
        exact mul_lt_mul_of_pos_right (by exact_mod_cast hn) (pow2_pos _)
      exact (pow2_lt_iff.1 (he.trans_lt hlt)).le
  · refine step n k ?_
    rcases he with he | he
    · omega
    · have g2 : (n : Rat) * pow2 (k - fracWidth fmt) < pow2 (k + 1) := by
        rw [pow2_succ, pow2_shift fmt k, ← mul_assoc]
        refine mul_lt_mul_of_pos_right ?_ (pow2_pos _)
        rw [pow_succ] at h2
        exact_mod_cast (by omega : n < 2 * 2 ^ fracWidth fmt)
      have := pow2_lt_iff.1 (he.trans_lt g2)
      omega

/-- A magnitude rounded to the grid of exponent `e`. -/
def onGrid (fmt : Fmt) (mode : Mode) (negative : Bool) (a : Rat) (e : Int) : Rat :=
  (roundToInt mode negative (a / pow2 (e - fracWidth fmt)) : Rat) * pow2 (e - fracWidth fmt)

theorem roundUnbounded_eq_onGrid (fmt : Fmt) (mode : Mode) (negative : Bool) (a : Rat) :
    roundUnbounded fmt mode negative a = onGrid fmt mode negative a (floorLog2 a) := rfl

theorem roundDelivered_eq_onGrid (fmt : Fmt) (mode : Mode) (negative : Bool) (a : Rat) :
    roundDelivered fmt mode negative a = onGrid fmt mode negative a (max (floorLog2 a) (emin fmt)) := by
  unfold roundDelivered
  split
  · rename_i h; rw [max_eq_right h.le]; rfl
  · rename_i h; rw [max_eq_left (not_lt.1 h)]; rfl

/-- Rounding does not pass a representable magnitude from below. -/
theorem onGrid_le_of_representable {fmt : Fmt} {a b : Rat} (mode : Mode) (negative : Bool) (hb : Representable fmt b)
    (hab : a ≤ b) {e : Int} (he : e ≤ emin fmt ∨ pow2 e ≤ a) : onGrid fmt mode negative a e ≤ b := by
  obtain ⟨m, hm⟩ := hb.on_grid (he.imp_right fun h => h.trans hab)
  have hq := pow2_pos (e - fracWidth fmt)
  have h1 : a / pow2 (e - fracWidth fmt) ≤ ((m : Int) : Rat) := by
    rw [div_le_iff₀ hq]; push_cast; rw [← hm]; exact hab
  have h2 := roundToInt_le_of_le_intCast mode negative h1
  have h3 : (roundToInt mode negative (a / pow2 (e - fracWidth fmt)) : Rat) ≤ (m : Rat) := by exact_mod_cast h2
  rw [onGrid, hm]
  exact mul_le_mul_of_nonneg_right h3 hq.le

/-- Rounding does not pass a representable magnitude from above. -/
theorem le_onGrid_of_representable {fmt : Fmt} {a b : Rat} (mode : Mode) (negative : Bool) (hb : Representable fmt b)
    (hab : b ≤ a) {e : Int} (he : e ≤ emin fmt ∨ pow2 e ≤ a) : b ≤ onGrid fmt mode negative a e := by
  have hq := pow2_pos (e - fracWidth fmt)
  have key : ∀ m : Nat, (m : Rat) * pow2 (e - fracWidth fmt) ≤ a →
      (m : Rat) * pow2 (e - fracWidth fmt) ≤ onGrid fmt mode negative a e := by
    intro m hm
    have h1 : ((m : Int) : Rat) ≤ a / pow2 (e - fracWidth fmt) := by
      rw [le_div_iff₀ hq]; exact_mod_cast hm
    have h2 := le_roundToInt_of_intCast_le mode negative h1
    have h3 : (m : Rat) ≤ (roundToInt mode negative (a / pow2 (e - fracWidth fmt)) : Rat) := by exact_mod_cast h2
    exact mul_le_mul_of_nonneg_right h3 hq.le
  by_cases hc : e ≤ emin fmt ∨ pow2 e ≤ b
  · obtain ⟨m, hm⟩ := hb.on_grid hc
    rw [hm] at hab ⊢
    exact key m hab
  · push Not at hc
    have hea : pow2 e ≤ a := by
      rcases he with he | he
      · exact absurd he (not_le.2 hc.1)
      · exact he
    refine hc.2.le.trans ?_
    rw [pow2_shift fmt e] at hea ⊢
    exact key _ hea

theorem grid_unbounded {a : Rat} (ha : 0 < a) (fmt : Fmt) : floorLog2 a ≤ emin fmt ∨ pow2 (floorLog2 a) ≤ a :=
  .inr (floorLog2_spec ha).1

theorem grid_delivered {a : Rat} (ha : 0 < a) (fmt : Fmt) :
    max (floorLog2 a) (emin fmt) ≤ emin fmt ∨ pow2 (max (floorLog2 a) (emin fmt)) ≤ a := by
  rcases le_total (floorLog2 a) (emin fmt) with h | h
  · exact .inl (by rw [max_eq_right h])
  · exact .inr (by rw [max_eq_left h]; exact (floorLog2_spec ha).1)

/-- A representable magnitude is not changed by rounding. -/
theorem round_of_representable {fmt : Fmt} {a : Rat} (ha : 0 < a) (h : Representable fmt a) (mode : Mode)
    (negative : Bool) : roundUnbounded fmt mode negative a = a ∧ roundDelivered fmt mode negative a = a := by
  constructor
  · rw [roundUnbounded_eq_onGrid]
    exact le_antisymm (onGrid_le_of_representable _ _ h le_rfl (grid_unbounded ha fmt))
      (le_onGrid_of_representable _ _ h le_rfl (grid_unbounded ha fmt))
  · rw [roundDelivered_eq_onGrid]
    exact le_antisymm (onGrid_le_of_representable _ _ h le_rfl (grid_delivered ha fmt))
      (le_onGrid_of_representable _ _ h le_rfl (grid_delivered ha fmt))

/-- The directed modes that make a magnitude smaller. -/
theorem onGrid_le (fmt : Fmt) {mode : Mode} {negative : Bool} (a : Rat) (e : Int)
    (h : mode = .rtz ∨ (mode = .rdn ∧ negative = false) ∨ (mode = .rup ∧ negative = true)) :
    onGrid fmt mode negative a e ≤ a := by
  have hq := pow2_pos (e - fracWidth fmt)
  rw [onGrid, ← le_div_iff₀ hq]
  exact roundToInt_down_le mode negative _ h

/-- The directed modes that make a magnitude larger. -/
theorem le_onGrid (fmt : Fmt) {mode : Mode} {negative : Bool} (a : Rat) (e : Int)
    (h : (mode = .rdn ∧ negative = true) ∨ (mode = .rup ∧ negative = false)) :
    a ≤ onGrid fmt mode negative a e := by
  have hq := pow2_pos (e - fracWidth fmt)
  rw [onGrid, ← div_le_iff₀ hq]
  exact le_roundToInt_up mode negative _ h

/-! ## The largest finite number -/

theorem maxFinite_eq (fmt : Fmt) :
    maxFinite fmt = ((2 ^ (fracWidth fmt + 1) - 1 : Nat) : Rat) * pow2 (emax fmt - fracWidth fmt) := by
  rw [maxFinite, show emax fmt - (fracWidth fmt : Int) = -(fracWidth fmt : Int) + emax fmt by ring, pow2_add, ← mul_assoc]
  congr 1
  have h : ((2 ^ fracWidth fmt : Nat) : Rat) * pow2 (-(fracWidth fmt : Int)) = 1 := by
    rw [← pow2_fracWidth, ← pow2_add, add_neg_cancel]; rfl
  rw [Nat.cast_sub Nat.one_le_two_pow, sub_mul, pow_succ]
  push_cast at h ⊢
  linear_combination -2 * h

theorem emin_le_emax (fmt : Fmt) : emin fmt ≤ emax fmt := by cases fmt <;> decide

theorem representable_maxFinite (fmt : Fmt) : Representable fmt (maxFinite fmt) := by
  refine .inr ⟨_, emax fmt, ?_, ?_, emin_le_emax fmt, le_rfl, maxFinite_eq fmt⟩
  · have := Nat.one_le_two_pow (n := fracWidth fmt)
    rw [pow_succ]; omega
  · have := Nat.one_le_two_pow (n := fracWidth fmt + 1)
    omega

theorem Representable.le_maxFinite {fmt : Fmt} {b : Rat} (h : Representable fmt b) : b ≤ maxFinite fmt := by
  rw [maxFinite_eq]
  rcases h with ⟨n, hn, rfl⟩ | ⟨n, k, h1, h2, h3, h4, rfl⟩
  · have he := emin_le_emax fmt
    refine mul_le_mul ?_ (pow2_le_iff.2 (by omega)) (pow2_pos _).le (by positivity)
    have : n ≤ 2 ^ (fracWidth fmt + 1) - 1 := by rw [pow_succ]; omega
    exact_mod_cast this
  · refine mul_le_mul ?_ (pow2_le_iff.2 (by omega)) (pow2_pos _).le (by positivity)
    have : n ≤ 2 ^ (fracWidth fmt + 1) - 1 := by omega
    exact_mod_cast this

theorem Representable.nonneg {fmt : Fmt} {b : Rat} (h : Representable fmt b) : 0 ≤ b := by
  rcases h with ⟨n, -, rfl⟩ | ⟨n, k, -, -, -, -, rfl⟩
  · exact mul_nonneg (by positivity) (pow2_pos _).le
  · exact mul_nonneg (by positivity) (pow2_pos _).le

theorem maxFinite_lt (fmt : Fmt) : maxFinite fmt < pow2 (emax fmt + 1) := by
  rw [maxFinite, pow2_succ]
  exact mul_lt_mul_of_pos_right (by linarith [pow2_pos (-(fracWidth fmt : Int))]) (pow2_pos _)

theorem pow2_emin_le_maxFinite (fmt : Fmt) : pow2 (emin fmt) ≤ maxFinite fmt := by
  apply Representable.le_maxFinite
  exact .inr ⟨2 ^ fracWidth fmt, emin fmt, le_rfl, by rw [pow_succ]; have := Nat.one_le_two_pow (n := fracWidth fmt); omega,
    le_rfl, emin_le_emax fmt, pow2_shift fmt _⟩

/-- Without overflow the delivered magnitude is one that the format represents. -/
theorem representable_roundDelivered {fmt : Fmt} {a : Rat} (ha : 0 < a) (mode : Mode) (negative : Bool)
    (h : roundUnbounded fmt mode negative a ≤ maxFinite fmt) : Representable fmt (roundDelivered fmt mode negative a) := by
  obtain ⟨l1, l2⟩ := floorLog2_spec ha
  have hP := Nat.one_le_two_pow (n := fracWidth fmt)
  unfold roundDelivered
  split
  · rename_i hex
    have hq := pow2_pos (emin fmt - fracWidth fmt)
    have b1 : ((0 : Int) : Rat) ≤ a / pow2 (emin fmt - fracWidth fmt) := by push_cast; positivity
    have b2 : a / pow2 (emin fmt - fracWidth fmt) ≤ (((2 ^ fracWidth fmt : Nat) : Int) : Rat) := by
      rw [div_le_iff₀ hq]
      have := l2.le.trans (pow2_le_iff.2 (by omega : floorLog2 a + 1 ≤ emin fmt))
      rw [pow2_shift fmt (emin fmt)] at this
      exact_mod_cast this
    have c1 := le_roundToInt_of_intCast_le mode negative b1
    have c2 := roundToInt_le_of_le_intCast mode negative b2
    obtain ⟨n, hn⟩ := Int.eq_ofNat_of_zero_le c1
    rw [hn] at c2 ⊢
    have c2' : n ≤ 2 ^ fracWidth fmt := by exact_mod_cast c2
    rcases lt_or_eq_of_le c2' with hlt | heq
    · exact .inl ⟨n, hlt, by push_cast; rfl⟩
    · exact .inr ⟨n, emin fmt, heq.ge, by rw [heq, pow_succ]; omega, le_rfl, emin_le_emax fmt, by push_cast; rfl⟩
  · rename_i hex
    have hex' : emin fmt ≤ floorLog2 a := not_lt.1 hex
    have hq := pow2_pos (floorLog2 a - fracWidth fmt)
    have b1 : (((2 ^ fracWidth fmt : Nat) : Int) : Rat) ≤ a / pow2 (floorLog2 a - fracWidth fmt) := by
      rw [le_div_iff₀ hq]
      rw [pow2_shift fmt (floorLog2 a)] at l1
      exact_mod_cast l1
    have b2 : a / pow2 (floorLog2 a - fracWidth fmt) ≤ (((2 ^ (fracWidth fmt + 1) : Nat) : Int) : Rat) := by
      rw [div_le_iff₀ hq]
      have l2' := l2.le
      rw [pow2_succ, pow2_shift fmt (floorLog2 a), ← mul_assoc] at l2'
      rw [pow_succ, mul_comm (2 ^ fracWidth fmt)]
      exact_mod_cast l2'
    have c1 := le_roundToInt_of_intCast_le mode negative b1
    have c2 := roundToInt_le_of_le_intCast mode negative b2
    obtain ⟨n, hn⟩ := Int.eq_ofNat_of_zero_le (le_trans (by positivity) c1)
    unfold roundUnbounded at h ⊢
    simp only [hn] at c1 c2 h ⊢
    have c1' : 2 ^ fracWidth fmt ≤ n := by exact_mod_cast c1
    have c2' : n ≤ 2 ^ (fracWidth fmt + 1) := by exact_mod_cast c2
    have hval : (((n : Int) : Rat)) * pow2 (floorLog2 a - fracWidth fmt) = (n : Rat) * pow2 (floorLog2 a - fracWidth fmt) := by
      push_cast; rfl
    rw [hval] at h ⊢
    rcases lt_or_eq_of_le c2' with hlt | heq
    · refine .inr ⟨n, floorLog2 a, c1', hlt, hex', ?_, rfl⟩
      have : pow2 (floorLog2 a) ≤ (n : Rat) * pow2 (floorLog2 a - fracWidth fmt) := by
        rw [pow2_shift fmt (floorLog2 a)]
        exact mul_le_mul_of_nonneg_right (by exact_mod_cast c1') hq.le
      have := pow2_lt_iff.1 ((this.trans h).trans_lt (maxFinite_lt fmt))
      omega
    · have heq2 : (n : Rat) * pow2 (floorLog2 a - fracWidth fmt) = pow2 (floorLog2 a + 1) := by
        rw [pow2_succ, pow2_shift fmt (floorLog2 a), heq, pow_succ]; push_cast; ring
      refine .inr ⟨2 ^ fracWidth fmt, floorLog2 a + 1, le_rfl, by rw [pow_succ]; omega, by omega, ?_, ?_⟩
      · rw [heq2] at h
        have := pow2_lt_iff.1 (h.trans_lt (maxFinite_lt fmt))
        omega
      · rw [heq2]; exact pow2_shift fmt _

/-! ## The whole of `round` -/

theorem rat_abs_eq (r : Rat) : r.abs = |r| := by
  unfold Rat.abs
  split
  · rename_i h; exact (abs_of_nonneg h).symm
  · rename_i h; exact (abs_of_neg (not_le.1 h)).symm

/-- What `round` does (R115): it overflows when the magnitude rounded without bound on the exponent exceeds `maxfin`;
otherwise it delivers the datum of a representable magnitude. -/
theorem roundRat_cases (fmt : Fmt) (mode : Mode) {r : Rat} (hr : r ≠ 0) :
    (maxFinite fmt < roundUnbounded fmt mode (decide (r < 0)) r.abs ∧
        roundRat fmt mode r = (overflowResult fmt mode (decide (r < 0)), flagUnion flagOF flagNX)) ∨
      (roundUnbounded fmt mode (decide (r < 0)) r.abs ≤ maxFinite fmt ∧
        Representable fmt (roundDelivered fmt mode (decide (r < 0)) r.abs) ∧
        roundRat fmt mode r =
          (datumOfMagnitude fmt (decide (r < 0)) (roundDelivered fmt mode (decide (r < 0)) r.abs),
            roundFlags fmt (roundUnbounded fmt mode (decide (r < 0)) r.abs)
              (roundDelivered fmt mode (decide (r < 0)) r.abs) r.abs)) := by
  have ha : 0 < r.abs := by
    rw [rat_abs_eq]; exact abs_pos.2 hr
  by_cases h : maxFinite fmt < roundUnbounded fmt mode (decide (r < 0)) r.abs
  · exact .inl ⟨h, by simp only [roundRat, h, if_true]⟩
  · exact .inr ⟨not_lt.1 h, representable_roundDelivered ha mode _ (not_lt.1 h), by simp only [roundRat, h, if_false]⟩

/-- The infinities and the largest finite numbers have their values. -/
theorem valueOf_infDatum (fmt : Fmt) (negative : Bool) : valueOf (infDatum fmt negative) = .inf negative := by
  cases fmt <;> cases negative <;> decide

theorem valueOf_canonicalNaN (fmt : Fmt) : valueOf (canonicalNaN fmt) = .nan false := by
  cases fmt <;> decide

theorem valueOf_maxFiniteDatum (fmt : Fmt) (negative : Bool) :
    valueOf (maxFiniteDatum fmt negative) = .num negative (signFactor negative * maxFinite fmt) := by
  rw [maxFiniteDatum, valueOf_packDatum_normal fmt negative (by cases fmt <;> decide) le_rfl (by cases fmt <;> decide),
    mul_assoc, maxFinite_eq]
  congr 3
  · have h := Nat.one_le_two_pow (n := fracWidth fmt)
    rw [pow_succ, show 2 ^ fracWidth fmt + (2 ^ fracWidth fmt - 1) = 2 ^ fracWidth fmt * 2 - 1 by omega]
  · cases fmt <;> decide

end Sys2Proof.Machine
end

