-- ==== Sys2Proof/Tests/Slice0.lean ====
section
/-!
SUPPORT. Small tests on fixed values: checks of the model's own text, never statements for the provers. Expected values are the
spec's: the examples of the instruction rules (R157 to R229) and the vectors of 95_test_vectors.md. At the end, a witness for the
hypotheses of each obligation.
-/

namespace Sys2Proof.Tests

open Sys2Proof.Machine

set_option Elab.async false

/-! ## Helpers -/

/-- `Zhintx` and `Zfintx` on RV32 -/
def cfgX32 : Config := { xlen := .w32, regfile := .x, hasH := true, hasS := true, num := .reference }
/-- `Zhintx` and `Zfintx` on RV64 -/
def cfgX64 : Config := { cfgX32 with xlen := .w64 }
/-- `Zhintf` on RV32 with 32-bit `f` registers -/
def cfgF32 : Config := { xlen := .w32, regfile := .f .w32, hasH := true, hasS := false, num := .reference }
/-- `Zhintf` and `Zfintf` on RV64 -/
def cfgF64 : Config := { xlen := .w64, regfile := .f .w64, hasH := true, hasS := true, num := .reference }

/-- A register file with some slots set and the others zero. -/
def fileOf (slots : List (Nat × Word)) : Vector Word 32 :=
  slots.foldl (fun v p => v.setIfInBounds p.1 p.2) (Vector.replicate 32 0#64)

/-- The reset state in a configuration, with some `x` and `f` registers set. -/
def stateOf (c : Config) (xs fs : List (Nat × Word)) : State :=
  { State.reset with cfg := c, x := fileOf xs, f := fileOf fs }

/-- A state with a word placed where the next step fetches it. -/
def place (s : State) (word : InstrWord) : State := s.withFetchWord 32 word.toNat

/-- `x[r]`, the flags and `pc` after the step that runs a word; none when the step gives no next state. -/
def xAfter (s : State) (word : InstrWord) (r : Reg) : Option (Word × FlagSet × Word) :=
  match step (place s word) with
  | .next t => some (readX t r, t.fflags, t.pc)
  | _ => none

/-- The fault, or the refusal, that a step ends in. -/
def faultOf (s : State) : Option Fault :=
  match step s with
  | .fault r => some r
  | _ => none
def refusalOf (s : State) : Option Refusal :=
  match step s with
  | .refused r => some r
  | _ => none

/-- `f[r]`, the flags and `pc` after the step that runs a word. -/
def fAfter (s : State) (word : InstrWord) (r : Reg) : Option (Word × FlagSet × Word) :=
  match step (place s word) with
  | .next t => some (readF t r, t.fflags, t.pc)
  | _ => none

/-! ## Well-formedness: an ill-formed term for each check -/

theorem test_reserved_rm_is_ill_formed : (Instr.intaddH 3 1 2 .reserved5).wellFormed = false := by decide
theorem test_reserved_rm_of_a_copy_is_ill_formed : (Instr.intminS 3 2 .reserved6).wellFormed = false := by decide
theorem test_other_csr_is_ill_formed : (Instr.csrrs 5 0xC00 0).wellFormed = false := by decide
theorem test_well_formed : (Instr.intaddH 3 1 2 .dyn).wellFormed = true ∧ (Instr.csrrwi 0 0x003 31).wellFormed = true := by decide

/-! ## Decoding: words of 95_test_vectors.md section 2.1 and of R224 to R229, one for every constructor -/

theorem test_decode_half_arithmetic :
    decode 0x0020818B#32 = .ok (.intaddH 3 1 2 .rne) ∧
    decode 0x0820818B#32 = .ok (.intsubH 3 1 2 .rne) ∧
    decode 0x1020818B#32 = .ok (.intmulH 3 1 2 .rne) ∧
    decode 0x1820818B#32 = .ok (.intdivH 3 1 2 .rne) := by decide

theorem test_decode_half_statistical :
    decode 0x4000818B#32 = .ok (.intmidH 3 1 .rne) ∧
    decode 0x4800818B#32 = .ok (.intwdtH 3 1 .rne) ∧
    decode 0x5000818B#32 = .ok (.intradH 3 1 .rne) ∧
    decode 0x5800818B#32 = .ok (.intminH 3 1 .rne) ∧
    decode 0x6000818B#32 = .ok (.intmaxH 3 1 .rne) := by decide

theorem test_decode_half_temporal :
    decode 0x8020818B#32 = .ok (.intbfrH 3 1 2) ∧
    decode 0x8820818B#32 = .ok (.intmtsH 3 1 2) ∧
    decode 0x9020818B#32 = .ok (.intovrH 3 1 2) ∧
    decode 0x9820818B#32 = .ok (.intdurH 3 1 2) ∧
    decode 0xA020818B#32 = .ok (.intstrH 3 1 2) ∧
    decode 0xA820818B#32 = .ok (.intfinH 3 1 2) ∧
    decode 0xB020818B#32 = .ok (.inteqlH 3 1 2) := by decide

theorem test_decode_single_arithmetic :
    decode 0x0241730B#32 = .ok (.intaddS 6 2 4 .dyn) ∧
    decode 0x0A41730B#32 = .ok (.intsubS 6 2 4 .dyn) ∧
    decode 0x1241730B#32 = .ok (.intmulS 6 2 4 .dyn) ∧
    decode 0x1A41730B#32 = .ok (.intdivS 6 2 4 .dyn) := by decide

theorem test_decode_single_statistical :
    decode 0x4201718B#32 = .ok (.intmidS 3 2 .dyn) ∧
    decode 0x4A01718B#32 = .ok (.intwdtS 3 2 .dyn) ∧
    decode 0x5201718B#32 = .ok (.intradS 3 2 .dyn) ∧
    decode 0x5A01718B#32 = .ok (.intminS 3 2 .dyn) ∧
    decode 0x6201718B#32 = .ok (.intmaxS 3 2 .dyn) := by decide

theorem test_decode_single_temporal :
    decode 0x8241018B#32 = .ok (.intbfrS 3 2 4) ∧
    decode 0x8A41018B#32 = .ok (.intmtsS 3 2 4) ∧
    decode 0x9241018B#32 = .ok (.intovrS 3 2 4) ∧
    decode 0x9A41018B#32 = .ok (.intdurS 3 2 4) ∧
    decode 0xA241018B#32 = .ok (.intstrS 3 2 4) ∧
    decode 0xAA41018B#32 = .ok (.intfinS 3 2 4) ∧
    decode 0xB241018B#32 = .ok (.inteqlS 3 2 4) := by decide

theorem test_decode_csr :
    decode 0x00331073#32 = .ok (.csrrw 0 0x003 6) ∧
    decode 0x001022F3#32 = .ok (.csrrs 5 0x001 0) ∧
    decode 0x0013B2F3#32 = .ok (.csrrc 5 0x001 7) ∧
    decode 0x00215073#32 = .ok (.csrrwi 0 0x002 2) ∧
    decode 0x001162F3#32 = .ok (.csrrsi 5 0x001 2) ∧
    decode 0x00187073#32 = .ok (.csrrci 0 0x001 16) := by decide

/-- The encoder writes the same words. -/
theorem test_encode :
    encode (.intaddH 3 1 2 .rne) = 0x0020818B#32 ∧ encode (.intmidS 3 2 .dyn) = 0x4201718B#32 ∧
    encode (.inteqlS 3 2 4) = 0xB241018B#32 ∧ encode (.csrrci 0 0x001 16) = 0x00187073#32 := by decide

/-- The words of 95_test_vectors.md section 2.2 that no configuration decodes. -/
theorem test_reject :
    decode 0x0420818B#32 = .error .reservedFormat ∧ decode 0x0620818B#32 = .error .reservedFormat ∧
    decode 0x2020818B#32 = .error .unassignedMinorOpcode ∧ decode 0xFA20818B#32 = .error .unassignedMinorOpcode ∧
    decode 0x4010818B#32 = .error .statisticalRs2 ∧ decode 0x8020918B#32 = .error .temporalRm ∧
    decode 0x00000000#32 = .error .undescribed ∧ decode 0x00000073#32 = .error .undescribed ∧
    decode 0x00100093#32 = .error .undescribed := by decide

/-- A table word decodes as its bits do. -/
theorem test_table_word : decodeTableWord 32 0x0020818B = some (.intaddH 3 1 2 .rne) := by decide

/-! ## One step: the example of each instruction's rule, and a corner case -/

/-- R157 -/
theorem test_intaddH : xAfter (stateOf cfgX32 [(1, 0x40003C00), (2, 0x44004200)] []) 0x0020818B#32 3 = some (0x46004400, 0, 0x1004) := by decide +kernel

/-- R158 -/
theorem test_intaddS : fAfter (stateOf cfgF64 [] [(1, 0x400000003F800000), (2, 0x4080000040400000)]) 0x0220F18B#32 3 = some (0x40C0000040800000, 0, 0x1004) := by decide +kernel

/-- R159 -/
theorem test_intsubH : xAfter (stateOf cfgX32 [(1, 0x40003C00), (2, 0x44004200)] []) 0x0820818B#32 3 = some (0xBC00C200, 0, 0x1004) := by decide +kernel

/-- R160 -/
theorem test_intsubS : fAfter (stateOf cfgF64 [] [(1, 0x400000003F800000), (2, 0x4080000040400000)]) 0x0A20F18B#32 3 = some (0xBF800000C0400000, 0, 0x1004) := by decide +kernel

/-- R161 -/
theorem test_intmulH : xAfter (stateOf cfgX32 [(1, 0x4000BC00), (2, 0x44004200)] []) 0x1020818B#32 3 = some (0x4800C400, 0, 0x1004) := by decide +kernel

/-- R162 -/
theorem test_intmulS : fAfter (stateOf cfgF64 [] [(1, 0x40000000BF800000), (2, 0x4080000040400000)]) 0x1220F18B#32 3 = some (0x41000000C0800000, 0, 0x1004) := by decide +kernel

/-- R163 -/
theorem test_intdivH : xAfter (stateOf cfgX32 [(1, 0x40003C00), (2, 0x48004400)] []) 0x1820818B#32 3 = some (0x38003000, 0, 0x1004) := by decide +kernel

/-- R164 -/
theorem test_intdivS : fAfter (stateOf cfgF64 [] [(1, 0x400000003F800000), (2, 0x4100000040800000)]) 0x1A20F18B#32 3 = some (0x3F0000003E000000, 0, 0x1004) := by decide +kernel

/-- R176 -/
theorem test_intmidH : xAfter (stateOf cfgX32 [(1, 0x40003C00)] []) 0x4000818B#32 3 = some (0x00003E00, 0, 0x1004) := by decide +kernel

/-- R177 -/
theorem test_intmidS : fAfter (stateOf cfgF64 [] [(1, 0x400000003F800000)]) 0x4200F18B#32 3 = some (0xFFFFFFFF3FC00000, 0, 0x1004) := by decide +kernel

/-- R178 -/
theorem test_intwdtH : xAfter (stateOf cfgX32 [(1, 0x40003C00)] []) 0x4800818B#32 3 = some (0x00003C00, 0, 0x1004) := by decide +kernel

/-- R179 -/
theorem test_intwdtS : fAfter (stateOf cfgF64 [] [(1, 0x400000003F800000)]) 0x4A00F18B#32 3 = some (0xFFFFFFFF3F800000, 0, 0x1004) := by decide +kernel

/-- R180 -/
theorem test_intradH : xAfter (stateOf cfgX32 [(1, 0x40003C00)] []) 0x5000818B#32 3 = some (0x00003800, 0, 0x1004) := by decide +kernel

/-- R181 -/
theorem test_intradS : fAfter (stateOf cfgF64 [] [(1, 0x400000003F800000)]) 0x5200F18B#32 3 = some (0xFFFFFFFF3F000000, 0, 0x1004) := by decide +kernel

/-- R182 -/
theorem test_intminH : xAfter (stateOf cfgX32 [(1, 0x40003C00)] []) 0x5800818B#32 3 = some (0x00003C00, 0, 0x1004) := by decide +kernel

/-- R183 -/
theorem test_intminS : fAfter (stateOf cfgF64 [] [(1, 0x400000003F800000)]) 0x5A00F18B#32 3 = some (0xFFFFFFFF3F800000, 0, 0x1004) := by decide +kernel

/-- R184 -/
theorem test_intmaxH : xAfter (stateOf cfgX32 [(1, 0x40003C00)] []) 0x6000818B#32 3 = some (0x00004000, 0, 0x1004) := by decide +kernel

/-- R185 -/
theorem test_intmaxS : fAfter (stateOf cfgF64 [] [(1, 0x400000003F800000)]) 0x6200F18B#32 3 = some (0xFFFFFFFF40000000, 0, 0x1004) := by decide +kernel

/-- R198 -/
theorem test_intbfrH : xAfter (stateOf cfgX32 [(1, 0x40003C00), (2, 0x44004200)] []) 0x8020828B#32 5 = some (0x00000001, 0, 0x1004) := by decide +kernel

/-- R199 -/
theorem test_intbfrS : xAfter (stateOf cfgF64 [] [(1, 0x400000003F800000), (2, 0x4080000040400000)]) 0x8220828B#32 5 = some (0x0000000000000001, 0, 0x1004) := by decide +kernel

/-- R200 -/
theorem test_intmtsH : xAfter (stateOf cfgX32 [(1, 0x40003C00), (2, 0x42004000)] []) 0x8820828B#32 5 = some (0x00000001, 0, 0x1004) := by decide +kernel

/-- R201 -/
theorem test_intmtsS : xAfter (stateOf cfgF64 [] [(1, 0x400000003F800000), (2, 0x4040000040000000)]) 0x8A20828B#32 5 = some (0x0000000000000001, 0, 0x1004) := by decide +kernel

/-- R202 -/
theorem test_intovrH : xAfter (stateOf cfgX32 [(1, 0x42003C00), (2, 0x44004000)] []) 0x9020828B#32 5 = some (0x00000001, 0, 0x1004) := by decide +kernel

/-- R203 -/
theorem test_intovrS : xAfter (stateOf cfgF64 [] [(1, 0x404000003F800000), (2, 0x4080000040000000)]) 0x9220828B#32 5 = some (0x0000000000000001, 0, 0x1004) := by decide +kernel

/-- R204 -/
theorem test_intdurH : xAfter (stateOf cfgX32 [(1, 0x42004000), (2, 0x44003C00)] []) 0x9820828B#32 5 = some (0x00000001, 0, 0x1004) := by decide +kernel

/-- R205 -/
theorem test_intdurS : xAfter (stateOf cfgF64 [] [(1, 0x4040000040000000), (2, 0x408000003F800000)]) 0x9A20828B#32 5 = some (0x0000000000000001, 0, 0x1004) := by decide +kernel

/-- R206 -/
theorem test_intstrH : xAfter (stateOf cfgX32 [(1, 0x40003C00), (2, 0x42003C00)] []) 0xA020828B#32 5 = some (0x00000001, 0, 0x1004) := by decide +kernel

/-- R207 -/
theorem test_intstrS : xAfter (stateOf cfgF64 [] [(1, 0x400000003F800000), (2, 0x404000003F800000)]) 0xA220828B#32 5 = some (0x0000000000000001, 0, 0x1004) := by decide +kernel

/-- R208 -/
theorem test_intfinH : xAfter (stateOf cfgX32 [(1, 0x42004000), (2, 0x42003C00)] []) 0xA820828B#32 5 = some (0x00000001, 0, 0x1004) := by decide +kernel

/-- R209 -/
theorem test_intfinS : xAfter (stateOf cfgF64 [] [(1, 0x4040000040000000), (2, 0x404000003F800000)]) 0xAA20828B#32 5 = some (0x0000000000000001, 0, 0x1004) := by decide +kernel

/-- R210 -/
theorem test_inteqlH : xAfter (stateOf cfgX32 [(1, 0x40003C00), (2, 0x40003C00)] []) 0xB020828B#32 5 = some (0x00000001, 0, 0x1004) := by decide +kernel

/-- R211 -/
theorem test_inteqlS : xAfter (stateOf cfgF64 [] [(1, 0x400000003F800000), (2, 0x400000003F800000)]) 0xB220828B#32 5 = some (0x0000000000000001, 0, 0x1004) := by decide +kernel

/-- 41_arithmetic vectors: overflow of the upper bound -/
theorem test_intaddH_overflow : xAfter (stateOf cfgX32 [(1, 0x7BFF7BFF), (2, 0x7BFF7BFF)] []) 0x0020818B#32 3 = some (0x7C007BFF, 0b00101, 0x1004) := by decide +kernel

/-- 10_state vectors: sign extension on RV64, upper source bits ignored -/
theorem test_intsubH_sign_extended : xAfter (stateOf cfgX64 [(1, 0x1234567840003C00), (2, 0x44004200)] []) 0x0820818B#32 3 = some (0xFFFFFFFFBC00C200, 0, 0x1004) := by decide +kernel

/-- zero times Entire -/
theorem test_intmulH_zero_times_entire : xAfter (stateOf cfgX32 [(1, 0x00000000), (2, 0x7C00FC00)] []) 0x1020818B#32 3 = some (0, 0, 0x1004) := by decide +kernel

/-- a divisor that contains zero is no trap -/
theorem test_intdivH_by_zero : xAfter (stateOf cfgX32 [(1, 0x40003C00), (2, 0x3C00BC00)] []) 0x1820818B#32 3 = some (0x7C00FC00, 0b01000, 0x1004) := by decide +kernel

/-- a half-precision scalar in a 64-bit f register, sources not boxed -/
theorem test_intmidH_boxed : fAfter (stateOf cfgF64 [] [(1, 0x12345678C200C400)]) 0x4000818B#32 3 = some (0xFFFFFFFFFFFFC300, 0, 0x1004) := by decide +kernel

/-- -0 in mode RDN -/
theorem test_intwdtH_degenerate_rdn : xAfter (stateOf cfgX32 [(1, 0x42004200)] []) 0x4800A18B#32 3 = some (0xFFFF8000, 0, 0x1004) := by decide +kernel

/-- halving a subnormal, RUP -/
theorem test_intradH_underflow : xAfter (stateOf cfgX32 [(1, 0x00010000)] []) 0x5000B18B#32 3 = some (0x0001, 0b00011, 0x1004) := by decide +kernel

/-- a signaling NaN is copied, no flag -/
theorem test_intminH_copies_signaling_nan : xAfter (stateOf cfgX32 [(1, 0x3C007D00)] []) 0x5800818B#32 3 = some (0x7D00, 0, 0x1004) := by decide +kernel

/-- an inverted interval: no comparison -/
theorem test_intmaxH_inverted : fAfter (stateOf cfgF32 [] [(1, 0x3C004000)]) 0x6000818B#32 3 = some (0xFFFF3C00, 0, 0x1004) := by decide +kernel

/-- a quiet NaN in a compared bound -/
theorem test_intbfrH_quiet_nan : xAfter (stateOf cfgX32 [(1, 0x40003C00), (2, 0x44007E00)] []) 0x8020818B#32 3 = some (0, 0b10000, 0x1004) := by decide +kernel

/-- a quiet NaN raises nothing in an equality -/
theorem test_intmtsH_quiet_nan : xAfter (stateOf cfgX32 [(1, 0x40003C00), (2, 0x44007E00)] []) 0x8820818B#32 3 = some (0, 0, 0x1004) := by decide +kernel

/-- overlapped by -/
theorem test_intovrH_not_symmetric : xAfter (stateOf cfgX32 [(1, 0x44004000), (2, 0x42003C00)] []) 0x9020818B#32 3 = some (0, 0, 0x1004) := by decide +kernel

/-- contains -/
theorem test_intdurH_inverse : xAfter (stateOf cfgX32 [(1, 0x44003C00), (2, 0x42004000)] []) 0x9820818B#32 3 = some (0, 0, 0x1004) := by decide +kernel

/-- equal infinite lower bounds -/
theorem test_intstrH_infinite : xAfter (stateOf cfgX32 [(1, 0x3C00FC00), (2, 0x4000FC00)] []) 0xA020818B#32 3 = some (1, 0, 0x1004) := by decide +kernel

/-- a degenerate interval at the end -/
theorem test_intfinH_degenerate : fAfter (stateOf cfgF32 [] [(1, 0x40004000), (2, 0x40003C00), (3, 0x55)]) 0xA820818B#32 3 = some (0x55, 0, 0x1004) := by decide +kernel

/-- the zeros are equal -/
theorem test_inteqlH_zeros : xAfter (stateOf cfgX32 [(1, 0x3C008000), (2, 0x3C000000)] []) 0xB020818B#32 3 = some (1, 0, 0x1004) := by decide +kernel

/-- 10_state vectors: a pair result, its upper half in the odd register -/
theorem test_intaddS_pair :
    xAfter (stateOf cfgX32 [(2, 0x3F800000), (3, 0x40000000), (4, 0x40400000), (5, 0x40800000)] []) 0x0241030B#32 7
      = some (0x40C00000, 0, 0x1004) := by decide +kernel

/-- 10_state vectors: a pair source named by x0 reads as zero, x1 is not read -/
theorem test_intsubS_x0_source :
    xAfter (stateOf cfgX32 [(1, 0xAAAAAAAA), (4, 0x40400000), (5, 0x40800000)] []) 0x0A40030B#32 6
      = some (0xC0800000, 0, 0x1004) := by decide +kernel

/-- 95_test_vectors.md section 7.3: a pair result named by x0 writes nothing, x1 included -/
theorem test_intmulS_x0_destination :
    xAfter (stateOf cfgX32 [(1, 0xAAAAAAAA), (6, 0xFF800000), (7, 0x7F800000)] []) 0x1263000B#32 1
      = some (0xAAAAAAAA, 0, 0x1004) := by decide +kernel

/-- 41_arithmetic vectors: inexact in both bounds -/
theorem test_intdivS_inexact :
    fAfter (stateOf cfgF64 [] [(1, 0x3F8000003F800000), (2, 0x4040000040400000)]) 0x1A20F18B#32 3
      = some (0x3EAAAAAB3EAAAAAA, 0b00001, 0x1004) := by decide +kernel

/-- 10_state vectors: an odd destination of a scalar, over the upper half of its own source -/
theorem test_intmidS_odd_destination :
    xAfter (stateOf cfgX32 [(2, 0x3F800000), (3, 0x40000000)] []) 0x4201018B#32 3
      = some (0x3FC00000, 0, 0x1004) := by decide +kernel

/-- An odd source of a pair is reserved; nothing changes and the fault records `pc` and the word. -/
theorem test_intmidS_odd_source :
    faultOf (place (stateOf cfgX32 [] []) 0x4201820B#32) = some (.illegalInstruction 0x1000 0x4201820B#32) := by decide +kernel

/-- `rm = 111` with `frm = 101` is reserved. -/
theorem test_intaddH_invalid_frm :
    faultOf (place { stateOf cfgX32 [] [] with frm := 0b101 } 0x0020F18B#32)
      = some (.illegalInstruction 0x1000 0x0020F18B#32) := by decide +kernel

/-- A host instruction the spec does not describe, and a misaligned `pc`. -/
theorem test_no_step :
    refusalOf (place (stateOf cfgX32 [] []) 0x00100093#32) = some (.undescribedHostInstruction 0x1000 0x00100093#32) ∧
    faultOf (stateOf cfgX32 [] []) = some (.stuckOutsideProgram 0x1000) ∧
    faultOf { stateOf cfgX32 [] [] with pc := 0x1002 } = some (.stuckMisalignedPc 0x1002) := by decide +kernel

/-- R224: `csrrw x0, fcsr, x6` -/
theorem test_csrrw :
    (match step (place (stateOf cfgX32 [(6, 0x40)] []) 0x00331073#32) with
      | .next t => some (t.frm, t.fflags, t.pc)
      | _ => none) = some (0b010, 0, 0x1004) := by decide +kernel

/-- R225: `csrrs x5, fflags, x0` -/
theorem test_csrrs :
    xAfter { stateOf cfgX32 [] [] with fflags := 0b01001 } 0x001022F3#32 5 = some (9, 0b01001, 0x1004) := by decide +kernel

/-- R226: `csrrc x5, fflags, x7` -/
theorem test_csrrc :
    xAfter { stateOf cfgX32 [(7, 1)] [] with fflags := 0b00101 } 0x0013B2F3#32 5 = some (5, 0b00100, 0x1004) := by
  decide +kernel

/-- R227: `csrrwi x0, frm, 2` -/
theorem test_csrrwi :
    (match step (place (stateOf cfgX32 [] []) 0x00215073#32) with
      | .next t => some (t.frm, t.fflags)
      | _ => none) = some (0b010, 0) := by decide +kernel

/-- R228, from its pseudocode: `csrrsi x5, fflags, 2` -/
theorem test_csrrsi :
    xAfter { stateOf cfgX32 [] [] with fflags := 0b10000 } 0x001162F3#32 5 = some (16, 0b10010, 0x1004) := by decide +kernel

/-- R229: `csrrci x0, fflags, 16` -/
theorem test_csrrci :
    xAfter { stateOf cfgX32 [] [] with fflags := 0b11111 } 0x00187073#32 0 = some (0, 0b01111, 0x1004) := by decide +kernel

/-! ## Witnesses: for each obligation with hypotheses, a state and operands that meet them together -/

/-- RV32 `Zhintx` and `Zfintx`, and RV64 `Zhintf` and `Zfintf`, with zero registers -/
abbrev sX : State := stateOf cfgX32 [] []
abbrev sF : State := stateOf cfgF64 [] []

def isNext (o : Host.Outcome State Fault Refusal) : Bool :=
  match o with
  | .next _ => true
  | _ => false

theorem next_of_isNext {o : Host.Outcome State Fault Refusal} (h : isNext o = true) : ∃ t, o = .next t := by
  cases o <;> simp_all [isNext]

/-- A test that an instruction is not reserved, to be evaluated. -/
def notReserved (s : State) (i : Instr) : Bool :=
  !(decide (formatOf i = some .h) && !s.cfg.hasH) && !(decide (formatOf i = some .s) && !s.cfg.hasS) &&
  (!(decide (s.cfg.regfile = .x) && decide (s.cfg.xlen = .w32)) || (intervalFieldsOf i).all fun r => r.toNat % 2 != 1) &&
  (match rmFieldOf i with
    | some rm => rm != .reserved5 && rm != .reserved6 && !(rm == .dyn && decide (5 ≤ s.frm.toNat))
    | none => true)

theorem not_reservedHere {s : State} {i : Instr} (h : notReserved s i = true) : ¬ ReservedHere s i := by
  rintro (⟨h1, h2⟩ | ⟨h1, h2⟩ | ⟨⟨h1, h2⟩, r, h3, h4⟩ | ⟨rm, h1, h2⟩)
  · simp [notReserved, h1, h2] at h
  · simp [notReserved, h1, h2] at h
  · simp only [notReserved, h1, h2, Bool.and_eq_true] at h
    exact absurd (List.all_eq_true.mp h.1.2 r h3) (by simp [h4])
  · rcases h2 with rfl | rfl | ⟨rfl, h2⟩ <;> simp_all [notReserved]

theorem test_witness_EncodeOfDecodedWord : decode 0x0020818B#32 = .ok (.intaddH 3 1 2 .rne) := by decide

theorem test_witness_DecodeFollowsMaskAndMatch :
    decode 0xB241018B#32 = .ok (.inteqlS 3 2 4) ∧ 0xB241018B#32 &&& rowMask (.inteqlS 0 0 0) = rowMatch (.inteqlS 0 0 0) ∧
    0x00331073#32 &&& rowMask (.csrrw 0 0 0) = rowMatch (.csrrw 0 0 0) := by decide

/-- Words under the major opcode, one for each reason, at the ends of the ranges of `funct5`. -/
theorem test_witness_RejectionReasonsInOrder :
    ([0x0420818B#32, 0x2020818B#32, 0xF820818B#32, 0x4010818B#32, 0x6010818B#32, 0x8020918B#32, 0xB020918B#32].all
      fun w => w.extractLsb' 0 7 == 0b0001011#7) ∧
    decode 0x0420818B#32 = .error .reservedFormat ∧
    decode 0x2020818B#32 = .error .unassignedMinorOpcode ∧ decode 0xF820818B#32 = .error .unassignedMinorOpcode ∧
    decode 0x4010818B#32 = .error .statisticalRs2 ∧ decode 0x6010818B#32 = .error .statisticalRs2 ∧
    decode 0x8020918B#32 = .error .temporalRm ∧ decode 0xB020918B#32 = .error .temporalRm := by
  decide +kernel

theorem test_witness_StepRunsDecodedInstruction :
    sF.cfg.legal = true ∧ sF.pc.toNat % 4 = 0 ∧
    memRead (place sF 0x0020818B#32).mem sF.pc.toNat 4 = some [0x8B#8, 0x81#8, 0x20#8, 0x00#8] ∧
    decodeBytes [0x8B#8, 0x81#8, 0x20#8, 0x00#8] = .ok (.intaddH 3 1 2 .rne) := by decide

theorem test_witness_FetchNeedsAlignedPcInsideProgram :
    sF.cfg.legal = true ∧ sF.pc.toNat % 4 = 0 ∧
    Memory.read (place sF 0x0020818B#32).mem sF.pc.toNat = some 0x8B#8 ∧
    Memory.read (place sF 0x0020818B#32).mem (sF.pc.toNat + 1) = some 0x81#8 ∧
    Memory.read (place sF 0x0020818B#32).mem (sF.pc.toNat + 2) = some 0x20#8 ∧
    Memory.read (place sF 0x0020818B#32).mem (sF.pc.toNat + 3) = some 0x00#8 ∧
    decode (0x00#8 ++ 0x20#8 ++ 0x81#8 ++ 0x8B#8) = .ok (.intaddH 3 1 2 .rne) ∧
    ({ sF with pc := 0x1002 } : State).pc.toNat % 4 ≠ 0 ∧
    Memory.read ({ sF with mem := [(0x1000, 0x8B#8), (0x1001, 0x81#8), (0x1002, 0x20#8)] } : State).mem
      (sF.pc.toNat + 3) = none := by decide

theorem test_witness_UndescribedHostWordsAreRefused :
    sF.cfg.legal = true ∧ sF.pc.toNat % 4 = 0 ∧
    memRead (place sF 0x00000013#32).mem sF.pc.toNat 4 = some [0x13#8, 0x00#8, 0x00#8, 0x00#8] ∧
    (0x00000013#32).extractLsb' 0 7 ≠ 0b1110011#7 ∧
    ((0x00000073#32).extractLsb' 0 7 ≠ 0b0001011#7 ∧ ((0x00000073#32).extractLsb' 12 3).toNat ∈ [0, 4]) ∧
    (¬ NamesCsr 0x000#12 ∧ ¬ NamesCsr 0x004#12 ∧ ¬ NamesCsr ((0xC00022F3#32).extractLsb' 20 12)) := by
  unfold NamesCsr; decide

theorem test_witness_IllegalConfigurationIsRefused : (stateOf { cfgF32 with hasS := true } [] []).cfg.legal = false := by
  decide

/-- A word for each line of the table of R92, and one that is not reserved. -/
theorem test_witness_ReservedWordsRaiseIllegalInstruction :
    ([0x0020818B#32, 0x0420818B#32, 0x0220818B#32, 0x2020818B#32, 0x4010818B#32, 0x8020918B#32, 0x4201820B#32,
      0x0020D18B#32, 0x0020F18B#32].all fun w => w.extractLsb' 0 7 == 0b0001011#7) ∧
    memRead (place sX 0x4201820B#32).mem sX.pc.toNat 4 = some [0x0B#8, 0x82#8, 0x01#8, 0x42#8] ∧
    ReservedWord cfgF32 0#3 0x0420818B#32 ∧ ReservedWord cfgF32 0#3 0x0220818B#32 ∧ ReservedWord cfgF32 0#3 0x2020818B#32 ∧
    ReservedWord cfgF32 0#3 0x4010818B#32 ∧ ReservedWord cfgF32 0#3 0x8020918B#32 ∧ ReservedWord cfgX32 0#3 0x4201820B#32 ∧
    ReservedWord cfgX32 0#3 0x0020D18B#32 ∧ ReservedWord cfgX32 5#3 0x0020F18B#32 ∧ ¬ ReservedWord cfgX32 4#3 0x0020F18B#32 := by
  refine ⟨by decide, by decide, ?_, ?_, ?_, ?_, ?_, ?_, ?_, ?_, ?_⟩ <;>
    (simp only [ReservedWord, PairedRegisters]; decide)

theorem test_witness_IllegalInstructionOnlyOnReservedWords :
    faultOf (place sX 0x0420818B#32) = some (.illegalInstruction 0x1000 0x0420818B#32) := by decide +kernel

theorem test_witness_ExtensionInstructionTrapsOrCompletes :
    formatOf (.intaddS 2 4 6 .dyn) ≠ none ∧ ¬ ReservedHere { sX with frm := 4 } (.intaddS 2 4 6 .dyn) ∧
    ReservedHere { sX with frm := 5 } (.intaddS 2 4 6 .dyn) ∧ ReservedHere sX (.intaddS 2 4 7 .rne) ∧
    ReservedHere (stateOf cfgF32 [] []) (.intbfrS 2 4 6) :=
  ⟨by decide, not_reservedHere (by decide), .inr (.inr (.inr ⟨.dyn, rfl, .inr (.inr ⟨rfl, by decide⟩)⟩)),
    .inr (.inr (.inl ⟨⟨rfl, rfl⟩, 7, by decide, by decide⟩)), .inr (.inl ⟨rfl, rfl⟩)⟩

theorem test_witness_OddPairRegistersAreReserved :
    formatOf (.intmidS 3 2 .dyn) = some .s ∧ sX.cfg.hasS = true ∧ (∃ mode, ModeInForce .dyn sX.frm mode) ∧
    PairedRegisters sX.cfg ∧ (∀ r ∈ intervalFieldsOf (.intmidS 3 2 .dyn), r.toNat % 2 = 0) ∧
    (∃ r ∈ intervalFieldsOf (.intmidS 3 31 .dyn), r.toNat % 2 = 1) ∧
    formatOf (.intmidH 3 31 .dyn) = some .h ∧ ¬ (PairedRegisters sX.cfg ∧ Fmt.h = Fmt.s) ∧
    formatOf (.intmidS 3 31 .dyn) = some .s ∧ ¬ (PairedRegisters sF.cfg ∧ Fmt.s = Fmt.s) :=
  ⟨rfl, rfl, ⟨.rne, .inr ⟨rfl, rfl⟩⟩, ⟨rfl, rfl⟩, by decide, by decide, rfl,
    fun h => Fmt.noConfusion h.2, rfl, fun h => RegFile.noConfusion h.1.1⟩

/-- The mode is in force and neither form is reserved: in `x` pairs under RV32, and in `f` registers. -/
theorem test_witness_IntaddResult :
    sX.cfg.legal = true ∧ ModeInForce .dyn sX.frm .rne ∧
    ¬ ReservedHere sX (.intaddH 31 1 1 .dyn) ∧ ¬ ReservedHere sX (.intaddS 30 0 30 .dyn) :=
  ⟨by decide, .inr ⟨rfl, rfl⟩, not_reservedHere (by decide), not_reservedHere (by decide)⟩

theorem test_witness_IntsubResult :
    sX.cfg.legal = true ∧ ModeInForce .rmm sX.frm .rmm ∧
    ¬ ReservedHere sX (.intsubH 0 1 2 .rmm) ∧ ¬ ReservedHere sX (.intsubS 0 2 4 .rmm) :=
  ⟨by decide, .inl rfl, not_reservedHere (by decide), not_reservedHere (by decide)⟩

theorem test_witness_IntmulResult :
    sF.cfg.legal = true ∧ ModeInForce .rtz sF.frm .rtz ∧
    ¬ ReservedHere sF (.intmulH 0 31 2 .rtz) ∧ ¬ ReservedHere sF (.intmulS 31 1 2 .rtz) :=
  ⟨by decide, .inl rfl, not_reservedHere (by decide), not_reservedHere (by decide)⟩

theorem test_witness_IntdivResult :
    sF.cfg.legal = true ∧ ModeInForce .rup sF.frm .rup ∧
    ¬ ReservedHere sF (.intdivH 3 1 2 .rup) ∧ ¬ ReservedHere sF (.intdivS 3 1 2 .rup) ∧
    containsZero (readInterval sF .h 2) = true ∧
    containsZero (readInterval (stateOf cfgF64 [] [(2, 0x40003C00)]) .h 2) = false :=
  ⟨by decide, .inl rfl, not_reservedHere (by decide), not_reservedHere (by decide), by decide +kernel, by decide +kernel⟩

theorem test_witness_MidWdtRadResult :
    sX.cfg.legal = true ∧ ModeInForce .rdn sX.frm .rdn ∧
    ¬ ReservedHere sX (.intmidH 3 1 .rdn) ∧ ¬ ReservedHere sX (.intmidS 3 2 .rdn) ∧
    ¬ ReservedHere sX (.intwdtH 3 1 .rdn) ∧ ¬ ReservedHere sX (.intwdtS 3 2 .rdn) ∧
    ¬ ReservedHere sX (.intradH 3 1 .rdn) ∧ ¬ ReservedHere sX (.intradS 3 2 .rdn) :=
  ⟨by decide, .inl rfl, not_reservedHere (by decide), not_reservedHere (by decide), not_reservedHere (by decide),
    not_reservedHere (by decide), not_reservedHere (by decide), not_reservedHere (by decide)⟩

theorem test_witness_MinMaxCopyABound :
    sX.cfg.legal = true ∧ ¬ ReservedHere sX (.intminH 3 1 .rne) ∧ ¬ ReservedHere sX (.intminS 3 2 .rne) ∧
    ¬ ReservedHere sX (.intmaxH 3 1 .rne) ∧ ¬ ReservedHere sX (.intmaxS 3 2 .rne) ∧
    (∀ mode, ¬ ModeInForce .reserved5 sX.frm mode) ∧
    (∀ mode, ¬ ModeInForce .dyn ({ sX with frm := 5 } : State).frm mode) :=
  ⟨by decide, not_reservedHere (by decide), not_reservedHere (by decide), not_reservedHere (by decide),
    not_reservedHere (by decide), fun m => by cases m <;> unfold ModeInForce <;> decide,
    fun m => by cases m <;> unfold ModeInForce <;> decide⟩

theorem test_witness_BeforeMeetsResult :
    sX.cfg.legal = true ∧ ¬ ReservedHere sX (.intbfrH 0 1 31) ∧ ¬ ReservedHere sX (.intbfrS 31 0 30) ∧
    ¬ ReservedHere sX (.intmtsH 0 1 31) ∧ ¬ ReservedHere sX (.intmtsS 31 0 30) :=
  ⟨by decide, not_reservedHere (by decide), not_reservedHere (by decide), not_reservedHere (by decide),
    not_reservedHere (by decide)⟩

theorem test_witness_OverlapsDuringResult :
    sX.cfg.legal = true ∧ ¬ ReservedHere sX (.intovrH 0 1 31) ∧ ¬ ReservedHere sX (.intovrS 31 0 30) ∧
    ¬ ReservedHere sX (.intdurH 0 1 31) ∧ ¬ ReservedHere sX (.intdurS 31 0 30) :=
  ⟨by decide, not_reservedHere (by decide), not_reservedHere (by decide), not_reservedHere (by decide),
    not_reservedHere (by decide)⟩

theorem test_witness_StartsFinishesEqualResult :
    sF.cfg.legal = true ∧ ¬ ReservedHere sF (.intstrH 0 1 31) ∧ ¬ ReservedHere sF (.intstrS 31 1 30) ∧
    ¬ ReservedHere sF (.intfinH 0 1 31) ∧ ¬ ReservedHere sF (.intfinS 31 1 30) ∧
    ¬ ReservedHere sF (.inteqlH 0 1 31) ∧ ¬ ReservedHere sF (.inteqlS 31 1 30) :=
  ⟨by decide, not_reservedHere (by decide), not_reservedHere (by decide), not_reservedHere (by decide),
    not_reservedHere (by decide), not_reservedHere (by decide), not_reservedHere (by decide)⟩

theorem test_witness_CsrWriteResult : NamesCsr 0x001#12 ∧ NamesCsr 0x002#12 ∧ NamesCsr 0x003#12 := by
  unfold NamesCsr; decide

/-- The register number, or the immediate, 0 and not 0. -/
theorem test_witness_CsrSetResult : NamesCsr 0x001#12 ∧ (6#5 ≠ 0#5) ∧ (0#5 : Reg) = 0#5 := by
  unfold NamesCsr; decide

theorem test_witness_CsrClearResult : NamesCsr 0x003#12 ∧ (31#5 ≠ 0#5) ∧ (0#5 : Reg) = 0#5 := by
  unfold NamesCsr; decide

theorem test_witness_IntervalOperandReads :
    sF.cfg.regfile = .f .w64 ∧ (stateOf cfgX64 [] []).cfg.regfile = .x ∧ (stateOf cfgX64 [] []).cfg.xlen = .w64 ∧
    sX.cfg.regfile = .x ∧ sX.cfg.xlen = .w32 ∧ (0#5).toNat % 2 = 0 ∧ (30#5).toNat % 2 = 0 ∧ 30#5 ≠ 0#5 := by decide

theorem test_witness_WrittenIntervalReadsBack :
    sX.cfg.legal = true ∧ formatImplemented sX.cfg .s = true ∧ pairRegsOk sX.cfg .s [30] = true ∧ 30#5 ≠ 0#5 := by decide

theorem test_witness_BooleanResult : (3#5 ≠ 0#5) ∧ (0#5 : Reg) = 0#5 ∧ (4#5 ≠ 3#5) := by decide

theorem test_witness_RegisterFiles :
    (3#5 ≠ 0#5) ∧ (0#5 ≠ 3#5) ∧ sF.cfg.regfile = .f .w64 ∧ sX.cfg.regfile = .x := by decide

/-- A value that the format represents; an overflow in a mode to nearest (the tie) and in one that rounds down; a value that is
tiny after rounding, and one that is not though it is below the normal range; one that rounds to zero. -/
theorem test_witness_RoundingProperties :
    erOf (fmt := .h) 0x3800#16 = some (.fin (1 / 2)) ∧ (1 / 2 : Rat) ≠ 0 ∧
    (roundRat .h .rne 65520).2 &&& (flagOF ||| flagUF) ≠ 0#5 ∧
    RoundsToAtLeast .h .rne 65520 (emax .h + 1) ∧ ¬ TowardZero .rne 65520 ∧
    RoundsToAtLeast .h .rtz 65536 (emax .h + 1) ∧ TowardZero .rtz 65536 ∧
    ¬ RoundsToAtLeast .h .rtz 65520 (emax .h + 1) ∧
    RoundsToAtLeast .h .rne (1 / 16384 - 1 / 134217728) (emin .h) ∧
    ¬ RoundsToAtLeast .h .rtz (1 / 16384 - 1 / 134217728) (emin .h) ∧
    (roundRat .h .rtz (1 / 16384 - 1 / 134217728)).2 = flagNX ||| flagUF ∧
    erOf (roundRat .h .rtz (-1 / 100000000)).1 = some (.fin 0) := by
  refine ⟨by decide +kernel, by decide +kernel, by decide +kernel, .inr (.inr ⟨.inl rfl, ?_⟩), ?_, .inl ⟨.inl rfl, ?_⟩, .inl rfl,
    ?_, .inr (.inr ⟨.inl rfl, ?_⟩), ?_, by decide +kernel, by decide +kernel⟩
  · rw [abs_of_nonneg (by norm_num)]; decide +kernel
  · rintro (h | ⟨h, -⟩ | ⟨h, -⟩) <;> cases h
  · rw [abs_of_nonneg (by norm_num)]; decide +kernel
  · rintro (⟨-, h⟩ | ⟨⟨h, -⟩ | ⟨h, -⟩, -⟩ | ⟨h | h, -⟩)
    · rw [abs_of_nonneg (by norm_num)] at h; exact absurd h (by decide +kernel)
    all_goals cases h
  · rw [abs_of_nonneg (by norm_num)]; decide +kernel
  · rintro (⟨-, h⟩ | ⟨⟨h, -⟩ | ⟨h, -⟩, -⟩ | ⟨h | h, -⟩)
    · rw [abs_of_nonneg (by norm_num)] at h; exact absurd h (by decide +kernel)
    all_goals cases h

/-- A value between two data, one that rounds to zero, and a tie, which tells the two modes apart. -/
theorem test_witness_NearestIsNearest :
    (1 / 3 : Rat) ≠ 0 ∧ (roundRat .h .rmm (1 / 3)).2 &&& flagOF = 0#5 ∧
    (roundRat .h .rne (1 / 100000000)).2 &&& flagOF = 0#5 ∧
    (1 + 1 / 2048 : Rat) ≠ 0 ∧ (roundRat .h .rne (1 + 1 / 2048)) = (0x3C00#16, flagNX) ∧
    (roundRat .h .rmm (1 + 1 / 2048)) = (0x3C01#16, flagNX) ∧
    erOf (fmt := .h) 0x3C00#16 = some (.fin 1) ∧ erOf (fmt := .h) 0x3C01#16 = some (.fin (1 + 1 / 1024)) := by
  decide +kernel

theorem test_witness_OutwardIsTightest :
    (1 / 3 : Rat) ≠ 0 ∧ erOf (fmt := .h) 0x3555#16 = some (.fin (1365 / 4096)) ∧
    ER.le (.fin (1365 / 4096)) (.fin (1 / 3)) = true ∧ ER.le (.fin (1 / 3)) (.fin (683 / 2048)) = true ∧
    erOf (fmt := .h) 0x3556#16 = some (.fin (683 / 2048)) := by decide +kernel

theorem test_witness_ProducedNaNsAreCanonical :
    isNaN (fpAdd .h .rne 0x7C00#16 0xFC00#16).1 = true ∧ isNaN (fpSub .h .rne 0x7C00#16 0x7C00#16).1 = true ∧
    isNaN (fpDiv .h .rne 0x7D00#16 0x4000#16).1 = true := by decide +kernel

theorem test_witness_ComparisonPrimitives :
    isNaN (fmt := .h) 0x7E00#16 = true ∧ isNaN (fmt := .h) 0x7C00#16 = false ∧
    erOf (fmt := .h) 0x8000#16 = some (.fin 0) ∧ erOf (fmt := .h) 0xFC00#16 = some .ninf := by decide +kernel

theorem test_witness_ValidIntervalConditions : erOf (fmt := .h) 0xFBFF#16 = some (.fin (-65504)) := by decide +kernel

/-- `[1, 2]` and `[-1, 1]`, half precision -/
def oneTwo : Interval .h := { lo := 0x3C00#16, hi := 0x4000#16 }
def aroundZero : Interval .h := { lo := 0xBC00#16, hi := 0x3C00#16 }

theorem contains_one (I : Interval .h) (a b : Rat) (h : bounds I = some (.fin a, .fin b)) (ha : a ≤ 1) (hb : 1 ≤ b) :
    Contains I 1 :=
  ⟨_, _, h, by simp only [ER.AtMost]; exact_mod_cast ha, by simp only [ER.AtLeast]; exact_mod_cast hb⟩

theorem oneTwo_contains : Contains oneTwo 1 := contains_one _ 1 2 (by decide +kernel) (by norm_num) (by norm_num)

theorem aroundZero_contains : Contains aroundZero 1 :=
  contains_one _ (-1) 1 (by decide +kernel) (by norm_num) (by norm_num)

theorem test_witness_AdditionAndSubtractionContain :
    valid oneTwo = true ∧ valid aroundZero = true ∧ Contains oneTwo 1 ∧ Contains aroundZero 1 ∧
    bounds oneTwo = some (.fin 1, .fin 2) ∧ bounds aroundZero = some (.fin (-1), .fin 1) ∧
    valid (entire .h) = true ∧ bounds (entire .h) = some (.ninf, .pinf) :=
  ⟨by decide +kernel, by decide +kernel, oneTwo_contains, aroundZero_contains, by decide +kernel, by decide +kernel,
    by decide +kernel, by decide +kernel⟩

theorem test_witness_MultiplicationContains :
    valid aroundZero = true ∧ valid oneTwo = true ∧ Contains aroundZero 1 ∧ Contains oneTwo 1 ∧
    bounds aroundZero = some (.fin (-1), .fin 1) ∧ bounds oneTwo = some (.fin 1, .fin 2) :=
  ⟨by decide +kernel, by decide +kernel, aroundZero_contains, oneTwo_contains, by decide +kernel, by decide +kernel⟩

/-- The result and flags of half-precision intervals, by hand: `[1, 1] / [3, 3]` is inexact; `[65504, 65504] * [2, 2]` overflows
above; `[2^-24, 2^-24] * [2^-24, 2^-24]` underflows. -/
theorem test_reference_arithmetic_flags :
    refDiv .h .rne { lo := 0x3C00#16, hi := 0x3C00#16 } { lo := 0x4200#16, hi := 0x4200#16 } =
      ({ lo := 0x3555#16, hi := 0x3556#16 }, flagNX) ∧
    refMul .h .rne { lo := 0x7BFF#16, hi := 0x7BFF#16 } { lo := 0x4000#16, hi := 0x4000#16 } =
      ({ lo := 0x7BFF#16, hi := 0x7C00#16 }, flagOF ||| flagNX) ∧
    refMul .h .rne { lo := 0x0001#16, hi := 0x0001#16 } { lo := 0x0001#16, hi := 0x0001#16 } =
      ({ lo := 0x0000#16, hi := 0x0001#16 }, flagUF ||| flagNX) := by decide +kernel

theorem test_witness_DivisionContains :
    valid oneTwo = true ∧ valid aroundZero = true ∧ containsZero oneTwo = false ∧ containsZero aroundZero = true ∧
    Contains oneTwo 1 ∧ Contains aroundZero 1 ∧ (1 : ℝ) ≠ 0 :=
  ⟨by decide +kernel, by decide +kernel, by decide +kernel, by decide +kernel, oneTwo_contains, aroundZero_contains,
    one_ne_zero⟩

/-- The six cases of the table: a dividend that starts at zero, one that ends at zero and one with zero inside, over a positive
and over a negative divisor. -/
theorem test_witness_DivisionContains_cases :
    let minusTwoOne : Interval .h := { lo := 0xC000#16, hi := 0xBC00#16 }
    let zeroOne : Interval .h := { lo := 0x0000#16, hi := 0x3C00#16 }
    let minusOneZero : Interval .h := { lo := 0xBC00#16, hi := 0x0000#16 }
    (valid oneTwo = true ∧ bounds oneTwo = some (.fin 1, .fin 2) ∧ ER.lt (.fin 0) (.fin 1) = true) ∧
    (valid minusTwoOne = true ∧ bounds minusTwoOne = some (.fin (-2), .fin (-1)) ∧ ER.lt (.fin (-1)) (.fin 0) = true) ∧
    (valid zeroOne = true ∧ bounds zeroOne = some (.fin 0, .fin 1) ∧ ER.le (.fin 0) (.fin 0) = true) ∧
    (valid minusOneZero = true ∧ bounds minusOneZero = some (.fin (-1), .fin 0) ∧ ER.le (.fin 0) (.fin 0) = true) ∧
    (valid aroundZero = true ∧ bounds aroundZero = some (.fin (-1), .fin 1)) := by decide +kernel

theorem test_witness_InvalidOperandGivesNaNBounds :
    valid ({ lo := 0x4000#16, hi := 0x3C00#16 } : Interval .h) = false ∧ valid (nanInterval .h) = false ∧
    valid oneTwo = true ∧ valid aroundZero = true := by decide +kernel

/-- A divisor with zero at its end, one without, one with a NaN bound; a dividend that is valid and one that is not. -/
theorem test_witness_DivisionByAnIntervalWithZero :
    bounds ({ lo := 0x8000#16, hi := 0x3C00#16 } : Interval .h) = some (.fin 0, .fin 1) ∧
    ER.le (.fin 0) (.fin 0) = true ∧ ER.le (.fin 0) (.fin 1) = true ∧
    bounds oneTwo = some (.fin 1, .fin 2) ∧ ER.lt (.fin 0) (.fin 1) = true ∧ bounds (nanInterval .h) = none ∧
    valid oneTwo = true ∧ valid (nanInterval .h) = false ∧ containsZero aroundZero = true := by decide +kernel

/-- What R155 leaves of a free result: one too narrow is replaced, a wider one kept, and an empty flag set gets `DZ`. -/
theorem test_supported_results :
    withContainment oneTwo oneTwo (refAdd .h .rne oneTwo oneTwo) (oneTwo, flagNX)
      = ({ lo := 0x4000#16, hi := 0x4400#16 }, flagNX) ∧
    withContainment oneTwo oneTwo (refAdd .h .rne oneTwo oneTwo) (entire .h, flagNX) = (entire .h, flagNX) ∧
    withFlag (oneTwo, noFlags) = (oneTwo, flagDZ) ∧ withFlag (oneTwo, flagNV) = (oneTwo, flagNV) := by decide +kernel

theorem test_witness_ZeroTimesAnyIntervalIsZero :
    bounds ({ lo := 0x8000#16, hi := 0x0000#16 } : Interval .h) = some (.fin 0, .fin 0) ∧ valid (entire .h) = true := by
  decide +kernel

theorem test_witness_WidthOfAnInterval :
    valueOf (fmt := .h) 0x8000#16 = .num true 0 ∧ valueOf (fmt := .h) 0x0000#16 = .num false 0 ∧
    valueOf (fmt := .h) 0x7BFF#16 = .num false 65504 ∧ isSignaling (fmt := .h) 0x7D00#16 = true ∧
    isNaN (fmt := .h) 0x7E00#16 = true ∧ valueOf (fmt := .h) 0xFC00#16 = .inf true ∧
    valueOf (fmt := .h) 0x7C00#16 = .inf false := by decide +kernel

/-- A datum whose half is the least normal number, and one whose half is subnormal; a sum of numbers and an exact zero sum; zeros,
infinities and NaNs. -/
theorem test_witness_MidpointAndRadiusHalve :
    erOf (fmt := .h) 0x0800#16 = some (.fin (1 / 8192)) ∧ pow2 (emin .h) ≤ |((1 / 8192 : Rat)) / 2| ∧
    erOf (fmt := .h) 0x0001#16 = some (.fin (1 / 16777216)) ∧
    valueOf (fmt := .h) 0x3C00#16 = .num false 1 ∧ valueOf (fmt := .h) 0xBC00#16 = .num true (-1) ∧
    valueOf (fmt := .h) 0x8000#16 = .num true 0 ∧ valueOf (fmt := .h) 0x7C00#16 = .inf false ∧
    valueOf (fmt := .h) 0xFC00#16 = .inf (!false) ∧ isNaN (fmt := .h) 0x7D00#16 = true := by
  refine ⟨by decide +kernel, ?_, by decide +kernel⟩
  rw [abs_of_nonneg (by norm_num)]; decide +kernel

theorem test_witness_ReferenceRelations :
    bounds oneTwo = some (.fin 1, .fin 2) ∧ bounds (entire .h) = some (.ninf, .pinf) ∧
    isNaN (fmt := .h) 0x4000#16 = false ∧ bounds (nanInterval .h) = none := by decide +kernel

theorem test_witness_ReferenceRelationFlags :
    (refBefore .h oneTwo (nanInterval .h)).2 = flagNV ∧ bounds oneTwo ≠ none ∧ bounds aroundZero ≠ none := by
  decide +kernel

theorem test_witness_AllenRelationsAreExclusive :
    bounds oneTwo = some (.fin 1, .fin 2) ∧ bounds aroundZero = some (.fin (-1), .fin 1) ∧
    ER.lt (.fin 1) (.fin 2) = true ∧ ER.lt (.fin (-1)) (.fin 1) = true := by decide +kernel

theorem test_witness_StepKeepsInvariant :
    (place sX 0x0020818B#32).Inv ∧ ∃ t, step (place sX 0x0020818B#32) = .next t :=
  ⟨by decide +kernel, next_of_isNext (by decide +kernel)⟩

theorem test_witness_ProgramIsImmutable : ∃ t, step (place sF 0x00331073#32) = .next t :=
  next_of_isNext (by decide +kernel)

/-- The last word of the RV32 address space, and a reserved pair. -/
theorem test_witness_PcAdvancesByFour :
    (∃ t, exec (.csrrw 0 0x003 6) { sX with pc := 0xFFFFFFFC } = .next t) ∧
    exec (.intmidS 3 1 .rne) sX = .fault (.illegalInstruction 0x1000 0x4200818B#32) :=
  ⟨next_of_isNext (by decide +kernel), rfl⟩

/-- An instruction of the extension that completes, and a CSR instruction that clears a flag. -/
theorem test_witness_FlagsAreSticky :
    (∃ t, exec (.intbfrH 3 1 2) sF = .next t) ∧ formatOf (.intbfrH 3 1 2) ≠ none ∧
    ∃ t, exec (.csrrwi 0 0x001 1) { sF with fflags := 0b10010 } = .next t ∧ 0b10010#5 &&& t.fflags ≠ 0b10010#5 :=
  ⟨next_of_isNext (by decide +kernel), by decide, _, rfl, by decide⟩

theorem test_witness_FrmIsReadOnlyUnderDyn :
    formatOf (.intaddH 3 1 2 .rup) ≠ none ∧ rmFieldOf (.intaddH 3 1 2 .rup) ≠ some .dyn ∧
    rmFieldOf (.intbfrH 3 1 2) ≠ some .dyn ∧ (∃ t, exec (.intaddH 3 1 2 .rup) sF = .next t) ∧
    ∃ t, exec (.intbfrH 3 1 2) { sF with frm := 7 } = .next t :=
  ⟨by decide, by decide, by decide, next_of_isNext (by decide +kernel), next_of_isNext (by decide +kernel)⟩

theorem test_witness_NoXRegisterIsReadUnderF :
    sF.cfg.regfile = .f .w64 ∧ formatOf (.inteqlS 3 1 2) ≠ none ∧ formatOf (.intmaxS 3 1 .rne) ≠ none ∧
    rmFieldOf (.intmaxS 3 1 .rne) ≠ none ∧ (∃ t, exec (.inteqlS 3 1 2) sF = .next t) ∧
    ∃ t, exec (.intmaxS 3 1 .rne) sF = .next t :=
  ⟨rfl, by decide, by decide, by decide, next_of_isNext (by decide +kernel), next_of_isNext (by decide +kernel)⟩

theorem test_witness_DivideByZeroFlagOnlyFromDivision :
    sF.cfg.num = .reference ∧ formatOf (.intdivH 3 1 2 .rne) ≠ none ∧ sF.fflags &&& flagDZ = 0#5 ∧
    (∃ t, exec (.intdivH 3 1 2 .rne) sF = .next t) ∧ containsZero (readInterval sF .h 2) = true ∧
    ∃ t, exec (.intmulH 3 1 2 .rne) sF = .next t :=
  ⟨rfl, by decide, by decide, next_of_isNext (by decide +kernel), by decide +kernel, next_of_isNext (by decide +kernel)⟩

theorem test_witness_ArithmeticIgnoresTheRoundingMode :
    sF.cfg.num = .reference ∧ ModeInForce .rtz sF.frm .rtz ∧ ModeInForce .dyn sF.frm .rne ∧
    (∃ t, exec (.intaddH 3 1 2 .rtz) sF = .next t) ∧ (∃ t, exec (.intaddS 3 1 2 .rtz) sF = .next t) ∧
    (∃ t, exec (.intsubH 3 1 2 .rtz) sF = .next t) ∧ (∃ t, exec (.intsubS 3 1 2 .rtz) sF = .next t) ∧
    (∃ t, exec (.intmulH 3 1 2 .rtz) sF = .next t) ∧ (∃ t, exec (.intmulS 3 1 2 .rtz) sF = .next t) ∧
    (∃ t, exec (.intdivH 3 1 2 .rtz) sF = .next t) ∧ ∃ t, exec (.intdivS 3 1 2 .rtz) sF = .next t :=
  ⟨rfl, .inl rfl, .inr ⟨rfl, rfl⟩, next_of_isNext (by decide +kernel), next_of_isNext (by decide +kernel),
    next_of_isNext (by decide +kernel), next_of_isNext (by decide +kernel), next_of_isNext (by decide +kernel),
    next_of_isNext (by decide +kernel), next_of_isNext (by decide +kernel), next_of_isNext (by decide +kernel)⟩

/-- An address just below and one just above the placed word. -/
theorem test_witness_PlacedInstructionRunsNext :
    sF.cfg.legal = true ∧ sF.pc.toNat % 4 = 0 ∧ 0xFFF < sF.pc.toNat ∧ sF.pc.toNat + 4 ≤ 0x1004 := by decide


end Sys2Proof.Tests
end

/-! The scope of the model: the legal configurations of R10, and what no step changes (R9, R70). -/

namespace Sys2Proof

/-- The rule of R10 in words: at least one format, and no single precision in 32-bit `f` registers. -/
theorem Config.legal_iff (c : Config) :
    c.legal = true ↔ (c.hasH = true ∨ c.hasS = true) ∧ (c.regfile = .f .w32 → c.hasS = false) := by
  unfold Config.legal
  split <;> simp [*]

/-- The numerics record plays no part in what is legal (R10), so one count serves for every `NUM`. -/
theorem Config.legal_eq_legal_reference (num : NumChoice) (xlen : Width) (regfile : RegFile) (hasH hasS : Bool) :
    Config.legal { xlen, regfile, hasH, hasS, num } = Config.legal { xlen, regfile, hasH, hasS, num := .reference } := rfl

/-- The rule of R10 against its list, one register file at a time. -/
theorem Config.legal_iff_mem (c : Config) :
    c.legal = true ↔ (c.regfile, c.hasH, c.hasS) ∈
      [(RegFile.f .w32, true, false), (.f .w64, true, false), (.f .w64, false, true), (.f .w64, true, true),
        (.x, true, false), (.x, false, true), (.x, true, true)] := by
  rw [Config.legal_iff]
  generalize c.regfile = regfile, c.hasH = hasH, c.hasS = hasS
  match regfile with
  | .f .w32 => revert hasH hasS; decide
  | .f .w64 => revert hasH hasS; decide
  | .x => revert hasH hasS; decide

end Sys2Proof

namespace Sys2Proof.Machine

/-- No instruction stores to memory or changes the configuration: each of the four shapes of a next state writes registers,
flags, `frm` and `pc` only. -/
theorem exec_next_mem_cfg {i : Instr} {s t : State} (h : exec i s = .next t) : t.mem = s.mem ∧ t.cfg = s.cfg := by
  obtain ⟨fmt, rd, z, fl, rfl⟩ | ⟨fmt, rd, v, fl, rfl⟩ | ⟨rd, b, fl, rfl⟩ | ⟨c, rd, v, write, rfl⟩ := exec_next_shape h
  · simp
  · simp
  · simp
  · cases write <;> simp

end Sys2Proof.Machine

section
open Sys2Proof Sys2Proof.Machine

/-- Settles O53: a step that completes is one instruction, and no instruction changes memory or the configuration. -/
theorem programIsImmutable : Obligations.ProgramIsImmutable := by
  intro s t h
  obtain ⟨_, i, _, hexec⟩ := step_eq_next.1 h
  exact exec_next_mem_cfg hexec

/-- Settles O9: the list is `Config.legal_iff_mem`; the count is made once, at the reference numerics, since legality does
not read `NUM`. -/
theorem fourteenLegalConfigurations : Obligations.FourteenLegalConfigurations := by
  refine ⟨Config.legal_iff_mem, fun num => ?_⟩
  simp only [List.filter_map, List.length_map, Function.comp_def, Config.legal_eq_legal_reference num]
  decide

end

/-! The invariant of a well-formed state (R271): each operation on the state keeps it, and so does every instruction. -/

namespace Sys2Proof.Machine

/-- The invariant, clause by clause. -/
theorem State.inv_iff {s : State} :
    s.Inv ↔ s.cfg.legal = true ∧ fileFits s.cfg.xlen s.x = true ∧ s.x[0] = 0#64 ∧
      fFileOk s.cfg.regfile s.f = true ∧ s.pc.toNat < 2 ^ s.cfg.xlen.bits ∧ s.pc.toNat % 4 = 0 ∧
      Memory.wf s.mem = true ∧ ∀ c ∈ s.mem, c.1 < 2 ^ s.cfg.xlen.bits := by
  simp [State.Inv, State.wf, and_assoc]

/-- A write to an `x` register keeps the width of the file, and `x0` is not written (R20). -/
theorem State.Inv.writeX {s : State} (h : s.Inv) (r : Reg) (v : Word) : (writeX s r v).Inv := by
  by_cases h0 : r = 0#5
  · simpa [Machine.writeX, h0] using h
  · obtain ⟨hlegal, hx, hx0, hf, hpc, halign, hmem, haddr⟩ := State.inv_iff.1 h
    have hslot : r.toNat ≠ 0 := reg_toNat_ne h0
    refine State.inv_iff.2 ⟨?_, ?_, ?_, ?_, ?_, ?_, ?_, ?_⟩
    all_goals simp only [Machine.writeX, h0, if_false]
    · exact hlegal
    · exact fileFits_set hx _ r.isLt _ (truncTo_toNat_lt _ _)
    · rw [Vector.getElem_set_ne _ _ hslot]; exact hx0
    all_goals assumption

/-- A write to an `f` register keeps the width of the file; under `REGFILE = X` there is none (R23, R24). -/
theorem State.Inv.writeF {s : State} (h : s.Inv) (r : Reg) (v : Word) : (writeF s r v).Inv := by
  cases hregs : s.cfg.regfile with
  | x => rwa [writeF_of_x hregs]
  | f flen =>
    obtain ⟨hlegal, hx, hx0, hf, hpc, halign, hmem, haddr⟩ := State.inv_iff.1 h
    rw [hregs] at hf
    refine State.inv_iff.2 ⟨?_, ?_, ?_, ?_, ?_, ?_, ?_, ?_⟩
    all_goals simp only [Machine.writeF, hregs]
    case refine_4 => exact fileFits_set hf _ r.isLt _ (truncTo_toNat_lt _ _)
    all_goals assumption

theorem State.Inv.accrueFlags {s : State} (h : s.Inv) (fl : FlagSet) : (accrueFlags s fl).Inv := h

theorem State.Inv.csrWrite {s : State} (h : s.Inv) (c : Csr) (v : Word) : (csrWrite s c v).Inv := by
  cases c <;> exact h

/-- `2^XLEN` is a multiple of 4, so `pc + 4` stays aligned when it wraps (R25, R26). -/
theorem State.Inv.advancePc {s : State} (h : s.Inv) : (advancePc s).Inv := by
  obtain ⟨hlegal, hx, hx0, hf, -, halign, hmem, haddr⟩ := State.inv_iff.1 h
  refine State.inv_iff.2 ⟨hlegal, hx, hx0, hf, truncTo_toNat_lt _ _, ?_, hmem, haddr⟩
  rw [advancePc_pc, truncTo_add_four]
  cases s.cfg.xlen <;> simp only [Width.bits] <;> omega

theorem State.Inv.writeInterval {s : State} (h : s.Inv) (fmt : Fmt) (r : Reg) (I : Interval fmt) :
    (writeInterval s fmt r I).Inv := by
  cases hregs : s.cfg.regfile with
  | f flen => rw [writeInterval_of_f hregs]; exact h.writeF _ _
  | x =>
    cases hp : pairing s.cfg fmt with
    | false => rw [writeInterval_of_single hregs hp]; exact h.writeX _ _
    | true =>
      rw [writeInterval_of_pair hp]
      split
      · exact h
      · exact (h.writeX _ _).writeX _ _

theorem State.Inv.writeScalar {s : State} (h : s.Inv) (fmt : Fmt) (r : Reg) (v : Datum fmt) :
    (writeScalar s fmt r v).Inv := by
  unfold Machine.writeScalar
  split
  · exact h.writeF _ _
  · exact h.writeX _ _

/-- Every instruction keeps the invariant: its next state has one of four shapes, each composed of operations that keep
it. -/
theorem exec_next_inv {i : Instr} {s t : State} (hs : s.Inv) (h : exec i s = .next t) : t.Inv := by
  obtain ⟨fmt, rd, z, fl, rfl⟩ | ⟨fmt, rd, v, fl, rfl⟩ | ⟨rd, b, fl, rfl⟩ | ⟨c, rd, v, write, rfl⟩ := exec_next_shape h
  · exact ((hs.writeInterval fmt rd z).accrueFlags fl).advancePc
  · exact ((hs.writeScalar fmt rd v).accrueFlags fl).advancePc
  · exact ((hs.writeX rd _).accrueFlags fl).advancePc
  · cases write with
    | false => exact (hs.writeX rd _).advancePc
    | true => exact ((hs.csrWrite c v).writeX rd _).advancePc

end Sys2Proof.Machine

section
open Sys2Proof Sys2Proof.Machine

/-- Settles O50: a step that completes is one instruction, and every instruction keeps the invariant. -/
theorem stepKeepsInvariant : Obligations.StepKeepsInvariant := by
  intro s t hs h
  obtain ⟨_, i, _, hexec⟩ := step_eq_next.1 h
  exact exec_next_inv hs hexec

end

/-! Reading and writing operands (R20, R23, R28 to R34): what an interval operand reads as by configuration, and the bits that
survive the narrowing and widening of a register write. -/

namespace Sys2Proof.Machine

/-- The width cut of a register write, as arithmetic (R20, R23). -/
theorem truncTo_toNat (w : Width) (v : Word) : (truncTo w v).toNat = v.toNat % 2 ^ w.bits := by
  cases w with
  | w32 => exact truncTo_w32_toNat v
  | w64 => exact (Nat.mod_eq_of_lt v.isLt).symm

/-! ## The low bits of a stored word (R29) -/

/-- The width cut keeps the bits of an operand that fits the register. -/
theorem setWidth_truncTo {w : Width} {n : Nat} (h : n ≤ w.bits) (v : Word) :
    (truncTo w v).setWidth n = v.setWidth n := by
  cases w with
  | w32 => rw [truncTo, BitVec.setWidth_setWidth_of_le _ (h.trans (by decide)), BitVec.setWidth_setWidth_of_le _ h]
  | w64 => rfl

/-- The ones that NaN-boxing adds lie above the value. -/
theorem setWidth_nanBox {n : Nat} (h : n ≤ 64) (v : BitVec n) : (nanBox v).setWidth n = v := by
  apply BitVec.eq_of_getLsbD_eq
  intro i hi
  rw [BitVec.getLsbD_setWidth, getLsbD_nanBox v i (by omega)]
  simp [hi]

/-- The copies of the sign bit lie above the value. -/
theorem setWidth_signExtend {n : Nat} (h : n ≤ 64) (v : BitVec n) : (v.signExtend 64).setWidth n = v := by
  apply BitVec.eq_of_getLsbD_eq
  intro i hi
  rw [BitVec.getLsbD_setWidth, BitVec.getLsbD_signExtend]
  simp [hi, show i < 64 by omega]

/-- One half of a pair, in a register of 32 bits (R33). -/
theorem setWidth_truncTo_setWidth (v : Datum .s) : (truncTo .w32 (v.setWidth 64)).setWidth Fmt.s.w = v :=
  calc
    (truncTo .w32 (v.setWidth 64)).setWidth Fmt.s.w = (v.setWidth 64).setWidth Fmt.s.w :=
      setWidth_truncTo (w := .w32) le_rfl _
    _ = v.setWidth Fmt.s.w := BitVec.setWidth_setWidth_of_le v (by decide)
    _ = v := BitVec.setWidth_eq v

/-! ## `ReadInterval` by configuration (R30) -/

theorem readInterval_of_f {s : State} {flen : Width} (h : s.cfg.regfile = .f flen) (fmt : Fmt) (r : Reg) :
    readInterval s fmt r = intervalOfBits fmt ((readF s r).setWidth _) := by
  simp [readInterval, h]

theorem readInterval_of_single {s : State} {fmt : Fmt} (h : s.cfg.regfile = .x) (hp : pairing s.cfg fmt = false)
    (r : Reg) : readInterval s fmt r = intervalOfBits fmt ((readX s r).setWidth _) := by
  simp [readInterval, h, hp]

theorem readInterval_of_pair {s : State} {fmt : Fmt} (hp : pairing s.cfg fmt = true) (r : Reg) :
    readInterval s fmt r =
      if r = 0#5 then { lo := 0, hi := 0 }
      else { lo := (readX s r).setWidth _, hi := (readX s (r + 1#5)).setWidth _ } := by
  have hx := ((pairing_eq_true _ _).1 hp).1
  simp [readInterval, hx, hp]

/-- The bits of an interval read from one `f` register. -/
theorem bits_readInterval_of_f {s : State} {flen : Width} (h : s.cfg.regfile = .f flen) (fmt : Fmt) (r : Reg) :
    Interval.bits (readInterval s fmt r) = (readF s r).setWidth _ := by
  rw [readInterval_of_f h, bits_intervalOfBits]

/-- The bits of an interval read from one `x` register. -/
theorem bits_readInterval_of_single {s : State} {fmt : Fmt} (h : s.cfg.regfile = .x) (hp : pairing s.cfg fmt = false)
    (r : Reg) : Interval.bits (readInterval s fmt r) = (readX s r).setWidth _ := by
  rw [readInterval_of_single h hp, bits_intervalOfBits]

/-! ## An interval read back from where it was written (R28 to R33) -/

/-- A register holds the `2w` bits of an interval, a single-precision one when it is 64 bits wide (R29). -/
theorem interval_fits {fmt : Fmt} {width : Width} (h : fmt = .s → width = .w64) : fmt.w + fmt.w ≤ width.bits := by
  cases fmt with
  | h => cases width <;> decide
  | s => obtain rfl := h rfl; decide

/-- In one `f` register: the boxed interval is cut to `FLEN` bits, which hold it. -/
theorem readInterval_writeInterval_of_f {s : State} {flen : Width} (h : s.cfg.regfile = .f flen) {fmt : Fmt}
    (hs : fmt = .s → flen = .w64) (r : Reg) (I : Interval fmt) :
    readInterval (writeInterval s fmt r I) fmt r = I := by
  have h64 : fmt.w + fmt.w ≤ 64 := interval_fits (width := .w64) fun _ => rfl
  rw [readInterval_of_f (by rw [writeInterval_cfg]; exact h), writeInterval_of_f h, readF_writeF h, if_pos rfl,
    setWidth_truncTo (interval_fits hs), setWidth_nanBox h64, intervalOfBits_bits]

/-- In one `x` register: the sign-extended interval is cut to `XLEN` bits, which hold it. -/
theorem readInterval_writeInterval_of_single {s : State} {fmt : Fmt} (h : s.cfg.regfile = .x)
    (hp : pairing s.cfg fmt = false) {r : Reg} (hr : r ≠ 0#5) (I : Interval fmt) :
    readInterval (writeInterval s fmt r I) fmt r = I := by
  have h64 : fmt.w + fmt.w ≤ 64 := interval_fits (width := .w64) fun _ => rfl
  have hs : fmt = .s → s.cfg.xlen = .w64 := by
    rintro rfl
    cases hxlen : s.cfg.xlen with
    | w64 => rfl
    | w32 => simp [pairing, h, hxlen] at hp
  rw [readInterval_of_single (by rw [writeInterval_cfg]; exact h) (by rw [writeInterval_cfg]; exact hp),
    writeInterval_of_single h hp, readX_writeX, if_pos ⟨rfl, hr⟩, setWidth_truncTo (interval_fits hs),
    setWidth_signExtend h64, intervalOfBits_bits]

/-- The second register of an even pair is neither the first nor `x0`. -/
theorem succ_ne_of_even {r : Reg} (h : r.toNat % 2 = 0) : r + 1#5 ≠ r ∧ r + 1#5 ≠ 0#5 := by
  revert r; decide

/-- In a pair: each half is cut to the 32 bits it has (R33). -/
theorem readInterval_writeInterval_of_pair {s : State} {fmt : Fmt} (hp : pairing s.cfg fmt = true) {r : Reg}
    (heven : r.toNat % 2 = 0) (hr : r ≠ 0#5) (I : Interval fmt) :
    readInterval (writeInterval s fmt r I) fmt r = I := by
  obtain ⟨-, hxlen, rfl⟩ := (pairing_eq_true _ _).1 hp
  obtain ⟨hne, hne0⟩ := succ_ne_of_even heven
  have hlo : readX (writeInterval s .s r I) r = truncTo .w32 (I.lo.setWidth 64) := by
    rw [writeInterval_of_pair hp, if_neg hr, readX_writeX, if_neg fun h => hne h.1.symm, readX_writeX,
      if_pos ⟨rfl, hr⟩, hxlen]
  have hhi : readX (writeInterval s .s r I) (r + 1#5) = truncTo .w32 (I.hi.setWidth 64) := by
    rw [writeInterval_of_pair hp, if_neg hr, readX_writeX, if_pos ⟨rfl, hne0⟩, writeX_cfg, hxlen]
  rw [readInterval_of_pair (by rw [writeInterval_cfg]; exact hp), if_neg hr, hlo, hhi, setWidth_truncTo_setWidth,
    setWidth_truncTo_setWidth]

end Sys2Proof.Machine

section
open Sys2Proof Sys2Proof.Machine

/-- Settles O28, by register file and then by format and `XLEN`: one register of the file, or a pair. -/
theorem intervalOperandReads : Obligations.IntervalOperandReads := by
  intro s r
  refine ⟨fun flen hf => ⟨?_, ?_⟩, fun hx => ⟨?_, fun hxlen => ?_, fun hxlen _ => ?_⟩⟩
  · exact (bits_readInterval_of_f hf .h r).trans (BitVec.setWidth_eq_extractLsb' (by decide))
  · exact (bits_readInterval_of_f hf .s r).trans (BitVec.setWidth_eq _)
  · exact (bits_readInterval_of_single hx (pairing_h _) r).trans (BitVec.setWidth_eq_extractLsb' (by decide))
  · have hp : pairing s.cfg .s = false := by simp [pairing, hxlen]
    exact (bits_readInterval_of_single hx hp r).trans (BitVec.setWidth_eq _)
  · have hp : pairing s.cfg .s = true := (pairing_eq_true _ _).2 ⟨hx, hxlen, rfl⟩
    rw [readInterval_of_pair hp]
    refine ⟨fun hr => ?_, fun hr => ?_⟩
    · rw [if_pos hr]; rfl
    · rw [if_neg hr, ← BitVec.setWidth_eq_extractLsb' (by decide), ← BitVec.setWidth_eq_extractLsb' (by decide)]

/-- Settles O29, by where the interval lives: one `f` register, one `x` register, or an even pair. -/
theorem writtenIntervalReadsBack : Obligations.WrittenIntervalReadsBack := by
  intro s fmt r I hlegal hfmt hpair hr
  cases hregs : s.cfg.regfile with
  | f flen =>
    refine readInterval_writeInterval_of_f hregs ?_ r I
    rintro rfl
    cases flen with
    | w64 => rfl
    | w32 => exact absurd ((s.cfg.legal_iff.1 hlegal).2 hregs) ((formatImplemented_s _).1 hfmt)
  | x =>
    cases hp : pairing s.cfg fmt with
    | false => exact readInterval_writeInterval_of_single hregs hp (hr hregs) I
    | true =>
      refine readInterval_writeInterval_of_pair hp ?_ (hr hregs) I
      have heven : ¬ r.getLsbD 0 = true := by simpa [pairRegsOk, hp] using hpair
      rw [reg_odd_iff] at heven
      omega

/-- Settles O31, one register law per clause; the last write is cut to the width by `truncTo`. -/
theorem registerFiles : Obligations.RegisterFiles := by
  intro s r q v
  refine ⟨readX_zero s, if_pos rfl, fun hr => ?_, fun hq => ?_, fun flen hf => ?_, fun hq => ?_,
    fun hx => writeF_of_x hx r v⟩
  · rw [readX_writeX, if_pos ⟨rfl, hr⟩, truncTo_toNat]
  · rw [readX_writeX, if_neg fun h => hq h.1]
  · rw [readF_writeF hf, if_pos rfl, truncTo_toNat]
  · cases hregs : s.cfg.regfile with
    | f flen => rw [readF_writeF hregs, if_neg hq]
    | x => rw [writeF_of_x hregs]

/-- Settles O30: a write of 1 or 0, which every width holds. -/
theorem booleanResult : Obligations.BooleanResult := by
  intro s r b
  refine ⟨fun hr => ?_, fun hr => if_pos hr, fun q hq => ?_, fun q => readF_writeX ..⟩
  · rw [writeBool, readX_writeX, if_pos ⟨rfl, hr⟩]
    cases b <;> cases s.cfg.xlen <;> rfl
  · rw [writeBool, readX_writeX, if_neg fun h => hq h.1]

/-- Settles O52: both register files are zeros at reset, and the memory lists no byte. -/
theorem resetState : Obligations.ResetState := by
  have hx (r : Reg) : readX State.reset r = 0#64 := by revert r; decide
  have hf (r : Reg) : readF State.reset r = 0#64 := by revert r; decide
  exact ⟨readX_zero _, rfl, fun r => ⟨hx r, hf r⟩, rfl, rfl, fun _ => rfl⟩

end

/-! What an instruction depends on (R21, R26, R37, R38, R90): each instruction as its family's shared operation, over every
state at once, and from that what a run from a state with another `pc`, `frm` or `x` file does. -/

namespace Sys2Proof.Machine

/-! ## The family of an instruction -/

/-- The instruction is one of the six CSR instructions, with this destination, CSR number and operand (R221). -/
def IsCsrInstr (i : Instr) (rd : Reg) (csr : CsrNumber) (op : BitVec 5) : Prop :=
  i = .csrrw rd csr op ∨ i = .csrrs rd csr op ∨ i = .csrrc rd csr op ∨
    i = .csrrwi rd csr op ∨ i = .csrrsi rd csr op ∨ i = .csrrci rd csr op

/-- The instruction is, in every state, the shared operation of its family (R150, R170, R190, R222) with the same operands and
the same function of the numerics record; a CSR instruction's new value is a function of the `x` registers. -/
inductive Family (i : Instr) : Prop
  | arithmetic {word : InstrWord} {fmt : Fmt}
      {op : Sys2Proof.Num → Mode → Interval fmt → Interval fmt → Interval fmt × FlagSet} {rd rs1 rs2 : Reg} {rm : Rm}
      (hfmt : formatOf i = some fmt) (hrm : rmFieldOf i = some rm)
      (hexec : ∀ s, exec i s = Machine.arithmetic word fmt (op (numOf s.cfg.num)) rd rs1 rs2 rm s)
  | statistical {word : InstrWord} {fmt : Fmt} {fn : Sys2Proof.Num → Mode → Interval fmt → Datum fmt × FlagSet}
      {rd rs1 : Reg} {rm : Rm}
      (hfmt : formatOf i = some fmt) (hrm : rmFieldOf i = some rm)
      (hexec : ∀ s, exec i s = Machine.statistical word fmt (fn (numOf s.cfg.num)) rd rs1 rm s)
  | temporal {word : InstrWord} {fmt : Fmt} {rel : Sys2Proof.Num → Interval fmt → Interval fmt → Bool × FlagSet}
      {rd rs1 rs2 : Reg}
      (hfmt : formatOf i = some fmt) (hrm : rmFieldOf i = none)
      (hexec : ∀ s, exec i s = Machine.temporal word fmt (rel (numOf s.cfg.num)) rd rs1 rs2 s)
  | csr {word : InstrWord} {csr : CsrNumber} {rd : Reg} {op : BitVec 5} {write : Bool}
      {newValue : (Reg → Word) → Word → Word}
      (hcsr : IsCsrInstr i rd csr op) (hfmt : formatOf i = none) (hrm : rmFieldOf i = none)
      (hexec : ∀ s, exec i s = csrAccess word csr rd write (newValue (readX s)) s)

/-- Every instruction belongs to a family. -/
theorem family (i : Instr) : Family i := by
  cases i with
  | intaddH rd rs1 rs2 rm => exact .arithmetic rfl rfl (op := fun n => n.intervalAdd .h) fun _ => rfl
  | intsubH rd rs1 rs2 rm => exact .arithmetic rfl rfl (op := fun n => n.intervalSub .h) fun _ => rfl
  | intmulH rd rs1 rs2 rm => exact .arithmetic rfl rfl (op := fun n => n.intervalMul .h) fun _ => rfl
  | intdivH rd rs1 rs2 rm => exact .arithmetic rfl rfl (op := fun n => divideDispatch n .h) fun _ => rfl
  | intmidH rd rs1 rm => exact .statistical rfl rfl (fn := fun n => n.mid .h) fun _ => rfl
  | intwdtH rd rs1 rm => exact .statistical rfl rfl (fn := fun n => n.wdt .h) fun _ => rfl
  | intradH rd rs1 rm => exact .statistical rfl rfl (fn := fun n => n.rad .h) fun _ => rfl
  | intminH rd rs1 rm => exact .statistical rfl rfl (fn := fun _ => lowerCopy .h) fun _ => rfl
  | intmaxH rd rs1 rm => exact .statistical rfl rfl (fn := fun _ => upperCopy .h) fun _ => rfl
  | intbfrH rd rs1 rs2 => exact .temporal rfl rfl (rel := fun n => n.before .h) fun _ => rfl
  | intmtsH rd rs1 rs2 => exact .temporal rfl rfl (rel := fun n => n.meets .h) fun _ => rfl
  | intovrH rd rs1 rs2 => exact .temporal rfl rfl (rel := fun n => n.overlaps .h) fun _ => rfl
  | intdurH rd rs1 rs2 => exact .temporal rfl rfl (rel := fun n => n.during .h) fun _ => rfl
  | intstrH rd rs1 rs2 => exact .temporal rfl rfl (rel := fun n => n.starts .h) fun _ => rfl
  | intfinH rd rs1 rs2 => exact .temporal rfl rfl (rel := fun n => n.finishes .h) fun _ => rfl
  | inteqlH rd rs1 rs2 => exact .temporal rfl rfl (rel := fun n => n.equal .h) fun _ => rfl
  | intaddS rd rs1 rs2 rm => exact .arithmetic rfl rfl (op := fun n => n.intervalAdd .s) fun _ => rfl
  | intsubS rd rs1 rs2 rm => exact .arithmetic rfl rfl (op := fun n => n.intervalSub .s) fun _ => rfl
  | intmulS rd rs1 rs2 rm => exact .arithmetic rfl rfl (op := fun n => n.intervalMul .s) fun _ => rfl
  | intdivS rd rs1 rs2 rm => exact .arithmetic rfl rfl (op := fun n => divideDispatch n .s) fun _ => rfl
  | intmidS rd rs1 rm => exact .statistical rfl rfl (fn := fun n => n.mid .s) fun _ => rfl
  | intwdtS rd rs1 rm => exact .statistical rfl rfl (fn := fun n => n.wdt .s) fun _ => rfl
  | intradS rd rs1 rm => exact .statistical rfl rfl (fn := fun n => n.rad .s) fun _ => rfl
  | intminS rd rs1 rm => exact .statistical rfl rfl (fn := fun _ => lowerCopy .s) fun _ => rfl
  | intmaxS rd rs1 rm => exact .statistical rfl rfl (fn := fun _ => upperCopy .s) fun _ => rfl
  | intbfrS rd rs1 rs2 => exact .temporal rfl rfl (rel := fun n => n.before .s) fun _ => rfl
  | intmtsS rd rs1 rs2 => exact .temporal rfl rfl (rel := fun n => n.meets .s) fun _ => rfl
  | intovrS rd rs1 rs2 => exact .temporal rfl rfl (rel := fun n => n.overlaps .s) fun _ => rfl
  | intdurS rd rs1 rs2 => exact .temporal rfl rfl (rel := fun n => n.during .s) fun _ => rfl
  | intstrS rd rs1 rs2 => exact .temporal rfl rfl (rel := fun n => n.starts .s) fun _ => rfl
  | intfinS rd rs1 rs2 => exact .temporal rfl rfl (rel := fun n => n.finishes .s) fun _ => rfl
  | inteqlS rd rs1 rs2 => exact .temporal rfl rfl (rel := fun n => n.equal .s) fun _ => rfl
  | csrrw rd csr op =>
    exact .csr (op := op) (by simp [IsCsrInstr]) rfl rfl (newValue := fun x _ => x op) fun _ => rfl
  | csrrs rd csr op =>
    exact .csr (op := op) (by simp [IsCsrInstr]) rfl rfl (newValue := fun x old => old ||| x op) fun _ => rfl
  | csrrc rd csr op =>
    exact .csr (op := op) (by simp [IsCsrInstr]) rfl rfl (newValue := fun x old => old &&& ~~~(x op)) fun _ => rfl
  | csrrwi rd csr op =>
    exact .csr (op := op) (by simp [IsCsrInstr]) rfl rfl (newValue := fun _ _ => op.setWidth 64) fun _ => rfl
  | csrrsi rd csr op =>
    exact .csr (op := op) (by simp [IsCsrInstr]) rfl rfl (newValue := fun _ old => old ||| op.setWidth 64) fun _ => rfl
  | csrrci rd csr op =>
    exact .csr (op := op) (by simp [IsCsrInstr]) rfl rfl (newValue := fun _ old => old &&& ~~~(op.setWidth 64)) fun _ => rfl

/-! ## Flags and `frm` (R37, R38) -/

/-- Accrual keeps every flag that was set. -/
theorem and_or_self_flags (a b : FlagSet) : a &&& (a ||| b) = a := by
  ext k hk
  simpa using Or.inl

/-- An instruction of the extension leaves `frm` and adds to the flags. -/
theorem exec_extension_frm_fflags {i : Instr} {s t : State} (hi : formatOf i ≠ none) (h : exec i s = .next t) :
    t.frm = s.frm ∧ ∃ fl, t.fflags = s.fflags ||| fl := by
  cases family i with
  | arithmetic _ _ hexec =>
    rw [hexec] at h
    obtain ⟨-, -, mode, -, rfl⟩ := arithmetic_eq_next.1 h
    exact ⟨writeInterval_frm .., _, congrArg (· ||| _) (writeInterval_fflags ..)⟩
  | statistical _ _ hexec =>
    rw [hexec] at h
    obtain ⟨-, -, mode, -, rfl⟩ := statistical_eq_next.1 h
    exact ⟨writeScalar_frm .., _, congrArg (· ||| _) (writeScalar_fflags ..)⟩
  | temporal _ _ hexec =>
    rw [hexec] at h
    obtain ⟨-, -, rfl⟩ := temporal_eq_next.1 h
    exact ⟨writeBool_frm .., _, congrArg (· ||| _) (writeBool_fflags ..)⟩
  | csr _ hfmt _ _ => exact absurd hfmt hi


/-- A CSR instruction on `frm` leaves the flags (R222). -/
theorem csrAccess_fflags_of_frm {word : InstrWord} {csr : CsrNumber} {rd : Reg} {write : Bool} {newValue : Word → Word}
    {s t : State} (hcsr : csrOfNumber csr = some .frm) (h : csrAccess word csr rd write newValue s = .next t) :
    t.fflags = s.fflags := by
  obtain ⟨c, hc, rfl⟩ := csrAccess_eq_next.1 h
  obtain rfl : c = .frm := Option.some.inj (hc.symm.trans hcsr)
  cases write <;> simp

/-! ## A run from another `pc` and another `frm` (R26, R38, R90) -/

/-- The state with another `pc` and another `frm`. -/
def State.withPcFrm (s : State) (p : Word) (m : BitVec 3) : State := { s with pc := p, frm := m }

section
variable (s : State) (p : Word) (m : BitVec 3)

@[simp] theorem withPcFrm_cfg : (s.withPcFrm p m).cfg = s.cfg := rfl

@[simp] theorem readX_withPcFrm : readX (s.withPcFrm p m) = readX s := rfl

@[simp] theorem readInterval_withPcFrm (fmt : Fmt) (r : Reg) :
    readInterval (s.withPcFrm p m) fmt r = readInterval s fmt r := rfl

@[simp] theorem writeX_withPcFrm (r : Reg) (v : Word) :
    writeX (s.withPcFrm p m) r v = (writeX s r v).withPcFrm p m := by
  unfold writeX; split <;> rfl

@[simp] theorem writeF_withPcFrm (r : Reg) (v : Word) :
    writeF (s.withPcFrm p m) r v = (writeF s r v).withPcFrm p m := by
  cases h : s.cfg.regfile <;> simp [writeF, State.withPcFrm, h]

@[simp] theorem writeInterval_withPcFrm (fmt : Fmt) (r : Reg) (I : Interval fmt) :
    writeInterval (s.withPcFrm p m) fmt r I = (writeInterval s fmt r I).withPcFrm p m := by
  cases h : s.cfg.regfile with
  | f flen => rw [writeInterval_of_f h, writeInterval_of_f (s := s.withPcFrm p m) h, writeF_withPcFrm]
  | x =>
    cases hp : pairing s.cfg fmt with
    | false => rw [writeInterval_of_single h hp, writeInterval_of_single (s := s.withPcFrm p m) h hp, writeX_withPcFrm]
    | true =>
      rw [writeInterval_of_pair hp, writeInterval_of_pair (s := s.withPcFrm p m) hp]
      split
      · rfl
      · rw [writeX_withPcFrm, writeX_withPcFrm]

@[simp] theorem writeScalar_withPcFrm (fmt : Fmt) (r : Reg) (v : Datum fmt) :
    writeScalar (s.withPcFrm p m) fmt r v = (writeScalar s fmt r v).withPcFrm p m := by
  cases h : s.cfg.regfile <;> simp [writeScalar, h]

@[simp] theorem writeBool_withPcFrm (r : Reg) (b : Bool) :
    writeBool (s.withPcFrm p m) r b = (writeBool s r b).withPcFrm p m := writeX_withPcFrm ..

/-- `pc` moves on from the other `pc`; `frm` stays. -/
@[simp] theorem advancePc_withPcFrm :
    advancePc (s.withPcFrm p m) = (advancePc s).withPcFrm (truncTo s.cfg.xlen (p + 4#64)) m := rfl

@[simp] theorem accrueFlags_withPcFrm (fl : FlagSet) :
    accrueFlags (s.withPcFrm p m) fl = (accrueFlags s fl).withPcFrm p m := rfl

@[simp] theorem csrRead_withPc (c : Csr) : csrRead (s.withPcFrm p s.frm) c = csrRead s c := by
  cases c <;> rfl

@[simp] theorem csrWrite_withPc (c : Csr) (v : Word) :
    csrWrite (s.withPcFrm p s.frm) c v = (csrWrite s c v).withPcFrm p (csrWrite s c v).frm := by
  cases c <;> rfl

end

/-- `EffRm` is the same for two values of `frm`, unless the field is `DYN` (R114). -/
theorem effRm_congr {rm : Rm} {m m' : BitVec 3} (h : rm = .dyn → m = m') : effRm rm m = effRm rm m' := by
  by_cases hdyn : rm = .dyn
  · rw [h hdyn]
  · rw [effRm_of_ne_dyn hdyn, effRm_of_ne_dyn hdyn]

/-- An instruction of the extension reads neither `pc`, which it only moves on, nor `frm`, unless its `rm` field is `DYN`. -/
theorem exec_extension_withPcFrm {i : Instr} {s t : State} (hi : formatOf i ≠ none) (h : exec i s = .next t) (p : Word)
    {m : BitVec 3} (hm : rmFieldOf i = some .dyn → m = s.frm) :
    exec i (s.withPcFrm p m) = .next (t.withPcFrm (truncTo t.cfg.xlen (p + 4#64)) m) := by
  cases family i with
  | arithmetic _ hrm hexec =>
    rw [hexec] at h ⊢
    obtain ⟨hfmt, hpair, mode, hmode, rfl⟩ := arithmetic_eq_next.1 h
    refine arithmetic_eq_next.2 ⟨hfmt, hpair, mode, ?_, ?_⟩
    · exact (effRm_congr fun hdyn => hm (hdyn ▸ hrm)).trans hmode
    · simp
  | statistical _ hrm hexec =>
    rw [hexec] at h ⊢
    obtain ⟨hfmt, hpair, mode, hmode, rfl⟩ := statistical_eq_next.1 h
    refine statistical_eq_next.2 ⟨hfmt, hpair, mode, ?_, ?_⟩
    · exact (effRm_congr fun hdyn => hm (hdyn ▸ hrm)).trans hmode
    · simp
  | temporal _ _ hexec =>
    rw [hexec] at h ⊢
    obtain ⟨hfmt, hpair, rfl⟩ := temporal_eq_next.1 h
    refine temporal_eq_next.2 ⟨hfmt, hpair, ?_⟩
    simp
  | csr _ hfmt _ _ => exact absurd hfmt hi

/-- No instruction reads `pc` but to move it on; a CSR instruction sets `frm` as before. -/
theorem exec_withPc {i : Instr} {s t : State} (h : exec i s = .next t) (p : Word) :
    exec i (s.withPcFrm p s.frm) = .next (t.withPcFrm (truncTo t.cfg.xlen (p + 4#64)) t.frm) := by
  cases family i with
  | arithmetic hfmt _ _ | statistical hfmt _ _ | temporal hfmt _ _ =>
    have hi : formatOf i ≠ none := by simp [hfmt]
    rw [(exec_extension_frm_fflags hi h).1]
    exact exec_extension_withPcFrm hi h p fun _ => rfl
  | @csr _ _ _ _ write _ _ _ _ hexec =>
    rw [hexec] at h ⊢
    obtain ⟨c, hc, rfl⟩ := csrAccess_eq_next.1 h
    refine csrAccess_eq_next.2 ⟨c, hc, ?_⟩
    cases write <;> simp

/-- An instruction that completes moves `pc` on by 4 (R26). -/
theorem exec_next_pc {i : Instr} {s t : State} (h : exec i s = .next t) : t.pc = truncTo s.cfg.xlen (s.pc + 4#64) := by
  obtain ⟨fmt, rd, z, fl, rfl⟩ | ⟨fmt, rd, v, fl, rfl⟩ | ⟨rd, b, fl, rfl⟩ | ⟨c, rd, v, write, rfl⟩ := exec_next_shape h
  · simp
  · simp
  · simp
  · cases write <;> simp

/-- An instruction completes, raises `IllegalInstruction` at the `pc` of the state (R244), or is refused (R220). -/
theorem exec_cases (i : Instr) (s : State) :
    (∃ t, exec i s = .next t) ∨ (∃ word, exec i s = .fault (.illegalInstruction s.pc word)) ∨
      ∃ r, exec i s = .refused r := by
  cases family i with
  | arithmetic _ _ hexec => rw [hexec]; exact (arithmetic_cases ..).imp_right fun h => .inl ⟨_, h⟩
  | statistical _ _ hexec => rw [hexec]; exact (statistical_cases ..).imp_right fun h => .inl ⟨_, h⟩
  | temporal _ _ hexec => rw [hexec]; exact (temporal_cases ..).imp_right fun h => .inl ⟨_, h⟩
  | @csr _ csr _ _ _ _ _ _ _ hexec =>
    rw [hexec]
    cases hc : csrOfNumber csr with
    | none => exact .inr (.inr ⟨_, csrAccess_of_none hc⟩)
    | some c => exact .inl ⟨_, csrAccess_eq_next.2 ⟨c, hc, rfl⟩⟩

/-- A fault of an instruction records the `pc` of the state (R244). -/
theorem exec_fault_pc {i : Instr} {s : State} {p : Word} {word : InstrWord}
    (h : exec i s = .fault (.illegalInstruction p word)) : p = s.pc := by
  obtain ⟨t, ht⟩ | ⟨w, hw⟩ | ⟨r, hr⟩ := exec_cases i s
  · exact absurd (ht.symm.trans h) nofun
  · exact (Fault.illegalInstruction.inj (Host.Outcome.fault.inj (h.symm.trans hw))).1
  · exact absurd (hr.symm.trans h) nofun

/-! ## A run from another `x` file under `REGFILE = F` (R21) -/

/-- The state with another `x` file. -/
def State.withX (s : State) (x : Vector Word 32) : State := { s with x := x }

section
variable {s : State} {flen : Width} (hregs : s.cfg.regfile = .f flen) (x : Vector Word 32)
include hregs

theorem writeScalar_of_f (fmt : Fmt) (r : Reg) (v : Datum fmt) : writeScalar s fmt r v = writeF s r (nanBox v) := by
  simp [writeScalar, hregs]

theorem readInterval_withX_of_f (fmt : Fmt) (r : Reg) : readInterval (s.withX x) fmt r = readInterval s fmt r := by
  rw [readInterval_of_f hregs, readInterval_of_f (s := s.withX x) hregs]; rfl

theorem writeF_withX_of_f (r : Reg) (v : Word) : writeF (s.withX x) r v = (writeF s r v).withX x := by
  simp [writeF, State.withX, hregs]

theorem writeInterval_withX_of_f (fmt : Fmt) (r : Reg) (I : Interval fmt) :
    writeInterval (s.withX x) fmt r I = (writeInterval s fmt r I).withX x := by
  rw [writeInterval_of_f hregs, writeInterval_of_f (s := s.withX x) hregs, writeF_withX_of_f hregs]

theorem writeScalar_withX_of_f (fmt : Fmt) (r : Reg) (v : Datum fmt) :
    writeScalar (s.withX x) fmt r v = (writeScalar s fmt r v).withX x := by
  rw [writeScalar_of_f hregs, writeScalar_of_f (s := s.withX x) hregs, writeF_withX_of_f hregs]

/-- An instruction with a rounding mode, arithmetic or statistical, reads no `x` register. -/
theorem exec_withX_of_rm {i : Instr} {t : State} (hrm : rmFieldOf i ≠ none) (h : exec i s = .next t) :
    exec i (s.withX x) = .next (t.withX x) := by
  cases family i with
  | arithmetic _ _ hexec =>
    rw [hexec] at h ⊢
    obtain ⟨hfmt, hpair, mode, hmode, rfl⟩ := arithmetic_eq_next.1 h
    refine arithmetic_eq_next.2 ⟨hfmt, hpair, mode, hmode, ?_⟩
    rw [readInterval_withX_of_f hregs, readInterval_withX_of_f hregs, writeInterval_withX_of_f hregs]; rfl
  | statistical _ _ hexec =>
    rw [hexec] at h ⊢
    obtain ⟨hfmt, hpair, mode, hmode, rfl⟩ := statistical_eq_next.1 h
    refine statistical_eq_next.2 ⟨hfmt, hpair, mode, hmode, ?_⟩
    rw [readInterval_withX_of_f hregs, writeScalar_withX_of_f hregs]; rfl
  | temporal _ hnone _ | csr _ _ hnone _ => exact absurd hnone hrm

/-- An instruction with a rounding mode writes no `x` register. -/
theorem exec_keepsX_of_rm {i : Instr} {t : State} (hrm : rmFieldOf i ≠ none) (h : exec i s = .next t) : KeepsX s t := by
  have hx : t.x = s.x := by
    cases family i with
    | arithmetic _ _ hexec =>
      rw [hexec] at h
      obtain ⟨-, -, mode, -, rfl⟩ := arithmetic_eq_next.1 h
      exact writeInterval_x_of_f hregs ..
    | statistical _ _ hexec =>
      rw [hexec] at h
      obtain ⟨-, -, mode, -, rfl⟩ := statistical_eq_next.1 h
      rw [writeScalar_of_f hregs]
      exact writeF_x ..
    | temporal _ hnone _ | csr _ _ hnone _ => exact absurd hnone hrm
  intro r
  rw [readX, readX, hx]

/-- A temporal instruction stores the same bit and the same flags whatever the `x` file holds. -/
theorem exec_withX_of_temporal {i : Instr} {t : State} (hi : formatOf i ≠ none) (hrm : rmFieldOf i = none)
    (h : exec i s = .next t) :
    ∃ rd b fl, t = advancePc (accrueFlags (writeBool s rd b) fl) ∧
      exec i (s.withX x) = .next (advancePc (accrueFlags (writeBool (s.withX x) rd b) fl)) := by
  cases family i with
  | temporal _ _ hexec =>
    rw [hexec] at h ⊢
    obtain ⟨hfmt, hpair, rfl⟩ := temporal_eq_next.1 h
    refine ⟨_, _, _, rfl, temporal_eq_next.2 ⟨hfmt, hpair, ?_⟩⟩
    rw [readInterval_withX_of_f hregs, readInterval_withX_of_f hregs]; rfl
  | arithmetic _ hsome _ | statistical _ hsome _ => exact absurd (hrm.symm.trans hsome) nofun
  | csr _ hfmt _ _ => exact absurd hfmt hi

end

/-- A boolean written to two states: a register holds the written bit in both, or what it held before in both. -/
theorem readX_writeBool_cases {s u : State} (hcfg : u.cfg = s.cfg) (rd : Reg) (b : Bool) (r : Reg) :
    (readX (writeBool u rd b) r = readX u r ∧ readX (writeBool s rd b) r = readX s r) ∨
      readX (writeBool u rd b) r = readX (writeBool s rd b) r := by
  simp only [writeBool, readX_writeX, hcfg]
  split
  · exact .inr rfl
  · exact .inl ⟨rfl, rfl⟩

end Sys2Proof.Machine

section
open Sys2Proof Sys2Proof.Machine

/-- Settles O54: the three facts on `pc`. -/
theorem pcAdvancesByFour : Obligations.PcAdvancesByFour := by
  intro i s
  refine ⟨fun t h => ?_, fun t p h => ⟨_, exec_withPc h p, rfl⟩, fun p w h => exec_fault_pc h⟩
  rw [exec_next_pc h, truncTo_add_four]

/-- Settles O55: the instructions of the extension accrue, and a CSR instruction that changes a flag names `fflags` or `fcsr`. -/
theorem flagsAreSticky : Obligations.FlagsAreSticky := by
  intro i s t h
  have hext (hi : formatOf i ≠ none) : s.fflags &&& t.fflags = s.fflags := by
    obtain ⟨-, fl, hfl⟩ := exec_extension_frm_fflags hi h
    rw [hfl, and_or_self_flags]
  refine ⟨hext, fun hclear => ?_⟩
  cases family i with
  | @csr word csr rd op write newValue hcsr _ _ hexec =>
    refine ⟨rd, csr, op, ?_, hcsr⟩
    rw [hexec] at h
    obtain ⟨c, hc, -⟩ := csrAccess_eq_next.1 h
    rcases (csrOfNumber_eq_some csr c).1 hc with ⟨hn, -⟩ | ⟨-, rfl⟩ | ⟨hn, -⟩
    · exact .inl hn
    · exact absurd (by rw [csrAccess_fflags_of_frm hc h, BitVec.and_self]) hclear
    · exact .inr hn
  | arithmetic hfmt _ _ | statistical hfmt _ _ | temporal hfmt _ _ => exact absurd (hext (by simp [hfmt])) hclear

/-- Settles O56: with a static rounding mode, or none, a run from another `frm` takes the same mode and stores the same result. -/
theorem frmIsReadOnlyUnderDyn : Obligations.FrmIsReadOnlyUnderDyn := by
  intro i s hi
  refine ⟨fun t h => (exec_extension_frm_fflags hi h).1, fun hrm m t h => ?_⟩
  have hpc : t.pc = truncTo t.cfg.xlen (s.pc + 4#64) := by rw [exec_next_pc h, (exec_next_mem_cfg h).2]
  have hrun := exec_extension_withPcFrm hi h s.pc (m := m) fun hdyn => absurd hdyn hrm
  rw [← hpc] at hrun
  exact hrun

/-- Settles O57: an instruction with a rounding mode does the same beside any `x` file, a temporal one writes the same bit. -/
theorem noXRegisterIsReadUnderF : Obligations.NoXRegisterIsReadUnderF := by
  intro i s t flen hregs hi h
  refine ⟨fun x => ?_, fun hrm r => ?_⟩
  · by_cases hrm : rmFieldOf i = none
    · obtain ⟨rd, b, fl, rfl, hrun⟩ := exec_withX_of_temporal hregs x hi hrm h
      refine ⟨_, hrun, fun r => ?_, ?_, readX_writeBool_cases (s := s) (u := s.withX x) rfl rd b⟩
      · exact (readF_writeX (s.withX x) ..).trans (readF_writeX s ..).symm
      · exact congrArg (· ||| fl) ((writeBool_fflags (s.withX x) ..).trans (writeBool_fflags s ..).symm)
    · have hrun := exec_withX_of_rm hregs x hrm h
      exact ⟨_, hrun, fun _ => rfl, rfl, fun r => .inl ⟨rfl, exec_keepsX_of_rm hregs hrm h r⟩⟩
  · exact exec_keepsX_of_rm hregs hrm h r

end

/-! Memory and fetch (R60 to R63): the bytes read back from where they were stored, the word of an instruction decoded to that
instruction, and the step as the meaning of the instruction fetched. -/

namespace Sys2Proof

/-! ## The decoder on an encoded word, a family at a time (R93) -/

section
variable {funct5 : BitVec 5} {fmt : Fmt} {rd rs1 rs2 : Reg} {rm : Rm} {i : Instr}

theorem decode_packInterval_of_arithmetic (h : arithmeticOf funct5 fmt rd rs1 rs2 rm = some i) :
    decode (packInterval funct5 fmt rs2 rs1 rm.bits rd) = .ok i := by
  simp [decode, decodeInterval, h]

theorem decode_packInterval_of_statistical (ha : arithmeticOf funct5 fmt rd rs1 0b00000#5 rm = none)
    (h : statisticalOf funct5 fmt rd rs1 rm = some i) :
    decode (packInterval funct5 fmt 0b00000#5 rs1 rm.bits rd) = .ok i := by
  simp [decode, decodeInterval, ha, h]

/-- The `rm` field of a temporal word is `000`, which the earlier checks read as `rne` (R86, R90). -/
theorem decode_packInterval_of_temporal (ha : arithmeticOf funct5 fmt rd rs1 rs2 .rne = none)
    (hs : statisticalOf funct5 fmt rd rs1 .rne = none) (h : temporalOf funct5 fmt rd rs1 rs2 = some i) :
    decode (packInterval funct5 fmt rs2 rs1 0b000#3 rd) = .ok i := by
  have hrm : rmOfBits 0b000#3 = .rne := rfl
  simp [decode, decodeInterval, hrm, ha, hs, h]

end

theorem decode_packCsr (csr : CsrNumber) (rs1 : BitVec 5) (funct3 : BitVec 3) (rd : Reg) :
    decode (packCsr csr rs1 funct3 rd) = decodeCsr (packCsr csr rs1 funct3 rd) := by
  have hne : systemOpcode ≠ intervalOpcode := by decide
  simp [decode, hne]

/-- The decoder gives back every instruction from its word: the fields are read as they were packed, and `funct5` (or
`funct3` of a CSR instruction) names the instruction. -/
theorem decode_encode (i : Instr) : decode (encode i) = .ok i := by
  cases i with
  | intaddH | intsubH | intmulH | intdivH | intaddS | intsubS | intmulS | intdivS =>
    exact decode_packInterval_of_arithmetic rfl
  | intmidH | intwdtH | intradH | intminH | intmaxH | intmidS | intwdtS | intradS | intminS | intmaxS =>
    exact decode_packInterval_of_statistical rfl rfl
  | intbfrH | intmtsH | intovrH | intdurH | intstrH | intfinH | inteqlH
  | intbfrS | intmtsS | intovrS | intdurS | intstrS | intfinS | inteqlS =>
    exact decode_packInterval_of_temporal rfl rfl rfl
  | csrrw | csrrs | csrrc | csrrwi | csrrsi | csrrci => simp [encode, decode_packCsr, decodeCsr]

@[simp] theorem tableWord_toNat (w : InstrWord) : tableWord 32 w.toNat = w := by
  simp [tableWord, Nat.mod_eq_of_lt w.isLt]

end Sys2Proof

namespace Sys2Proof.Machine

/-! ## Reading several bytes (R60) -/

theorem memRead_succ_eq_some {m : Memory} {addr n : Nat} {b : Byte} {bs : List Byte} :
    memRead m addr (n + 1) = some (b :: bs) ↔ Memory.read m addr = some b ∧ memRead m (addr + 1) n = some bs := by
  rw [memRead]
  split
  · simp [*]
  · rename_i hnone
    exact ⟨nofun, fun ⟨hb, hbs⟩ => (hnone b bs hb hbs).elim⟩

theorem memRead_succ_ne_nil (m : Memory) (addr n : Nat) : memRead m addr (n + 1) ≠ some [] := by
  rw [memRead]
  split <;> simp

/-- The bytes at `addr` and up are read when each of them is there, the lowest address first. -/
theorem memRead_eq_some {m : Memory} {addr n : Nat} {bs : List Byte} :
    memRead m addr n = some bs ↔ bs.length = n ∧ ∀ k < n, Memory.read m (addr + k) = bs[k]? := by
  induction n generalizing addr bs with
  | zero => cases bs <;> simp [memRead]
  | succ n ih =>
    cases bs with
    | nil => simp [memRead_succ_ne_nil]
    | cons b bs =>
      simp only [memRead_succ_eq_some, ih, Nat.forall_lt_succ_left, List.length_cons, Nat.add_right_cancel_iff,
        List.getElem?_cons_zero, List.getElem?_cons_succ, Nat.add_zero, Nat.add_assoc, Nat.add_comm 1]
      exact and_left_comm

/-- Bytes stored are the bytes read from there, whatever the memory held (R60). -/
theorem memRead_memWrite (m : Memory) (addr : Nat) (bs : List Byte) :
    memRead (memWrite m addr bs) addr bs.length = some bs := by
  induction bs generalizing m addr with
  | nil => rfl
  | cons b bs ih =>
    have hb : Memory.read (memWrite m addr (b :: bs)) addr = some b := by
      rw [memWrite, memory_read_memWrite_outside _ _ _ _ (.inl (Nat.lt_succ_self addr)), memory_read_write, if_pos rfl]
    have hbs : memRead (memWrite m addr (b :: bs)) (addr + 1) bs.length = some bs := ih _ _
    exact memRead_succ_eq_some.2 ⟨hb, hbs⟩

/-! ## The step, from the fetch (R63) -/

/-- In a legal configuration the step is the meaning of the instruction fetched. -/
theorem step_of_fetchInstr {s : State} {i : Instr} (hl : s.cfg.legal = true) (hf : fetchInstr s = .next i) :
    step s = exec i s := by
  simp [step, hl, hf]

end Sys2Proof.Machine

section
open Sys2Proof Sys2Proof.Machine

/-- Settles O6: the four bytes read are what the fetch decodes, and the step runs what is fetched. -/
theorem stepRunsDecodedInstruction : Obligations.StepRunsDecodedInstruction := by
  intro s bs i hl hp hm hd
  obtain ⟨hlen, -⟩ := memRead_eq_some.1 hm
  obtain ⟨b0, b1, b2, b3, rfl⟩ := List.length_eq_four.1 hlen
  exact step_of_fetchInstr hl (fetchInstr_eq_next.2 ⟨hp, b0, b1, b2, b3, hm, hd⟩)

/-- Settles O7: where the four bytes are there this is O6; a next state needs a fetch, and so an aligned `pc` and each byte. -/
theorem fetchNeedsAlignedPcInsideProgram : Obligations.FetchNeedsAlignedPcInsideProgram := by
  refine ⟨fun s b0 b1 b2 b3 i hl hp h0 h1 h2 h3 hd => ?_, fun s t hp h => ?_, fun s t k hk hnone h => ?_⟩
  · have hm : memRead s.mem s.pc.toNat 4 = some [b0, b1, b2, b3] := by
      refine memRead_eq_some.2 ⟨rfl, fun k hk => ?_⟩
      interval_cases k
      exacts [h0, h1, h2, h3]
    exact stepRunsDecodedInstruction s _ i hl hp hm hd
  · obtain ⟨-, i, hf, -⟩ := step_eq_next.1 h
    exact hp (fetchInstr_eq_next.1 hf).1
  · obtain ⟨-, i, hf, -⟩ := step_eq_next.1 h
    obtain ⟨-, b0, b1, b2, b3, hm, -⟩ := fetchInstr_eq_next.1 hf
    obtain ⟨-, hread⟩ := memRead_eq_some.1 hm
    have hbyte : 4 ≤ k := List.getElem?_eq_none_iff.1 ((hread k hk).symm.trans hnone)
    omega

/-- Settles O60: the bytes of the word are read back from where they were stored and decode to the instruction; the store
touches nothing outside its four bytes. -/
theorem placedInstructionRunsNext : Obligations.PlacedInstructionRunsNext := by
  intro s i hl hp
  have hmem : (s.withFetchWord 32 (encode i).toNat).mem = memWrite s.mem s.pc.toNat (encodeBytes i) := by
    simp [State.withFetchWord, encodeBytes]
  refine ⟨stepRunsDecodedInstruction _ (encodeBytes i) i hl hp ?_ ?_, fun a ha => ?_⟩
  · rw [hmem]
    exact memRead_memWrite s.mem s.pc.toNat (encodeBytes i)
  · exact (decodeBytes_bytesOfWord _).trans (decode_encode i)
  · rw [hmem]
    exact memory_read_memWrite_outside _ _ _ _ ha

end

/-! The decoder, read once in both directions (R81 to R93, R220, R221): the row of the opcode map that each minor opcode
names, and for every word what the decoder answers and why. -/

namespace Sys2Proof

open Machine

/-! ## Fields that name a table entry (R84, R86) -/

theorem rmOfBits_eq_iff {b : BitVec 3} {rm : Rm} : rmOfBits b = rm ↔ b = rm.bits :=
  ⟨fun h => by rw [← h, bits_rmOfBits], fun h => by rw [h, rmOfBits_bits]⟩

/-- Bit 26 tells the reserved values of the `fmt` field from the two formats (R84). -/
theorem fmtOf_cases (w : InstrWord) :
    (w.getLsbD 26 = true ∧ fmtOfBits (fmtOf w) = none) ∨ (w.getLsbD 26 = false ∧ ∃ fmt : Fmt, fmt.bits = fmtOf w) := by
  have hbit : w.getLsbD 26 = (fmtOf w).getLsbD 1 := by simp [fmtOf]
  have htable : ∀ b : BitVec 2, (b.getLsbD 1 = true ∧ fmtOfBits b = none) ∨
      (b.getLsbD 1 = false ∧ (Fmt.h.bits = b ∨ Fmt.s.bits = b)) := by decide
  rw [hbit]
  exact (htable (fmtOf w)).imp_right (And.imp_right fun h => h.elim (⟨.h, ·⟩) (⟨.s, ·⟩))

theorem getLsbD_26_of_fmt {w : InstrWord} {fmt : Fmt} (hfmt : fmt.bits = fmtOf w) : w.getLsbD 26 = false := by
  obtain ⟨-, hnone⟩ | ⟨hbit, -⟩ := fmtOf_cases w
  · rw [← hfmt, fmtOfBits_bits] at hnone
    exact absurd hnone nofun
  · exact hbit

/-! ## The row of an instruction -/

/-- The register numbers that name a pair under RV32 `Zfintx`: those of single precision only (R33). -/
def pairFields : Fmt → List Reg → List Reg
  | .h, _ => []
  | .s, regs => regs

/-- The instruction stands in the row of the opcode map with this minor opcode, format and mask (R88); its word, its `rm` field
and the registers of its interval operands. -/
structure IntervalRow (i : Instr) (funct5 : BitVec 5) (fmt : Fmt) (mask word : InstrWord) (rm : Option Rm)
    (regs : List Reg) : Prop where
  encode_eq : encode i = word
  rowMask_eq : rowMask i = mask
  rowMatch_eq : rowMatch i = funct5 ++ fmt.bits ++ 0#18 ++ intervalOpcode
  formatOf_eq : formatOf i = some fmt
  rmFieldOf_eq : rmFieldOf i = rm
  intervalFieldsOf_eq : intervalFieldsOf i = pairFields fmt regs

/-- The row of an arithmetic instruction (R88). -/
abbrev ArithmeticRow (i : Instr) (funct5 : BitVec 5) (fmt : Fmt) (rd rs1 rs2 : Reg) (rm : Rm) : Prop :=
  IntervalRow i funct5 fmt 0xFE00007F#32 (packInterval funct5 fmt rs2 rs1 rm.bits rd) (some rm) [rs1, rs2, rd]

/-- The row of a statistical instruction, with `rs2 = 00000` (R88, R89). -/
abbrev StatisticalRow (i : Instr) (funct5 : BitVec 5) (fmt : Fmt) (rd rs1 : Reg) (rm : Rm) : Prop :=
  IntervalRow i funct5 fmt 0xFFF0007F#32 (packInterval funct5 fmt 0b00000#5 rs1 rm.bits rd) (some rm) [rs1]

/-- The row of a temporal instruction, with `rm = 000` (R88, R90). -/
abbrev TemporalRow (i : Instr) (funct5 : BitVec 5) (fmt : Fmt) (rd rs1 rs2 : Reg) : Prop :=
  IntervalRow i funct5 fmt 0xFE00707F#32 (packInterval funct5 fmt rs2 rs1 0b000#3 rd) none [rs1, rs2]

/-- The row of a CSR instruction (R221). -/
structure CsrRow (i : Instr) (csr : CsrNumber) (rs1 : BitVec 5) (funct3 : BitVec 3) (rd : Reg) : Prop where
  encode_eq : encode i = packCsr csr rs1 funct3 rd
  rowMask_eq : rowMask i = 0x0000707F#32
  rowMatch_eq : rowMatch i = 0#17 ++ funct3 ++ 0#5 ++ systemOpcode
  formatOf_eq : formatOf i = none

/-! ## The minor opcodes (R83) -/

/-- The minor opcodes of the arithmetic instructions. -/
abbrev IsArithmetic (funct5 : BitVec 5) : Prop := funct5.toNat ≤ 3

/-- The minor opcodes of the statistical instructions. -/
abbrev IsStatistical (funct5 : BitVec 5) : Prop := 8 ≤ funct5.toNat ∧ funct5.toNat ≤ 12

/-- The minor opcodes of the temporal instructions. -/
abbrev IsTemporal (funct5 : BitVec 5) : Prop := 16 ≤ funct5.toNat ∧ funct5.toNat ≤ 22

section
variable {funct5 : BitVec 5}

theorem exists_arithmeticOf (h : IsArithmetic funct5) (fmt : Fmt) (rd rs1 rs2 : Reg) (rm : Rm) :
    ∃ i, arithmeticOf funct5 fmt rd rs1 rs2 rm = some i ∧ ArithmeticRow i funct5 fmt rd rs1 rs2 rm := by
  have hcases : funct5 = 0 ∨ funct5 = 1 ∨ funct5 = 2 ∨ funct5 = 3 := by revert funct5; decide
  obtain rfl | rfl | rfl | rfl := hcases <;> cases fmt <;> exact ⟨_, rfl, rfl, rfl, rfl, rfl, rfl, rfl⟩

theorem arithmeticOf_eq_none (h : ¬ IsArithmetic funct5) (fmt : Fmt) (rd rs1 rs2 : Reg) (rm : Rm) :
    arithmeticOf funct5 fmt rd rs1 rs2 rm = none := by
  have hne : ∀ k : BitVec 5, k.toNat ≤ 3 → funct5 ≠ k := by
    rintro k hk rfl
    exact h hk
  simp [arithmeticOf, hne]

theorem exists_statisticalOf (h : IsStatistical funct5) (fmt : Fmt) (rd rs1 : Reg) (rm : Rm) :
    ∃ i, statisticalOf funct5 fmt rd rs1 rm = some i ∧ StatisticalRow i funct5 fmt rd rs1 rm := by
  have hcases : funct5 = 8 ∨ funct5 = 9 ∨ funct5 = 10 ∨ funct5 = 11 ∨ funct5 = 12 := by revert funct5; decide
  obtain rfl | rfl | rfl | rfl | rfl := hcases <;> cases fmt <;> exact ⟨_, rfl, rfl, rfl, rfl, rfl, rfl, rfl⟩

theorem statisticalOf_eq_none (h : ¬ IsStatistical funct5) (fmt : Fmt) (rd rs1 : Reg) (rm : Rm) :
    statisticalOf funct5 fmt rd rs1 rm = none := by
  have hne : ∀ k : BitVec 5, 8 ≤ k.toNat → k.toNat ≤ 12 → funct5 ≠ k := by
    rintro k hlow hhigh rfl
    exact h ⟨hlow, hhigh⟩
  simp [statisticalOf, hne]

theorem exists_temporalOf (h : IsTemporal funct5) (fmt : Fmt) (rd rs1 rs2 : Reg) :
    ∃ i, temporalOf funct5 fmt rd rs1 rs2 = some i ∧ TemporalRow i funct5 fmt rd rs1 rs2 := by
  have hcases : funct5 = 16 ∨ funct5 = 17 ∨ funct5 = 18 ∨ funct5 = 19 ∨ funct5 = 20 ∨ funct5 = 21 ∨ funct5 = 22 := by
    revert funct5; decide
  obtain rfl | rfl | rfl | rfl | rfl | rfl | rfl := hcases <;> cases fmt <;>
    exact ⟨_, rfl, rfl, rfl, rfl, rfl, rfl, rfl⟩

theorem temporalOf_eq_none (h : ¬ IsTemporal funct5) (fmt : Fmt) (rd rs1 rs2 : Reg) :
    temporalOf funct5 fmt rd rs1 rs2 = none := by
  have hne : ∀ k : BitVec 5, 16 ≤ k.toNat → k.toNat ≤ 22 → funct5 ≠ k := by
    rintro k hlow hhigh rfl
    exact h ⟨hlow, hhigh⟩
  simp [temporalOf, hne]

end

/-! The lists of minor opcodes of R83 and R92 as ranges. -/

theorem unassigned_mem_iff (b : BitVec 5) :
    b.toNat ∈ [4, 5, 6, 7, 13, 14, 15, 23, 24, 25, 26, 27, 28, 29, 30, 31] ↔
      ¬ IsArithmetic b ∧ ¬ IsStatistical b ∧ ¬ IsTemporal b := by revert b; decide

theorem statistical_mem_iff (b : BitVec 5) :
    b.toNat ∈ [8, 9, 10, 11, 12] ↔ IsStatistical b := by revert b; decide

theorem temporal_mem_iff (b : BitVec 5) :
    b.toNat ∈ [16, 17, 18, 19, 20, 21, 22] ↔ IsTemporal b := by revert b; decide

/-! ## The decoder on a word of the extension (R93) -/

section
variable {w : InstrWord} {fmt : Fmt} (hop : opcodeOf w = intervalOpcode)
include hop

theorem decode_of_reservedFormat (hfmt : fmtOfBits (fmtOf w) = none) : decode w = .error .reservedFormat := by
  simp [decode, hop, decodeInterval, hfmt]

theorem decode_of_arithmetic (hfmt : fmt.bits = fmtOf w) (h : IsArithmetic (funct5Of w)) :
    ∃ i, decode w = .ok i ∧
      ArithmeticRow i (funct5Of w) fmt (rdOf w) (rs1Of w) (rs2Of w) (rmOfBits (funct3Of w)) := by
  obtain ⟨i, hi, hrow⟩ := exists_arithmeticOf h fmt (rdOf w) (rs1Of w) (rs2Of w) (rmOfBits (funct3Of w))
  exact ⟨i, by simp [decode, hop, decodeInterval, ← hfmt, hi], hrow⟩

theorem decode_of_statistical (hfmt : fmt.bits = fmtOf w) (h : IsStatistical (funct5Of w)) :
    ∃ i, decode w = (if rs2Of w = 0b00000#5 then .ok i else .error .statisticalRs2) ∧
      StatisticalRow i (funct5Of w) fmt (rdOf w) (rs1Of w) (rmOfBits (funct3Of w)) := by
  obtain ⟨i, hi, hrow⟩ := exists_statisticalOf h fmt (rdOf w) (rs1Of w) (rmOfBits (funct3Of w))
  have ha := arithmeticOf_eq_none (funct5 := funct5Of w) (by omega)
  exact ⟨i, by simp [decode, hop, decodeInterval, ← hfmt, ha, hi], hrow⟩

theorem decode_of_temporal (hfmt : fmt.bits = fmtOf w) (h : IsTemporal (funct5Of w)) :
    ∃ i, decode w = (if funct3Of w = 0b000#3 then .ok i else .error .temporalRm) ∧
      TemporalRow i (funct5Of w) fmt (rdOf w) (rs1Of w) (rs2Of w) := by
  obtain ⟨i, hi, hrow⟩ := exists_temporalOf h fmt (rdOf w) (rs1Of w) (rs2Of w)
  have ha := arithmeticOf_eq_none (funct5 := funct5Of w) (by omega)
  have hs := statisticalOf_eq_none (funct5 := funct5Of w) (by omega)
  exact ⟨i, by simp [decode, hop, decodeInterval, ← hfmt, ha, hs, hi], hrow⟩

theorem decode_of_unassigned (hfmt : fmt.bits = fmtOf w) (ha : ¬ IsArithmetic (funct5Of w))
    (hs : ¬ IsStatistical (funct5Of w)) (ht : ¬ IsTemporal (funct5Of w)) : decode w = .error .unassignedMinorOpcode := by
  simp [decode, hop, decodeInterval, ← hfmt, arithmeticOf_eq_none ha, statisticalOf_eq_none hs, temporalOf_eq_none ht]

end

/-! ## The decoder on a word of the host (R220, R221) -/

/-- Each `funct3` but `000` and `100` is one of the six CSR instructions (R221). -/
theorem decode_of_csr {w : InstrWord} (hop : opcodeOf w = systemOpcode) (h : funct3Of w ≠ 0 ∧ funct3Of w ≠ 4) :
    ∃ i, decode w = .ok i ∧ CsrRow i (csrOf w) (rs1Of w) (funct3Of w) (rdOf w) := by
  have hdecode : decode w = decodeCsr w := by rw [← packCsr_fields w hop, decode_packCsr]
  have hcases : ∀ b : BitVec 3, b ≠ 0 ∧ b ≠ 4 → b = 1 ∨ b = 2 ∨ b = 3 ∨ b = 5 ∨ b = 6 ∨ b = 7 := by decide
  obtain h | h | h | h | h | h := hcases _ h <;> rw [hdecode, decodeCsr, h] <;> exact ⟨_, rfl, rfl, rfl, rfl, rfl⟩

theorem decode_of_undescribed {w : InstrWord} (hop : opcodeOf w ≠ intervalOpcode)
    (h : opcodeOf w = systemOpcode → ¬ (funct3Of w ≠ 0 ∧ funct3Of w ≠ 4)) : decode w = .error .undescribed := by
  by_cases hsys : opcodeOf w = systemOpcode
  · have hcases : ∀ b : BitVec 3, ¬ (b ≠ 0 ∧ b ≠ 4) → b = 0 ∨ b = 4 := by decide
    obtain h | h := hcases _ (h hsys) <;> rw [decode, if_neg hop, if_pos hsys, decodeCsr, h] <;> rfl
  · rw [decode, if_neg hop, if_neg hsys]

/-! ## What the decoder answers, and why -/

/-- The checks of R93 on a word, with their outcome: the first line of R92 that the word meets, or the row of its
instruction. -/
inductive Decoding (w : InstrWord) : Except Reject Instr → Prop
  | reservedFormat (hop : opcodeOf w = intervalOpcode) (hbit : w.getLsbD 26 = true) : Decoding w (.error .reservedFormat)
  | unassigned {fmt : Fmt} (hop : opcodeOf w = intervalOpcode) (hfmt : fmt.bits = fmtOf w)
      (ha : ¬ IsArithmetic (funct5Of w)) (hs : ¬ IsStatistical (funct5Of w)) (ht : ¬ IsTemporal (funct5Of w)) :
      Decoding w (.error .unassignedMinorOpcode)
  | arithmetic {fmt : Fmt} {i : Instr} (hop : opcodeOf w = intervalOpcode) (hfmt : fmt.bits = fmtOf w)
      (h : IsArithmetic (funct5Of w))
      (hrow : ArithmeticRow i (funct5Of w) fmt (rdOf w) (rs1Of w) (rs2Of w) (rmOfBits (funct3Of w))) : Decoding w (.ok i)
  | statistical {fmt : Fmt} {i : Instr} (hop : opcodeOf w = intervalOpcode) (hfmt : fmt.bits = fmtOf w)
      (h : IsStatistical (funct5Of w)) (hrs2 : rs2Of w = 0b00000#5)
      (hrow : StatisticalRow i (funct5Of w) fmt (rdOf w) (rs1Of w) (rmOfBits (funct3Of w))) : Decoding w (.ok i)
  | statisticalRs2 {fmt : Fmt} (hop : opcodeOf w = intervalOpcode) (hfmt : fmt.bits = fmtOf w)
      (h : IsStatistical (funct5Of w)) (hrs2 : rs2Of w ≠ 0b00000#5) :
      Decoding w (.error .statisticalRs2)
  | temporal {fmt : Fmt} {i : Instr} (hop : opcodeOf w = intervalOpcode) (hfmt : fmt.bits = fmtOf w)
      (h : IsTemporal (funct5Of w)) (hrm : funct3Of w = 0b000#3)
      (hrow : TemporalRow i (funct5Of w) fmt (rdOf w) (rs1Of w) (rs2Of w)) : Decoding w (.ok i)
  | temporalRm {fmt : Fmt} (hop : opcodeOf w = intervalOpcode) (hfmt : fmt.bits = fmtOf w)
      (h : IsTemporal (funct5Of w)) (hrm : funct3Of w ≠ 0b000#3) :
      Decoding w (.error .temporalRm)
  | csr {i : Instr} (hop : opcodeOf w = systemOpcode) (h : funct3Of w ≠ 0 ∧ funct3Of w ≠ 4)
      (hrow : CsrRow i (csrOf w) (rs1Of w) (funct3Of w) (rdOf w)) : Decoding w (.ok i)
  | undescribed (hop : opcodeOf w ≠ intervalOpcode) (h : opcodeOf w = systemOpcode → ¬ (funct3Of w ≠ 0 ∧ funct3Of w ≠ 4)) :
      Decoding w (.error .undescribed)

theorem decoding_of_intervalOpcode {w : InstrWord} (hop : opcodeOf w = intervalOpcode) : Decoding w (decode w) := by
  obtain ⟨hbit, hnone⟩ | ⟨-, fmt, hfmt⟩ := fmtOf_cases w
  · rw [decode_of_reservedFormat hop hnone]
    exact .reservedFormat hop hbit
  by_cases ha : IsArithmetic (funct5Of w)
  · obtain ⟨i, hi, hrow⟩ := decode_of_arithmetic hop hfmt ha
    rw [hi]
    exact .arithmetic hop hfmt ha hrow
  by_cases hs : IsStatistical (funct5Of w)
  · obtain ⟨i, hi, hrow⟩ := decode_of_statistical hop hfmt hs
    rw [hi]
    split
    · exact .statistical hop hfmt hs ‹_› hrow
    · exact .statisticalRs2 hop hfmt hs ‹_›
  by_cases ht : IsTemporal (funct5Of w)
  · obtain ⟨i, hi, hrow⟩ := decode_of_temporal hop hfmt ht
    rw [hi]
    split
    · exact .temporal hop hfmt ht ‹_› hrow
    · exact .temporalRm hop hfmt ht ‹_›
  · rw [decode_of_unassigned hop hfmt ha hs ht]
    exact .unassigned hop hfmt ha hs ht

/-- Every word decodes for one of these reasons. -/
theorem decoding (w : InstrWord) : Decoding w (decode w) := by
  by_cases hop : opcodeOf w = intervalOpcode
  · exact decoding_of_intervalOpcode hop
  by_cases h : opcodeOf w = systemOpcode ∧ funct3Of w ≠ 0 ∧ funct3Of w ≠ 4
  · obtain ⟨i, hi, hrow⟩ := decode_of_csr h.1 h.2
    rw [hi]
    exact .csr h.1 h.2 hrow
  · rw [decode_of_undescribed hop fun hsys hf => h ⟨hsys, hf⟩]
    exact .undescribed hop fun hsys hf => h ⟨hsys, hf⟩

/-- The reason for a known answer. -/
theorem decoding_of_eq {w : InstrWord} {r : Except Reject Instr} (h : decode w = r) : Decoding w r := h ▸ decoding w

/-! ## The encoder on a decoded word -/

/-- A word is the encoding of what it decodes to: each of its fields is an operand or is fixed by the row. -/
theorem encode_of_decode {w : InstrWord} {i : Instr} (h : decode w = .ok i) : encode i = w := by
  cases decoding_of_eq h with
  | arithmetic hop hfmt _ hrow =>
    rw [hrow.encode_eq, bits_rmOfBits]
    exact packInterval_fields w _ hop hfmt
  | statistical hop hfmt _ hrs2 hrow =>
    rw [hrow.encode_eq, bits_rmOfBits, ← hrs2]
    exact packInterval_fields w _ hop hfmt
  | temporal hop hfmt _ hrm hrow =>
    rw [hrow.encode_eq, ← hrm]
    exact packInterval_fields w _ hop hfmt
  | csr hop _ hrow => rw [hrow.encode_eq, packCsr_fields w hop]

/-! ## The opcode map (R88, R221) -/

/-- The word of an instruction meets the mask and match of its row. -/
theorem encode_and_rowMask (i : Instr) : encode i &&& rowMask i = rowMatch i := by
  cases decoding_of_eq (decode_encode i) with
  | arithmetic _ _ _ hrow =>
    rw [hrow.encode_eq, hrow.rowMask_eq, hrow.rowMatch_eq]
    exact Laws.EncodesTableRow.packInterval_and_arithmetic ..
  | statistical _ _ _ _ hrow =>
    rw [hrow.encode_eq, hrow.rowMask_eq, hrow.rowMatch_eq]
    exact Laws.EncodesTableRow.packInterval_and_statistical ..
  | temporal _ _ _ _ hrow =>
    rw [hrow.encode_eq, hrow.rowMask_eq, hrow.rowMatch_eq]
    exact Laws.EncodesTableRow.packInterval_and_temporal ..
  | csr _ _ hrow =>
    rw [hrow.encode_eq, hrow.rowMask_eq, hrow.rowMatch_eq]
    exact Laws.EncodesTableRow.packCsr_and ..

/-- Words that agree under a mask agree on every field that the mask covers. -/
theorem extractLsb'_eq_of_and_eq {v w mask : InstrWord} (h : v &&& mask = w &&& mask) {start len : Nat}
    (hmask : mask.extractLsb' start len = BitVec.allOnes len) : v.extractLsb' start len = w.extractLsb' start len := by
  have hfield := congrArg (BitVec.extractLsb' start len) h
  simpa only [BitVec.extractLsb'_and, hmask, BitVec.and_allOnes] using hfield

/-- The mask of every row of the extension covers the major opcode, the format and the minor opcode (R88). -/
theorem fields_eq_of_and_eq {v w mask : InstrWord} (h : v &&& mask = w &&& mask)
    (hmask : mask ∈ [0xFE00007F#32, 0xFFF0007F#32, 0xFE00707F#32]) :
    opcodeOf v = opcodeOf w ∧ fmtOf v = fmtOf w ∧ funct5Of v = funct5Of w := by
  have hcovers : mask.extractLsb' 0 7 = BitVec.allOnes 7 ∧ mask.extractLsb' 25 2 = BitVec.allOnes 2 ∧
      mask.extractLsb' 27 5 = BitVec.allOnes 5 := by
    simp only [List.mem_cons, List.not_mem_nil, or_false] at hmask
    obtain rfl | rfl | rfl := hmask <;> decide
  obtain ⟨hop, hfmt, hfunct5⟩ := hcovers
  exact ⟨extractLsb'_eq_of_and_eq h hop, extractLsb'_eq_of_and_eq h hfmt, extractLsb'_eq_of_and_eq h hfunct5⟩

/-- A word that agrees with an instruction's word under the mask of its row decodes to an instruction of that row. -/
theorem decode_of_and_rowMask {w : InstrWord} {i : Instr} (h : w &&& rowMask i = encode i &&& rowMask i) :
    ∃ j, decode w = .ok j ∧ rowMatch j = rowMatch i ∧ rowMask j = rowMask i := by
  cases decoding_of_eq (decode_encode i) with
  | arithmetic hop hfmt ha hrow =>
    rw [hrow.rowMask_eq] at h ⊢
    obtain ⟨hop', hfmt', hfunct5⟩ := fields_eq_of_and_eq h (by decide)
    obtain ⟨j, hj, hrow'⟩ := decode_of_arithmetic (hop'.trans hop) (hfmt.trans hfmt'.symm) (hfunct5 ▸ ha)
    exact ⟨j, hj, by rw [hrow'.rowMatch_eq, hrow.rowMatch_eq, hfunct5], hrow'.rowMask_eq⟩
  | statistical hop hfmt hs hrs2 hrow =>
    rw [hrow.rowMask_eq] at h ⊢
    obtain ⟨hop', hfmt', hfunct5⟩ := fields_eq_of_and_eq h (by decide)
    have hrs2' : rs2Of w = _ := extractLsb'_eq_of_and_eq h (by decide)
    obtain ⟨j, hj, hrow'⟩ := decode_of_statistical (hop'.trans hop) (hfmt.trans hfmt'.symm) (hfunct5 ▸ hs)
    rw [if_pos (hrs2'.trans hrs2)] at hj
    exact ⟨j, hj, by rw [hrow'.rowMatch_eq, hrow.rowMatch_eq, hfunct5], hrow'.rowMask_eq⟩
  | temporal hop hfmt ht hrm hrow =>
    rw [hrow.rowMask_eq] at h ⊢
    obtain ⟨hop', hfmt', hfunct5⟩ := fields_eq_of_and_eq h (by decide)
    have hrm' : funct3Of w = _ := extractLsb'_eq_of_and_eq h (by decide)
    obtain ⟨j, hj, hrow'⟩ := decode_of_temporal (hop'.trans hop) (hfmt.trans hfmt'.symm) (hfunct5 ▸ ht)
    rw [if_pos (hrm'.trans hrm)] at hj
    exact ⟨j, hj, by rw [hrow'.rowMatch_eq, hrow.rowMatch_eq, hfunct5], hrow'.rowMask_eq⟩
  | csr hop hf hrow =>
    rw [hrow.rowMask_eq] at h ⊢
    have hop' : opcodeOf w = _ := extractLsb'_eq_of_and_eq h (by decide)
    have hf' : funct3Of w = funct3Of (encode i) := extractLsb'_eq_of_and_eq h (by decide)
    obtain ⟨j, hj, hrow'⟩ := decode_of_csr (hop'.trans hop) (hf' ▸ hf)
    exact ⟨j, hj, by rw [hrow'.rowMatch_eq, hrow.rowMatch_eq, hf'], hrow'.rowMask_eq⟩

end Sys2Proof

section
open Sys2Proof Sys2Proof.Machine

/-- Settles O1: the bytes of a word are decoded as the word, and the word of an instruction as the instruction. -/
theorem decodeOfEncodedInstruction : Obligations.DecodeOfEncodedInstruction := fun i =>
  (decodeBytes_bytesOfWord (encode i)).trans (decode_encode i)

/-- Settles O2: the fields of a word that decodes are all in its instruction. -/
theorem encodeOfDecodedWord : Obligations.EncodeOfDecodedWord := fun _ _ => encode_of_decode

/-- Settles O3: a word that decodes is its instruction's word, which meets the row; a word that meets the row agrees with the
instruction's word under the mask. -/
theorem decodeFollowsMaskAndMatch : Obligations.DecodeFollowsMaskAndMatch := by
  refine fun w => ⟨fun i h => ?_, fun i h => ?_⟩
  · rw [← encode_of_decode h]
    exact encode_and_rowMask i
  · exact decode_of_and_rowMask (h.trans (encode_and_rowMask i).symm)

/-- Settles O5: the decoder answers for one of the reasons of R93, which exclude each other. -/
theorem rejectionReasonsInOrder : Obligations.RejectionReasonsInOrder := by
  intro w hop
  change _ ∧ (_ ↔ _ ∧ (funct5Of w).toNat ∈ _) ∧ (_ ↔ _ ∧ (funct5Of w).toNat ∈ _ ∧ rs2Of w ≠ _) ∧
    (_ ↔ _ ∧ (funct5Of w).toNat ∈ _ ∧ funct3Of w ≠ _) ∧ _
  rw [unassigned_mem_iff, statistical_mem_iff, temporal_mem_iff]
  generalize hr : decode w = r
  cases decoding_of_eq hr with
  | reservedFormat _ hbit => simp [hbit]
  | unassigned _ hfmt ha hs ht => rw [getLsbD_26_of_fmt hfmt]; simp [ha, hs, ht]
  | arithmetic _ hfmt ha hrow => rw [getLsbD_26_of_fmt hfmt]; simp; omega
  | statistical _ hfmt hs hrs2 hrow => rw [getLsbD_26_of_fmt hfmt]; simp [hrs2]; omega
  | statisticalRs2 _ hfmt hs hrs2 => rw [getLsbD_26_of_fmt hfmt]; simp [hs, hrs2]; omega
  | temporal _ hfmt ht hrm hrow => rw [getLsbD_26_of_fmt hfmt]; simp [hrm]; omega
  | temporalRm _ hfmt ht hrm => rw [getLsbD_26_of_fmt hfmt]; simp [ht, hrm]; omega
  | csr hsys _ _ => exact absurd (hop.symm.trans hsys) (by decide)
  | undescribed hne _ => exact absurd hop hne

end

/-! Reserved encodings (R90 to R93, R244): one condition on a configuration and an `frm`, met by an instruction where it is not
reserved, by a word where none of the lines of R92 holds, and asked by the meaning of every instruction of the extension. -/

namespace Sys2Proof.Machine

/-! ## The checks of R92 lines 2, 6 and 7 -/

/-- The format is implemented, the registers that name a pair are even, and the `rm` field, where there is one, gives a mode. -/
def Allowed (c : Config) (frm : BitVec 3) (fmt : Fmt) (regs : List Reg) (rm : Option Rm) : Prop :=
  formatImplemented c fmt = true ∧ pairRegsOk c fmt regs = true ∧ ∀ r, rm = some r → effRm r frm ≠ none

section
variable {s : State} {fmt : Fmt} {word : InstrWord} {rd rs1 rs2 : Reg} {rm : Rm}

theorem arithmetic_completes_iff {op : Mode → Interval fmt → Interval fmt → Interval fmt × FlagSet} :
    (∃ t, arithmetic word fmt op rd rs1 rs2 rm s = .next t) ↔ Allowed s.cfg s.frm fmt [rs1, rs2, rd] (some rm) := by
  simp [arithmetic_eq_next, Allowed, Option.ne_none_iff_exists']

theorem statistical_completes_iff {fn : Mode → Interval fmt → Datum fmt × FlagSet} :
    (∃ t, statistical word fmt fn rd rs1 rm s = .next t) ↔ Allowed s.cfg s.frm fmt [rs1] (some rm) := by
  simp [statistical_eq_next, Allowed, Option.ne_none_iff_exists']

theorem temporal_completes_iff {rel : Interval fmt → Interval fmt → Bool × FlagSet} :
    (∃ t, temporal word fmt rel rd rs1 rs2 s = .next t) ↔ Allowed s.cfg s.frm fmt [rs1, rs2] none := by
  simp [temporal_eq_next, Allowed]

end

/-! ## Reserved instructions -/

/-- An instruction is reserved here exactly where one of the checks fails. -/
theorem not_reservedHere_iff {s : State} {i : Instr} {fmt : Fmt} {regs : List Reg} {rm : Option Rm}
    (hfmt : formatOf i = some fmt) (hrm : rmFieldOf i = rm) (hregs : intervalFieldsOf i = pairFields fmt regs) :
    ¬ ReservedHere s i ↔ Allowed s.cfg s.frm fmt regs rm := by
  unfold ReservedHere Allowed
  rw [hfmt, hrm, hregs]
  simp only [← Option.isSome_iff_ne_none, effRm_isSome, not_or, not_exists, not_and]
  cases fmt with
  | h => simp [pairFields, formatImplemented]
  | s => simp [pairFields, formatImplemented, pairRegsOk_s]

theorem not_reservedHere_iff_of_row {s : State} {i : Instr} {funct5 : BitVec 5} {fmt : Fmt} {mask word : InstrWord}
    {rm : Option Rm} {regs : List Reg} (hrow : IntervalRow i funct5 fmt mask word rm regs) :
    ¬ ReservedHere s i ↔ Allowed s.cfg s.frm fmt regs rm :=
  not_reservedHere_iff hrow.formatOf_eq hrow.rmFieldOf_eq hrow.intervalFieldsOf_eq

/-- An instruction of the extension completes exactly where it is not reserved. -/
theorem exec_completes_iff {i : Instr} (hi : formatOf i ≠ none) (s : State) :
    (∃ t, exec i s = .next t) ↔ ¬ ReservedHere s i := by
  cases i with
  | intaddH | intsubH | intmulH | intdivH | intaddS | intsubS | intmulS | intdivS =>
    exact arithmetic_completes_iff.trans (not_reservedHere_iff (by rfl) (by rfl) (by rfl)).symm
  | intmidH | intwdtH | intradH | intminH | intmaxH | intmidS | intwdtS | intradS | intminS | intmaxS =>
    exact statistical_completes_iff.trans (not_reservedHere_iff (by rfl) (by rfl) (by rfl)).symm
  | intbfrH | intmtsH | intovrH | intdurH | intstrH | intfinH | inteqlH
  | intbfrS | intmtsS | intovrS | intdurS | intstrS | intfinS | inteqlS =>
    exact temporal_completes_iff.trans (not_reservedHere_iff (by rfl) (by rfl) (by rfl)).symm
  | csrrw | csrrs | csrrc | csrrwi | csrrsi | csrrci => exact absurd rfl hi

/-- An instruction of the extension that does not complete raises `IllegalInstruction` with its own word (R244). -/
theorem exec_completes_or_traps {i : Instr} (hi : formatOf i ≠ none) (s : State) :
    (∃ t, exec i s = .next t) ∨ exec i s = .fault (.illegalInstruction s.pc (encode i)) := by
  cases i with
  | intaddH | intsubH | intmulH | intdivH | intaddS | intsubS | intmulS | intdivS => exact arithmetic_cases ..
  | intmidH | intwdtH | intradH | intminH | intmaxH | intmidS | intwdtS | intradS | intminS | intmaxS =>
    exact statistical_cases ..
  | intbfrH | intmtsH | intovrH | intdurH | intstrH | intfinH | inteqlH
  | intbfrS | intmtsS | intovrS | intdurS | intstrS | intfinS | inteqlS => exact temporal_cases ..
  | csrrw | csrrs | csrrc | csrrwi | csrrsi | csrrci => exact absurd rfl hi

theorem exec_of_reservedHere {i : Instr} {s : State} (hi : formatOf i ≠ none) (h : ReservedHere s i) :
    exec i s = .fault (.illegalInstruction s.pc (encode i)) :=
  (exec_completes_or_traps hi s).resolve_left fun hnext => (exec_completes_iff hi s).1 hnext h

/-! ## Rounding modes and pairs -/

/-- An `rm` field that gives a mode in force is none of the reserved values (R114). -/
theorem not_reservedRm_of_modeInForce {rm : Rm} {frm : BitVec 3} {mode : Mode} (h : ModeInForce rm frm mode) :
    ¬ (rm = .reserved5 ∨ rm = .reserved6 ∨ (rm = .dyn ∧ 5 ≤ frm.toNat)) := by
  have hle : (modeBits mode).toNat ≤ 4 := by cases mode <;> decide
  obtain hown | ⟨hdyn, rfl⟩ := h
  · rw [← hown] at hle
    rintro (rfl | rfl | ⟨rfl, -⟩) <;> exact absurd hle (by decide)
  · rintro (rfl | rfl | ⟨-, hfrm⟩)
    · exact absurd hdyn (by decide)
    · exact absurd hdyn (by decide)
    · omega

theorem intervalFieldsOf_of_half {i : Instr} (h : formatOf i = some .h) : intervalFieldsOf i = [] := by
  cases decoding_of_eq (decode_encode i) with
  | arithmetic _ _ _ hrow | statistical _ _ _ _ hrow | temporal _ _ _ _ hrow =>
    obtain rfl := Option.some.inj (hrow.formatOf_eq.symm.trans h)
    exact hrow.intervalFieldsOf_eq
  | csr _ _ hrow => exact absurd (hrow.formatOf_eq.symm.trans h) nofun

/-! ## Reserved words -/

theorem getLsbD_rs1_iff (w : InstrWord) : w.getLsbD 15 = true ↔ (rs1Of w).toNat % 2 = 1 := by
  rw [← reg_odd_iff]; simp [rs1Of]

theorem getLsbD_rs2_iff (w : InstrWord) : w.getLsbD 20 = true ↔ (rs2Of w).toNat % 2 = 1 := by
  rw [← reg_odd_iff]; simp [rs2Of]

theorem getLsbD_rd_iff (w : InstrWord) : w.getLsbD 7 = true ↔ (rdOf w).toNat % 2 = 1 := by
  rw [← reg_odd_iff]; simp [rdOf]

/-- Line 7 of R92 on the bits of the field. -/
theorem reservedRm_iff (b frm : BitVec 3) :
    (b = 0b101#3 ∨ b = 0b110#3 ∨ (b = 0b111#3 ∧ 5 ≤ frm.toNat)) ↔ effRm (rmOfBits b) frm = none := by
  simpa only [rmOfBits_eq_iff, Rm.bits, Option.isSome_iff_ne_none, ne_eq, not_iff_not] using
    (effRm_isSome (rmOfBits b) frm).symm

section
variable {c : Config} {frm : BitVec 3} {w : InstrWord} {fmt : Fmt} (hfmt : fmt.bits = fmtOf w)
include hfmt

/-- Line 2 of R92 on the bits of the field. -/
theorem unimplementedFormat_iff :
    ((fmtOf w = 0b00#2 ∧ c.hasH = false) ∨ (fmtOf w = 0b01#2 ∧ c.hasS = false)) ↔ ¬ formatImplemented c fmt = true := by
  rw [← hfmt]
  cases fmt <;> simp [formatImplemented, Fmt.bits]

/-- Line 6 of R92, where the bits it names are those of these registers. -/
theorem oddPair_iff {odd : Prop} {regs : List Reg} (hodd : odd ↔ ∃ r ∈ regs, r.toNat % 2 = 1) :
    (PairedRegisters c ∧ fmtOf w = 0b01#2 ∧ odd) ↔ ¬ pairRegsOk c fmt regs = true := by
  rw [← hfmt, hodd]
  cases fmt with
  | h => simp [Fmt.bits]
  | s => simp [Fmt.bits, pairRegsOk_s]

/-- The lines of R92 on the fields of a word whose format is one of the two. -/
theorem reservedWord_iff {regs : List Reg}
    (hodd : ((rs1Of w).toNat % 2 = 1 ∨
        ((IsArithmetic (funct5Of w) ∨ IsTemporal (funct5Of w)) ∧ (rs2Of w).toNat % 2 = 1) ∨
        (IsArithmetic (funct5Of w) ∧ (rdOf w).toNat % 2 = 1)) ↔ ∃ r ∈ regs, r.toNat % 2 = 1) :
    ReservedWord c frm w ↔
      ¬ formatImplemented c fmt = true ∨
      ¬ (IsArithmetic (funct5Of w) ∨ IsStatistical (funct5Of w) ∨ IsTemporal (funct5Of w)) ∨
      (IsStatistical (funct5Of w) ∧ rs2Of w ≠ 0b00000#5) ∨
      (IsTemporal (funct5Of w) ∧ funct3Of w ≠ 0b000#3) ∨
      ¬ pairRegsOk c fmt regs = true ∨
      ((IsArithmetic (funct5Of w) ∨ IsStatistical (funct5Of w)) ∧ effRm (rmOfBits (funct3Of w)) frm = none) := by
  rw [← getLsbD_rs1_iff, ← getLsbD_rs2_iff, ← getLsbD_rd_iff] at hodd
  rw [← reservedRm_iff, ← oddPair_iff hfmt hodd, ← unimplementedFormat_iff hfmt]
  exact or_iff_right (by rw [getLsbD_26_of_fmt hfmt]; nofun)

theorem not_reservedWord_iff_of_arithmetic (h : IsArithmetic (funct5Of w)) :
    ¬ ReservedWord c frm w ↔ Allowed c frm fmt [rs1Of w, rs2Of w, rdOf w] (some (rmOfBits (funct3Of w))) := by
  have hs : ¬ IsStatistical (funct5Of w) := by omega
  have ht : ¬ IsTemporal (funct5Of w) := by omega
  rw [reservedWord_iff hfmt (regs := [rs1Of w, rs2Of w, rdOf w]) (by simp [h])]
  simp [h, hs, ht, Allowed]

theorem not_reservedWord_iff_of_statistical (h : IsStatistical (funct5Of w)) (hrs2 : rs2Of w = 0b00000#5) :
    ¬ ReservedWord c frm w ↔ Allowed c frm fmt [rs1Of w] (some (rmOfBits (funct3Of w))) := by
  have ha : ¬ IsArithmetic (funct5Of w) := by omega
  have ht : ¬ IsTemporal (funct5Of w) := by omega
  rw [reservedWord_iff hfmt (regs := [rs1Of w]) (by simp [ha, ht])]
  simp [h, ha, ht, hrs2, Allowed]

theorem not_reservedWord_iff_of_temporal (h : IsTemporal (funct5Of w)) (hrm : funct3Of w = 0b000#3) :
    ¬ ReservedWord c frm w ↔ Allowed c frm fmt [rs1Of w, rs2Of w] none := by
  have ha : ¬ IsArithmetic (funct5Of w) := by omega
  have hs : ¬ IsStatistical (funct5Of w) := by omega
  rw [reservedWord_iff hfmt (regs := [rs1Of w, rs2Of w]) (by simp [eq_true h, ha])]
  simp [h, ha, hs, hrm, Allowed]

end

/-- A word that decodes is reserved exactly where its instruction is. -/
theorem reservedWord_iff_reservedHere {s : State} {w : InstrWord} {i : Instr} (hop : opcodeOf w = intervalOpcode)
    (h : decode w = .ok i) : ReservedWord s.cfg s.frm w ↔ ReservedHere s i := by
  rw [← not_iff_not]
  cases decoding_of_eq h with
  | arithmetic _ hfmt ha hrow =>
    exact (not_reservedWord_iff_of_arithmetic hfmt ha).trans (not_reservedHere_iff_of_row hrow).symm
  | statistical _ hfmt hs hrs2 hrow =>
    exact (not_reservedWord_iff_of_statistical hfmt hs hrs2).trans (not_reservedHere_iff_of_row hrow).symm
  | temporal _ hfmt ht hrm hrow =>
    exact (not_reservedWord_iff_of_temporal hfmt ht hrm).trans (not_reservedHere_iff_of_row hrow).symm
  | csr hsys _ _ => exact absurd (hop.symm.trans hsys) (by decide)

/-- The words under the extension's opcode that decode to no instruction are reserved in every configuration. -/
theorem reservedWord_of_reject {c : Config} {frm : BitVec 3} {w : InstrWord} {e : Reject}
    (hop : opcodeOf w = intervalOpcode) (h : decode w = .error e) : ReservedWord c frm w ∧ e ≠ .undescribed := by
  refine ⟨?_, ?_⟩
  · cases decoding_of_eq h with
    | reservedFormat _ hbit => exact .inl hbit
    | unassigned _ _ ha hs ht => exact .inr (.inr (.inl (not_or.2 ⟨ha, not_or.2 ⟨hs, ht⟩⟩)))
    | statisticalRs2 _ _ hs hrs2 => exact .inr (.inr (.inr (.inl ⟨hs, hrs2⟩)))
    | temporalRm _ _ ht hrm => exact .inr (.inr (.inr (.inr (.inl ⟨ht, hrm⟩))))
    | undescribed hne _ => exact absurd hop hne
  · rintro rfl
    cases decoding_of_eq h with
    | undescribed hne _ => exact hne hop

theorem formatOf_ne_none_of_decode {w : InstrWord} {i : Instr} (hop : opcodeOf w = intervalOpcode)
    (h : decode w = .ok i) : formatOf i ≠ none := by
  cases decoding_of_eq h with
  | arithmetic _ _ _ hrow | statistical _ _ _ _ hrow | temporal _ _ _ _ hrow => simp [hrow.formatOf_eq]
  | csr hsys _ _ => exact absurd (hop.symm.trans hsys) (by decide)

/-! ## The step on a fetched word (R63, R93) -/

section
variable {s : State} {b0 b1 b2 b3 : Byte} (hl : s.cfg.legal = true) (hp : s.pc.toNat % 4 = 0)
  (hm : memRead s.mem s.pc.toNat 4 = some [b0, b1, b2, b3])
include hl hp hm

theorem step_of_decode {i : Instr} (h : decode (wordOfBytes b0 b1 b2 b3) = .ok i) : step s = exec i s :=
  step_of_fetchInstr hl (fetchInstr_eq_next.2 ⟨hp, b0, b1, b2, b3, hm, h⟩)

/-- A word that the decoder rejects as reserved raises `IllegalInstruction` (R244). -/
theorem step_of_reject {e : Reject} (h : decode (wordOfBytes b0 b1 b2 b3) = .error e) (he : e ≠ .undescribed) :
    step s = .fault (.illegalInstruction s.pc (wordOfBytes b0 b1 b2 b3)) := by
  have hfetch : fetchInstr s = .fault (.illegalInstruction s.pc (wordOfBytes b0 b1 b2 b3)) := by
    cases e with
    | undescribed => exact absurd rfl he
    | _ => simp [fetchInstr, decodeBytes, hp, hm, h]
  simp [step, hl, hfetch]

end

end Sys2Proof.Machine

section
open Sys2Proof Sys2Proof.Machine

/-- Settles O13: the meaning makes the checks of `ReservedHere` and no others. -/
theorem extensionInstructionTrapsOrCompletes : Obligations.ExtensionInstructionTrapsOrCompletes := fun _ s hi =>
  ⟨exec_of_reservedHere hi, (exec_completes_iff hi s).2⟩

/-- Settles O14: with the format implemented and a mode in force, of the lines of `ReservedHere` only the odd pairs are left. -/
theorem oddPairRegistersAreReserved : Obligations.OddPairRegistersAreReserved := by
  intro i s fmt hfmt hh hs hmode
  have hi : formatOf i ≠ none := by simp [hfmt]
  have hreserved : ReservedHere s i ↔ PairedRegisters s.cfg ∧ ∃ r ∈ intervalFieldsOf i, r.toNat % 2 = 1 := by
    refine ⟨?_, fun h => .inr (.inr (.inl h))⟩
    rintro (⟨hH, hno⟩ | ⟨hS, hno⟩ | hpair | ⟨rm, hrm, hbad⟩)
    · simp [hh (Option.some.inj (hfmt.symm.trans hH))] at hno
    · simp [hs (Option.some.inj (hfmt.symm.trans hS))] at hno
    · exact hpair
    · obtain ⟨mode, hm⟩ := hmode rm hrm
      exact absurd hbad (not_reservedRm_of_modeInForce hm)
  rw [exec_completes_iff hi, hreserved]
  refine ⟨fun ⟨hpaired, _⟩ => ⟨?_, fun hodd => exec_of_reservedHere hi (hreserved.2 ⟨hpaired, hodd⟩)⟩, fun hsingle => ?_⟩
  · simp [hpaired]
  · rintro ⟨hpaired, r, hr, -⟩
    cases fmt with
    | h => simp [intervalFieldsOf_of_half hfmt] at hr
    | s => exact hsingle ⟨hpaired, rfl⟩

/-- Settles O11: a word that decodes is reserved where its instruction is, and any other word is reserved. -/
theorem reservedWordsRaiseIllegalInstruction : Obligations.ReservedWordsRaiseIllegalInstruction := by
  intro s b0 b1 b2 b3 hl hp hm w hop
  cases hd : decode w with
  | error e =>
    obtain ⟨hreserved, he⟩ := reservedWord_of_reject (c := s.cfg) (frm := s.frm) hop hd
    exact ⟨fun _ => step_of_reject hl hp hm hd he, fun h => absurd hreserved h⟩
  | ok i =>
    have hi : formatOf i ≠ none := formatOf_ne_none_of_decode hop hd
    rw [reservedWord_iff_reservedHere hop hd, step_of_decode hl hp hm hd, ← exec_completes_iff hi,
      ← encode_of_decode hd]
    exact ⟨fun h => exec_of_reservedHere hi h, id⟩

end

/-! The values of data (R111, R113, R114, R118 to R123): the rounding mode in force, the extended reals as Mathlib's, what each
comparison answers, the conditions on a valid interval, and the flags of the relations. -/

namespace Sys2Proof.Machine

/-! ## The rounding mode in force (R113, R114) -/

theorem modeOf_eq_some_iff {rm : Rm} {mode : Mode} : modeOf rm = some mode ↔ rm.bits = modeBits mode := by
  cases rm <;> cases mode <;> decide

theorem effRm_eq_some_iff {rm : Rm} {frm : BitVec 3} {mode : Mode} : effRm rm frm = some mode ↔ ModeInForce rm frm mode := by
  by_cases hdyn : rm = .dyn
  · have hfrm : (rmOfBits frm).bits = frm := (rmOfBits_eq_iff.1 rfl).symm
    have hne : Rm.dyn.bits ≠ modeBits mode := by cases mode <;> decide
    subst hdyn
    rw [effRm_dyn, modeOf_eq_some_iff, hfrm, ModeInForce, or_iff_right hne, and_iff_right (by rfl)]
  · have hbits : rm.bits ≠ 0b111#3 := fun h => hdyn (rmOfBits_eq_iff.2 h.symm).symm
    rw [effRm_of_ne_dyn hdyn, modeOf_eq_some_iff, ModeInForce, or_iff_left (by simp [hbits])]

theorem effRm_eq_none_iff (rm : Rm) (frm : BitVec 3) :
    effRm rm frm = none ↔ rm = .reserved5 ∨ rm = .reserved6 ∨ (rm = .dyn ∧ 5 ≤ frm.toNat) := by
  rw [← Option.not_isSome_iff_eq_none, effRm_isSome, not_not]

/-! ## The extended reals as Mathlib's (R119, R120) -/

/-- An extended rational as Mathlib's extended real. -/
noncomputable def ER.toEReal : ER → EReal
  | .ninf => ⊥
  | .fin r => ((r : ℝ) : EReal)
  | .pinf => ⊤

@[simp] theorem ER.toEReal_ninf : ER.ninf.toEReal = ⊥ := rfl
@[simp] theorem ER.toEReal_fin (r : Rat) : (ER.fin r).toEReal = ((r : ℝ) : EReal) := rfl
@[simp] theorem ER.toEReal_pinf : ER.pinf.toEReal = ⊤ := rfl

theorem ER.lt_iff {a b : ER} : ER.lt a b = true ↔ a.toEReal < b.toEReal := by
  cases a <;> cases b <;> simp [ER.lt]

theorem ER.le_iff {a b : ER} : ER.le a b = true ↔ a.toEReal ≤ b.toEReal := by
  rw [ER.le, Bool.not_eq_true', ← Bool.not_eq_true, ER.lt_iff, not_lt]

theorem ER.lt_eq_false_iff {a b : ER} : ER.lt a b = false ↔ b.toEReal ≤ a.toEReal := by
  rw [← Bool.not_eq_true, ER.lt_iff, not_lt]

theorem ER.toEReal_injective : Function.Injective ER.toEReal := by
  intro a b h
  cases a <;> cases b <;> simp_all

theorem ER.atMost_iff {a : ER} {x : ℝ} : a.AtMost x ↔ a.toEReal ≤ x := by
  cases a <;> simp [ER.AtMost]

theorem ER.atLeast_iff {a : ER} {x : ℝ} : a.AtLeast x ↔ (x : EReal) ≤ a.toEReal := by
  cases a <;> simp [ER.AtLeast]

theorem ER.le_fin_fin {p q : Rat} : ER.le (.fin p) (.fin q) = true ↔ p ≤ q := by
  simp [ER.le_iff]

theorem ER.le_refl (a : ER) : ER.le a a = true := ER.le_iff.2 le_rfl

theorem ER.le_trans {a b c : ER} (hab : ER.le a b = true) (hbc : ER.le b c = true) : ER.le a c = true :=
  ER.le_iff.2 ((ER.le_iff.1 hab).trans (ER.le_iff.1 hbc))

/-- Less or equal is less than or equal to (R119). -/
theorem ER.le_eq_lt_or_eq (a b : ER) : ER.le a b = (ER.lt a b || decide (a = b)) := by
  rw [Bool.eq_iff_iff, Bool.or_eq_true, decide_eq_true_eq, ER.le_iff, ER.lt_iff, le_iff_lt_or_eq,
    ER.toEReal_injective.eq_iff]

/-! ## The value of a datum (R111) -/

section
variable {fmt : Fmt} {v : Datum fmt}

theorem isNaN_iff : isNaN v = true ↔ ∃ q, valueOf v = .nan q := by
  unfold isNaN
  cases valueOf v <;> simp

theorem isNaN_eq_false_of_erOf {e : ER} (h : erOf v = some e) : isNaN v = false := by
  unfold erOf at h
  unfold isNaN
  cases hv : valueOf v <;> simp_all

theorem erOf_eq_none_iff : erOf v = none ↔ isNaN v = true := by
  unfold erOf isNaN
  cases valueOf v <;> simp

theorem exists_erOf (h : isNaN v = false) : ∃ e, erOf v = some e := by
  rw [← Option.ne_none_iff_exists', Ne, erOf_eq_none_iff, h]
  decide

theorem exists_erOf_of_not_isNaN {w : Datum fmt} (h : ¬ (isNaN v = true ∨ isNaN w = true)) :
    ∃ a b, erOf v = some a ∧ erOf w = some b := by
  obtain ⟨hv, hw⟩ : isNaN v = false ∧ isNaN w = false := by simpa using h
  obtain ⟨a, ha⟩ := exists_erOf hv
  obtain ⟨b, hb⟩ := exists_erOf hw
  exact ⟨a, b, ha, hb⟩

theorem erOf_of_inf {s : Bool} (h : valueOf v = .inf s) : erOf v = some (if s = true then .ninf else .pinf) := by
  simp [erOf, h]

theorem erOf_of_num {s : Bool} {r : Rat} (h : valueOf v = .num s r) : erOf v = some (.fin r) := by simp [erOf, h]

theorem erOf_eq_fin_iff {r : Rat} : erOf v = some (.fin r) ↔ ∃ s, valueOf v = .num s r := by
  unfold erOf
  rcases valueOf v with _ | s | _
  · simp
  · cases s <;> simp
  · simp

theorem isSignaling_of_erOf {e : ER} (h : erOf v = some e) : isSignaling v = false := by
  unfold erOf at h
  unfold isSignaling
  cases hv : valueOf v <;> simp_all

end

theorem valueOf_zeroDatum (fmt : Fmt) (negative : Bool) : valueOf (zeroDatum fmt negative) = .num negative 0 := by
  rw [zeroDatum, valueOf_packDatum_subnormal fmt negative (by positivity)]
  simp

theorem erOf_zeroDatum (fmt : Fmt) (negative : Bool) : erOf (zeroDatum fmt negative) = some (.fin 0) :=
  erOf_of_num (valueOf_zeroDatum fmt negative)

theorem erOf_infDatum (fmt : Fmt) (negative : Bool) :
    erOf (infDatum fmt negative) = some (if negative = true then .ninf else .pinf) :=
  erOf_of_inf (valueOf_infDatum fmt negative)

/-! ## The comparisons (R118, R119) -/

section
variable {fmt : Fmt} {x y : Datum fmt}

theorem fpEq_of_erOf {a b : ER} (hx : erOf x = some a) (hy : erOf y = some b) :
    fpEq fmt x y = (decide (a = b), noFlags) := by simp [fpEq, hx, hy]

theorem fpLt_of_erOf {a b : ER} (hx : erOf x = some a) (hy : erOf y = some b) :
    fpLt fmt x y = (ER.lt a b, noFlags) := by simp [fpLt, hx, hy]

theorem fpLe_of_erOf {a b : ER} (hx : erOf x = some a) (hy : erOf y = some b) :
    fpLe fmt x y = (ER.le a b, noFlags) := by simp [fpLe, hx, hy]

theorem erOf_eq_none_of_isNaN_or (h : isNaN x = true ∨ isNaN y = true) : erOf x = none ∨ erOf y = none :=
  h.imp erOf_eq_none_iff.2 erOf_eq_none_iff.2

theorem fpEq_of_isNaN (h : isNaN x = true ∨ isNaN y = true) :
    fpEq fmt x y = (false, invalidIf (isSignaling x || isSignaling y)) := by
  rcases erOf_eq_none_of_isNaN_or h with hx | hy
  · simp [fpEq, hx]
  · simp [fpEq, hy]

theorem fpLt_of_isNaN (h : isNaN x = true ∨ isNaN y = true) : fpLt fmt x y = (false, flagNV) := by
  rcases erOf_eq_none_of_isNaN_or h with hx | hy
  · simp [fpLt, hx]
  · simp [fpLt, hy]

theorem fpLe_of_isNaN (h : isNaN x = true ∨ isNaN y = true) : fpLe fmt x y = (false, flagNV) := by
  rcases erOf_eq_none_of_isNaN_or h with hx | hy
  · simp [fpLe, hx]
  · simp [fpLe, hy]

end

theorem invalidIf_or (p q : Bool) : invalidIf (p || q) = if p = true ∨ q = true then flagNV else noFlags := by
  simp [invalidIf]

/-! ## Intervals (R122, R123) -/

section
variable {fmt : Fmt} {I : Interval fmt} {a b : ER}

theorem bounds_eq_some_iff : bounds I = some (a, b) ↔ erOf I.lo = some a ∧ erOf I.hi = some b := by
  unfold bounds
  rcases erOf I.lo with _ | a' <;> rcases erOf I.hi with _ | b' <;> simp

theorem bounds_eq_none_iff : bounds I = none ↔ isNaN I.lo = true ∨ isNaN I.hi = true := by
  rw [← erOf_eq_none_iff, ← erOf_eq_none_iff]
  unfold bounds
  rcases erOf I.lo with _ | a' <;> rcases erOf I.hi with _ | b' <;> simp

/-- `Valid` of an interval that has bounds (R123). -/
theorem valid_iff_of_bounds (h : bounds I = some (a, b)) :
    valid I = true ↔ ER.le a b = true ∧ a ≠ .pinf ∧ b ≠ .ninf := by
  simp [valid, validBounds, h, and_assoc]

theorem validBounds_of_valid (h : bounds I = some (a, b)) (hv : valid I = true) : validBounds I = some (a, b) := by
  obtain ⟨hle, ha, hb⟩ := (valid_iff_of_bounds h).1 hv
  simp [validBounds, h, hle, ha, hb]

theorem exists_bounds_of_valid (h : valid I = true) : ∃ a b, bounds I = some (a, b) := by
  obtain ⟨⟨a, b⟩, hab⟩ := Option.isSome_iff_exists.1 h
  exact ⟨a, b, bounds_of_validBounds hab⟩

end

/-! ## The flags of the relations (43_temporal.md section 3) -/

/-- What a relation of R191 to R197 can raise: `NV` alone, only when one of the data it reads is a NaN, and then it is false. -/
structure RaisesAtMostNV (nan : Prop) (p : Bool × FlagSet) : Prop where
  flags : p.2 = noFlags ∨ p.2 = flagNV
  false_of_flagNV : p.2 = flagNV → p.1 = false
  noFlags_of_not : ¬ nan → p.2 = noFlags

theorem noFlags_ne_flagNV : noFlags ≠ flagNV := by decide

theorem raisesAtMostNV_of_cases {nan : Prop} {p : Bool × FlagSet} {c : Bool} (h : nan → p = (false, invalidIf c))
    (h' : ¬ nan → p.2 = noFlags) : RaisesAtMostNV nan p := by
  refine ⟨?_, fun hNV => ?_, h'⟩ <;> by_cases hn : nan
  · rw [h hn]
    cases c <;> simp [invalidIf]
  · exact .inl (h' hn)
  · rw [h hn]
  · exact absurd ((h' hn).symm.trans hNV) noFlags_ne_flagNV

theorem fpEq_raisesAtMostNV {fmt : Fmt} (x y : Datum fmt) :
    RaisesAtMostNV (isNaN x = true ∨ isNaN y = true) (fpEq fmt x y) := by
  refine raisesAtMostNV_of_cases fpEq_of_isNaN fun h => ?_
  obtain ⟨a, b, ha, hb⟩ := exists_erOf_of_not_isNaN h
  rw [fpEq_of_erOf ha hb]

theorem fpLt_raisesAtMostNV {fmt : Fmt} (x y : Datum fmt) :
    RaisesAtMostNV (isNaN x = true ∨ isNaN y = true) (fpLt fmt x y) := by
  refine raisesAtMostNV_of_cases (c := true) fpLt_of_isNaN fun h => ?_
  obtain ⟨a, b, ha, hb⟩ := exists_erOf_of_not_isNaN h
  rw [fpLt_of_erOf ha hb]

/-- A conjunction raises what its parts raise, and is false when one of them is. -/
theorem RaisesAtMostNV.andAlso {nan : Prop} {p q : Bool × FlagSet} (hp : RaisesAtMostNV nan p)
    (hq : RaisesAtMostNV nan q) : RaisesAtMostNV nan (andAlso p q) := by
  have hflags : (Machine.andAlso p q).2 = p.2 ||| q.2 := rfl
  have hbit : (Machine.andAlso p q).1 = (p.1 && q.1) := rfl
  refine ⟨?_, fun hNV => ?_, fun hn => by rw [hflags, hp.noFlags_of_not hn, hq.noFlags_of_not hn]; rfl⟩
  · rcases hp.flags with h | h <;> rcases hq.flags with h' | h' <;> rw [hflags, h, h'] <;> decide
  · rcases hp.flags with h | h
    · have hq' : q.2 = flagNV := by simpa [hflags, h, noFlags] using hNV
      rw [hbit, hq.false_of_flagNV hq', Bool.and_false]
    · rw [hbit, hp.false_of_flagNV h, Bool.false_and]

theorem RaisesAtMostNV.mono {m n : Prop} {p : Bool × FlagSet} (h : RaisesAtMostNV m p) (hmn : m → n) : RaisesAtMostNV n p :=
  ⟨h.flags, h.false_of_flagNV, fun hn => h.noFlags_of_not fun hm => hn (hmn hm)⟩

end Sys2Proof.Machine

section
open Sys2Proof Sys2Proof.Machine

/-- Settles O15: the table of the modes, under `DYN` read at `frm`. -/
theorem roundingModeInForce : Obligations.RoundingModeInForce := by
  intro rm frm
  refine ⟨fun mode => effRm_eq_some_iff, (effRm_eq_none_iff rm frm).trans ?_⟩
  cases rm <;> simp [Rm.bits]

/-- Settles O36: each comparison as its answer on a NaN and its answer on two values. -/
theorem comparisonPrimitives : Obligations.ComparisonPrimitives := by
  intro fmt x y
  refine ⟨fun hnan => ?_, fun a b ha hb => ?_, exists_erOf, fun s => ⟨erOf_zeroDatum fmt s, erOf_infDatum fmt s⟩, fun p q => ?_⟩
  · rw [fpEq_of_isNaN hnan, invalidIf_or]
    exact ⟨rfl, rfl, fpLt_of_isNaN hnan, fpLe_of_isNaN hnan⟩
  · rw [← ER.le_eq_lt_or_eq]
    exact ⟨fpEq_of_erOf ha hb, fpLt_of_erOf ha hb, fpLe_of_erOf ha hb⟩
  · simp [ER.lt]

/-- Settles O37: `valid` as the four conditions, which a degenerate interval meets exactly when its bound is finite. -/
theorem validIntervalConditions : Obligations.ValidIntervalConditions := by
  intro fmt
  have hfinite : ∀ {I : Interval fmt} {p q : Rat}, bounds I = some (.fin p, .fin q) → p ≤ q → valid I = true :=
    fun hI hpq => (valid_iff_of_bounds hI).2 ⟨ER.le_fin_fin.2 hpq, by simp, by simp⟩
  refine ⟨fun I => ?_, ?_, fun v r hv => ?_, fun s s' => ?_, fun s => ?_⟩
  · by_cases hnan : isNaN I.lo = true ∨ isNaN I.hi = true
    · have hv : valid I = false := by simp [valid, validBounds, bounds_eq_none_iff.2 hnan]
      rcases hnan with h | h <;> simp [hv, h]
    · obtain ⟨a, b, ha, hb⟩ := exists_erOf_of_not_isNaN hnan
      rw [valid_iff_of_bounds (bounds_eq_some_iff.2 ⟨ha, hb⟩), fpLe_of_erOf ha hb]
      simp [isNaN_eq_false_of_erOf ha, isNaN_eq_false_of_erOf hb, ha, hb]
  · have hb : bounds (entire fmt) = some (.ninf, .pinf) :=
      bounds_eq_some_iff.2 ⟨erOf_infDatum fmt true, erOf_infDatum fmt false⟩
    exact (valid_iff_of_bounds hb).2 ⟨rfl, by simp, by simp⟩
  · exact hfinite (bounds_eq_some_iff.2 ⟨hv, hv⟩) le_rfl
  · exact hfinite (bounds_eq_some_iff.2 ⟨erOf_zeroDatum fmt s, erOf_zeroDatum fmt s'⟩) le_rfl
  · rw [← Bool.not_eq_true, valid_iff_of_bounds (bounds_eq_some_iff.2 ⟨erOf_infDatum fmt s, erOf_infDatum fmt s⟩)]
    cases s <;> simp

/-- Settles O48: each relation is one comparison or a conjunction of comparisons of bounds. -/
theorem referenceRelationFlags : Obligations.ReferenceRelationFlags := by
  intro fmt X Y rel hrel
  have hnan : ∀ x ∈ [X.lo, X.hi, Y.lo, Y.hi], isNaN x = true → bounds X = none ∨ bounds Y = none := by
    simp only [List.mem_cons, List.not_mem_nil, or_false, bounds_eq_none_iff]
    rintro x (rfl | rfl | rfl | rfl) h <;> simp [h]
  have hlt : ∀ x ∈ [X.lo, X.hi, Y.lo, Y.hi], ∀ y ∈ [X.lo, X.hi, Y.lo, Y.hi],
      RaisesAtMostNV (bounds X = none ∨ bounds Y = none) (fpLt fmt x y) :=
    fun x hx y hy => (fpLt_raisesAtMostNV x y).mono (Or.rec (hnan x hx) (hnan y hy))
  have heq : ∀ x ∈ [X.lo, X.hi, Y.lo, Y.hi], ∀ y ∈ [X.lo, X.hi, Y.lo, Y.hi],
      RaisesAtMostNV (bounds X = none ∨ bounds Y = none) (fpEq fmt x y) :=
    fun x hx y hy => (fpEq_raisesAtMostNV x y).mono (Or.rec (hnan x hx) (hnan y hy))
  suffices h : RaisesAtMostNV (bounds X = none ∨ bounds Y = none) (rel fmt X Y) from
    ⟨h.flags, h.false_of_flagNV, fun hX hY => h.noFlags_of_not (by simp [hX, hY])⟩
  simp only [List.mem_cons, List.not_mem_nil, or_false] at hrel
  rcases hrel with rfl | rfl | rfl | rfl | rfl | rfl | rfl
  · exact hlt X.hi (by simp) Y.lo (by simp)
  · exact heq X.hi (by simp) Y.lo (by simp)
  · exact ((hlt X.lo (by simp) Y.lo (by simp)).andAlso (hlt Y.lo (by simp) X.hi (by simp))).andAlso
      (hlt X.hi (by simp) Y.hi (by simp))
  · exact (hlt Y.lo (by simp) X.lo (by simp)).andAlso (hlt X.hi (by simp) Y.hi (by simp))
  · exact (heq X.lo (by simp) Y.lo (by simp)).andAlso (hlt X.hi (by simp) Y.hi (by simp))
  · exact (heq X.hi (by simp) Y.hi (by simp)).andAlso (hlt Y.lo (by simp) X.lo (by simp))
  · exact (heq X.lo (by simp) Y.lo (by simp)).andAlso (heq X.hi (by simp) Y.hi (by simp))

end

/-! Rounding (R115): to an integer by thresholds, when the rounded magnitude reaches a power of two, the four answers of `round`,
and what they say of the data around the exact value. -/

namespace Sys2Proof.Machine

/-! ## The modes (R113) -/

section
variable {mode : Mode} {r : Rat}

theorem mode_cases (mode : Mode) (hr : r ≠ 0) : TowardZero mode r ∨ AwayFromZero mode r ∨ ToNearest mode := by
  rcases lt_or_gt_of_ne hr with h | h <;> cases mode <;> simp [TowardZero, AwayFromZero, ToNearest, h]

theorem AwayFromZero.not_towardZero (h : AwayFromZero mode r) : ¬ TowardZero mode r := by
  rcases h with ⟨rfl, h⟩ | ⟨rfl, h⟩ <;> simp [TowardZero, h.le]

theorem ToNearest.not_towardZero (h : ToNearest mode) : ¬ TowardZero mode r := by
  rcases h with rfl | rfl <;> simp [TowardZero]

theorem ToNearest.not_awayFromZero (h : ToNearest mode) : ¬ AwayFromZero mode r := by
  rcases h with rfl | rfl <;> simp [AwayFromZero]

end

/-! ## Rounding to an integer, by thresholds (R115) -/

section
variable {mode : Mode} {r : Rat}

theorem roundToInt_of_towardZero (h : TowardZero mode r) (n : Rat) : roundToInt mode (decide (r < 0)) n = ⌊n⌋ := by
  have hfloor : n.floor = ⌊n⌋ := rfl
  rcases h with rfl | ⟨rfl, h⟩ | ⟨rfl, h⟩
  · exact ite_self _
  · simp [roundToInt, not_lt.2 h.le, hfloor]
  · simp [roundToInt, h, hfloor]

theorem roundToInt_of_awayFromZero (h : AwayFromZero mode r) (n : Rat) : roundToInt mode (decide (r < 0)) n = ⌈n⌉ := by
  have hup : n ≤ (roundToInt mode (decide (r < 0)) n : Rat) := le_roundToInt_up mode _ n (by
    rcases h with ⟨rfl, h⟩ | ⟨rfl, h⟩ <;> simp [h, h.le])
  exact le_antisymm (roundToInt_le_of_le_intCast mode _ (Int.le_ceil n)) (Int.ceil_le.2 hup)

/-- To nearest the distance is at most one half; a tie goes to the even integer, or to the one above. -/
theorem roundToInt_of_toNearest (h : ToNearest mode) (negative : Bool) (n : Rat) :
    |(roundToInt mode negative n : Rat) - n| ≤ 1 / 2 ∧
      (|(roundToInt mode negative n : Rat) - n| = 1 / 2 →
        (mode = .rne → Even (roundToInt mode negative n)) ∧ (mode = .rmm → n < roundToInt mode negative n)) := by
  have hfloor : n.floor = ⌊n⌋ := rfl
  have h0 := Int.floor_le n
  have h1 := Int.lt_floor_add_one n
  have hdown : |(⌊n⌋ : Rat) - n| = n - ⌊n⌋ := by rw [abs_of_nonpos (by linarith)]; ring
  have hup : |((⌊n⌋ + 1 : Int) : Rat) - n| = 1 - (n - ⌊n⌋) := by
    push_cast
    rw [abs_of_nonneg (by linarith)]; ring
  rcases h with rfl | rfl <;> simp only [roundToInt, hfloor]
  · split_ifs with hz hhalf
    · rw [hdown, hz]; norm_num
    · rw [hup]
      refine ⟨by rcases hhalf with h | ⟨h, -⟩ <;> linarith, fun htie => ⟨fun _ => ?_, False.elim⟩⟩
      rcases hhalf with h | ⟨-, h⟩
      · linarith
      · exact Int.even_iff.2 (by omega)
    · rw [hdown]
      obtain ⟨hle, hodd⟩ := not_or.1 hhalf
      exact ⟨by linarith, fun htie => ⟨fun _ => Int.even_iff.2 (by
        have := not_and.1 hodd htie
        omega), False.elim⟩⟩
  · split_ifs with hz hhalf
    · rw [hdown, hz]; norm_num
    · rw [hup]
      exact ⟨by linarith, fun _ => ⟨False.elim, fun _ => by push_cast; exact h1⟩⟩
    · rw [hdown]
      exact ⟨by linarith, fun htie => absurd htie.ge hhalf⟩

/-- Where rounding reaches an even integer, in the three ways a mode can round. -/
theorem le_roundToInt_iff (hr : r ≠ 0) (mode : Mode) {N : Int} (hN : Even N) (n : Rat) :
    N ≤ roundToInt mode (decide (r < 0)) n ↔
      (TowardZero mode r ∧ (N : Rat) ≤ n) ∨ (AwayFromZero mode r ∧ (N : Rat) - 1 < n) ∨
        (ToNearest mode ∧ (N : Rat) - 1 / 2 ≤ n) := by
  rcases mode_cases mode hr with h | h | h
  · have h1 : ¬ AwayFromZero mode r := fun h' => h'.not_towardZero h
    have h2 : ¬ ToNearest mode := fun h' => h'.not_towardZero h
    simp [h, h1, h2, roundToInt_of_towardZero h, Int.le_floor]
  · have h2 : ¬ ToNearest mode := fun h' => h'.not_awayFromZero h
    simp [h, h.not_towardZero, h2, roundToInt_of_awayFromZero h, Int.le_ceil_iff]
  · obtain ⟨hdist, htie⟩ := roundToInt_of_toNearest h (decide (r < 0)) n
    simp only [h, h.not_towardZero, h.not_awayFromZero, false_and, true_and, false_or]
    rw [abs_le] at hdist
    refine ⟨fun hle => ?_, fun hle => ?_⟩
    · have : (N : Rat) ≤ roundToInt mode (decide (r < 0)) n := by exact_mod_cast hle
      linarith
    · by_contra hlt
      have hK : roundToInt mode (decide (r < 0)) n ≤ N - 1 := by omega
      have hK' : (roundToInt mode (decide (r < 0)) n : Rat) ≤ N - 1 := by exact_mod_cast hK
      have hK2 : (roundToInt mode (decide (r < 0)) n : Rat) = N - 1 := by linarith
      obtain ⟨heven, habove⟩ := htie (by rw [abs_of_nonpos] <;> linarith)
      rcases h with rfl | rfl
      · have hN1 : roundToInt .rne (decide (r < 0)) n = N - 1 := by exact_mod_cast hK2
        have := heven rfl
        rw [hN1] at this
        obtain ⟨i, hi⟩ := this
        obtain ⟨j, hj⟩ := hN
        omega
      · have := habove rfl
        linarith

/-- To nearest no integer is nearer; of two at the same distance it is the even one, or the greater one. -/
theorem roundToInt_nearest (h : ToNearest mode) (negative : Bool) (n : Rat) (m : Int) :
    |(roundToInt mode negative n : Rat) - n| ≤ |(m : Rat) - n| ∧
      (|(roundToInt mode negative n : Rat) - n| = |(m : Rat) - n| → m ≠ roundToInt mode negative n →
        (mode = .rne → Even (roundToInt mode negative n)) ∧ (mode = .rmm → m < roundToInt mode negative n)) := by
  obtain ⟨hdist, htie⟩ := roundToInt_of_toNearest h negative n
  by_cases hm : m = roundToInt mode negative n
  · exact ⟨by rw [hm], fun _ hne => absurd hm hne⟩
  have hfar : (1 : Rat) ≤ |(m : Rat) - roundToInt mode negative n| := by
    exact_mod_cast Int.one_le_abs (sub_ne_zero.2 hm)
  have htri := abs_sub_le (m : Rat) n (roundToInt mode negative n)
  rw [abs_sub_comm n] at htri
  refine ⟨by linarith, fun heq _ => ?_⟩
  obtain ⟨heven, habove⟩ := htie (by linarith)
  refine ⟨heven, fun hmode => ?_⟩
  have hK := habove hmode
  rw [abs_of_pos (by linarith)] at hdist heq
  have : (m : Rat) ≤ roundToInt mode negative n := by linarith [le_abs_self ((m : Rat) - n)]
  exact lt_of_le_of_ne (by exact_mod_cast this) hm

end

/-! ## Magnitudes on a grid -/

theorem natCast_two_pow_succ (n : Nat) : ((2 ^ (n + 1) : Nat) : Rat) = 2 * ((2 ^ n : Nat) : Rat) := by
  rw [pow_succ]; push_cast; ring

theorem pow2_pred (k : Int) : pow2 (k - 1) = pow2 k / 2 := by
  have := pow2_succ (k - 1)
  rw [sub_add_cancel] at this
  linarith

/-- A power of two in the steps of the grid of the exponent below it. -/
theorem pow2_eq_mul_grid (fmt : Fmt) (k : Int) :
    pow2 k = (((2 ^ (fracWidth fmt + 1) : Nat) : Int) : Rat) * pow2 (k - 1 - fracWidth fmt) := by
  rw [Int.cast_natCast, natCast_two_pow_succ, mul_assoc, ← pow2_shift, ← pow2_succ, sub_add_cancel]

/-- A significand that is rounded has at least `M + 1` bits where the magnitude reaches the exponent. -/
theorem two_pow_le_roundToInt (fmt : Fmt) (mode : Mode) (negative : Bool) {a : Rat} {e : Int} (h : pow2 e ≤ a) :
    ((2 ^ fracWidth fmt : Nat) : Int) ≤ roundToInt mode negative (a / pow2 (e - fracWidth fmt)) := by
  apply le_roundToInt_of_intCast_le
  rw [le_div_iff₀ (pow2_pos _), Int.cast_natCast, ← pow2_shift]
  exact h

/-- And at most `M + 1` bits, or the next power of two, where it stays below the next exponent. -/
theorem roundToInt_le_two_pow (fmt : Fmt) (mode : Mode) (negative : Bool) {a : Rat} {e : Int} (h : a ≤ pow2 (e + 1)) :
    roundToInt mode negative (a / pow2 (e - fracWidth fmt)) ≤ ((2 ^ (fracWidth fmt + 1) : Nat) : Int) := by
  apply roundToInt_le_of_le_intCast
  rw [div_le_iff₀ (pow2_pos _), show e = e + 1 - 1 by ring, ← pow2_eq_mul_grid]
  simpa using h

theorem pow2_le_onGrid (fmt : Fmt) (mode : Mode) (negative : Bool) {a : Rat} {e : Int} (h : pow2 e ≤ a) :
    pow2 e ≤ onGrid fmt mode negative a e := by
  rw [pow2_shift fmt e, onGrid]
  have := two_pow_le_roundToInt fmt mode negative h
  exact mul_le_mul_of_nonneg_right (by exact_mod_cast this) (pow2_pos _).le

theorem onGrid_le_pow2 (fmt : Fmt) (mode : Mode) (negative : Bool) {a : Rat} {e : Int} (h : a ≤ pow2 (e + 1)) :
    onGrid fmt mode negative a e ≤ pow2 (e + 1) := by
  rw [pow2_eq_mul_grid fmt (e + 1), onGrid, add_sub_cancel_right]
  have := roundToInt_le_two_pow fmt mode negative h
  exact mul_le_mul_of_nonneg_right (by exact_mod_cast this) (pow2_pos _).le

/-! ## When a rounded magnitude reaches a power of two (R115) -/

section
variable {mode : Mode} {r : Rat}

/-- From the exponent below it, the thresholds of `RoundsToAtLeast`. -/
theorem pow2_le_onGrid_pred_iff (fmt : Fmt) (mode : Mode) (hr : r ≠ 0) (k : Int) :
    pow2 k ≤ onGrid fmt mode (decide (r < 0)) |r| (k - 1) ↔ RoundsToAtLeast fmt mode r k := by
  have hq := pow2_pos (k - 1 - fracWidth fmt)
  have heven : Even ((2 ^ (fracWidth fmt + 1) : Nat) : Int) := by
    rw [pow_succ]; push_cast; exact even_two.mul_left _
  have hhalf : pow2 (k - 2 - fracWidth fmt) = 1 / 2 * pow2 (k - 1 - fracWidth fmt) := by
    rw [show k - 2 - (fracWidth fmt : Int) = k - 1 - fracWidth fmt - 1 by ring, pow2_pred]; ring
  rw [RoundsToAtLeast, onGrid, hhalf, pow2_eq_mul_grid fmt k, mul_le_mul_iff_left₀ hq, Int.cast_le,
    le_roundToInt_iff hr mode heven, le_div_iff₀ hq, lt_div_iff₀ hq, le_div_iff₀ hq, sub_mul, sub_mul, one_mul]

/-- The magnitude rounded without a bound on the exponent reaches `2^k` exactly at the thresholds of `RoundsToAtLeast`. -/
theorem pow2_le_roundUnbounded_iff (fmt : Fmt) (mode : Mode) (hr : r ≠ 0) (k : Int) :
    pow2 k ≤ roundUnbounded fmt mode (decide (r < 0)) |r| ↔ RoundsToAtLeast fmt mode r k := by
  obtain ⟨hlo, hhi⟩ := floorLog2_spec (abs_pos.2 hr)
  rw [roundUnbounded_eq_onGrid]
  generalize floorLog2 |r| = e at hlo hhi
  have hM : pow2 (k - 1 - fracWidth fmt) ≤ pow2 k / 2 := by
    rw [← pow2_pred]; exact pow2_le_iff.2 (by omega)
  have hM' : pow2 (k - 2 - fracWidth fmt) ≤ pow2 k / 2 := by
    rw [← pow2_pred]; exact pow2_le_iff.2 (by omega)
  have hp := pow2_pos (k - 1 - fracWidth fmt)
  have hp' := pow2_pos (k - 2 - fracWidth fmt)
  rcases lt_trichotomy e (k - 1) with hlt | rfl | hgt
  · have hsmall : pow2 (e + 1) ≤ pow2 k / 2 := by rw [← pow2_pred]; exact pow2_le_iff.2 (by omega)
    have hk := pow2_pos k
    have hu : ¬ pow2 k ≤ onGrid fmt mode (decide (r < 0)) |r| e := by
      have := onGrid_le_pow2 fmt mode (decide (r < 0)) hhi.le
      linarith
    refine iff_of_false hu ?_
    rintro (⟨-, h⟩ | ⟨-, h⟩ | ⟨-, h⟩) <;> linarith
  · exact pow2_le_onGrid_pred_iff fmt mode hr k
  · have hbig : pow2 k ≤ pow2 e := pow2_le_iff.2 (by omega)
    refine iff_of_true (hbig.trans (pow2_le_onGrid fmt mode _ hlo)) ?_
    rcases mode_cases mode hr with h | h | h
    · exact .inl ⟨h, hbig.trans hlo⟩
    · exact .inr (.inl ⟨h, by linarith⟩)
    · exact .inr (.inr ⟨h, by linarith⟩)

/-- No magnitude that a format represents is passed by rounding without a bound on the exponent. -/
theorem roundUnbounded_le_of_representable {fmt : Fmt} {b : Rat} (mode : Mode) (negative : Bool) (hr : r ≠ 0)
    (hb : Representable fmt b) (hab : |r| ≤ b) : roundUnbounded fmt mode negative |r| ≤ b := by
  rw [roundUnbounded_eq_onGrid]
  exact onGrid_le_of_representable mode negative hb hab (grid_unbounded (abs_pos.2 hr) fmt)

theorem pow2_emax_le_maxFinite (fmt : Fmt) : pow2 (emax fmt) ≤ maxFinite fmt := by
  have h : pow2 (-(fracWidth fmt : Int)) ≤ pow2 0 := pow2_le_iff.2 (by omega)
  have h1 : pow2 0 = 1 := rfl
  rw [maxFinite]
  exact le_mul_of_one_le_left (pow2_pos _).le (by linarith)

theorem maxFinite_eq_sub (fmt : Fmt) : maxFinite fmt = pow2 (emax fmt + 1) - pow2 (emax fmt - fracWidth fmt) := by
  rw [maxFinite, pow2_succ, sub_mul, ← pow2_add, neg_add_eq_sub]

/-- Overflow (R115 step 2) as a threshold: past the largest finite number comes `2^(emax+1)`. -/
theorem maxFinite_lt_roundUnbounded_iff (fmt : Fmt) (mode : Mode) (hr : r ≠ 0) :
    maxFinite fmt < roundUnbounded fmt mode (decide (r < 0)) |r| ↔ RoundsToAtLeast fmt mode r (emax fmt + 1) := by
  rw [← pow2_le_roundUnbounded_iff fmt mode hr]
  refine ⟨fun hlt => ?_, (maxFinite_lt fmt).trans_le⟩
  obtain ⟨hlo, hhi⟩ := floorLog2_spec (abs_pos.2 hr)
  have hr' : maxFinite fmt < |r| := by
    by_contra hle
    exact absurd (roundUnbounded_le_of_representable mode _ hr (representable_maxFinite fmt) (not_lt.1 hle)) (not_le.2 hlt)
  have he : emax fmt ≤ floorLog2 |r| := by
    have := pow2_lt_iff.1 ((pow2_emax_le_maxFinite fmt).trans_lt (hr'.trans hhi))
    omega
  rw [roundUnbounded_eq_onGrid] at hlt ⊢
  rcases he.eq_or_lt with he | he
  · rw [← he, onGrid] at hlt ⊢
    rw [pow2_eq_mul_grid fmt (emax fmt + 1), add_sub_cancel_right]
    rw [maxFinite_eq] at hlt
    have hK := lt_of_mul_lt_mul_right hlt (pow2_pos _).le
    refine mul_le_mul_of_nonneg_right ?_ (pow2_pos _).le
    have hP := Nat.one_le_two_pow (n := fracWidth fmt + 1)
    have hK' : ((2 ^ (fracWidth fmt + 1) - 1 : Nat) : Int)
      < roundToInt mode (decide (r < 0)) (|r| / pow2 (emax fmt - fracWidth fmt)) := by exact_mod_cast hK
    exact Int.cast_le.2 (by omega)
  · exact (pow2_le_iff.2 (by omega)).trans (pow2_le_onGrid fmt mode _ hlo)

theorem not_roundsToAtLeast_of_le_maxFinite {fmt : Fmt} (hr : r ≠ 0) (h : |r| ≤ maxFinite fmt) :
    ¬ RoundsToAtLeast fmt mode r (emax fmt + 1) := by
  rw [← maxFinite_lt_roundUnbounded_iff fmt mode hr, not_lt]
  exact roundUnbounded_le_of_representable mode _ hr (representable_maxFinite fmt) h

end

/-! ## The answers of `round` (R115) -/

/-- What `round` answers for a non-zero `r`, with the magnitude `d` that it delivers without overflow: an overflow, or the datum
of `d`, unrounded, inexact or tiny. -/
inductive Rounded (fmt : Fmt) (mode : Mode) (r d : Rat) : Datum fmt → FlagSet → Prop
  | overflow (h : RoundsToAtLeast fmt mode r (emax fmt + 1)) :
    Rounded fmt mode r d (overflowResult fmt mode (decide (r < 0))) (flagOF ||| flagNX)
  | unrounded (h : ¬ RoundsToAtLeast fmt mode r (emax fmt + 1)) (hd : Representable fmt d) (heq : d = |r|) :
    Rounded fmt mode r d (datumOfMagnitude fmt (decide (r < 0)) d) noFlags
  | inexact (h : ¬ RoundsToAtLeast fmt mode r (emax fmt + 1)) (hd : Representable fmt d) (hne : d ≠ |r|)
    (hmin : RoundsToAtLeast fmt mode r (emin fmt)) :
    Rounded fmt mode r d (datumOfMagnitude fmt (decide (r < 0)) d) flagNX
  | tiny (h : ¬ RoundsToAtLeast fmt mode r (emax fmt + 1)) (hd : Representable fmt d) (hne : d ≠ |r|)
    (hmin : ¬ RoundsToAtLeast fmt mode r (emin fmt)) :
    Rounded fmt mode r d (datumOfMagnitude fmt (decide (r < 0)) d) (flagNX ||| flagUF)

/-- The magnitude that `round` delivers without overflow (R115 step 3). -/
def deliveredMagnitude (fmt : Fmt) (mode : Mode) (r : Rat) : Rat := roundDelivered fmt mode (decide (r < 0)) |r|

section
variable {fmt : Fmt} {mode : Mode} {r : Rat}

theorem rounded (fmt : Fmt) (mode : Mode) (hr : r ≠ 0) :
    Rounded fmt mode r (deliveredMagnitude fmt mode r) (roundRat fmt mode r).1 (roundRat fmt mode r).2 := by
  have hcases := roundRat_cases fmt mode hr
  rw [rat_abs_eq] at hcases
  obtain ⟨hover, heq⟩ | ⟨hover, hd, heq⟩ := hcases
  · rw [heq]
    exact .overflow ((maxFinite_lt_roundUnbounded_iff fmt mode hr).1 hover)
  · rw [← deliveredMagnitude] at hd heq
    rw [heq]
    have hnot : ¬ RoundsToAtLeast fmt mode r (emax fmt + 1) := by
      rwa [← maxFinite_lt_roundUnbounded_iff fmt mode hr, not_lt]
    unfold roundFlags
    split_ifs with hexact htiny
    · exact .unrounded hnot hd hexact
    · exact .tiny hnot hd hexact (by rwa [← pow2_le_roundUnbounded_iff fmt mode hr, not_le])
    · exact .inexact hnot hd hexact (by rwa [← pow2_le_roundUnbounded_iff fmt mode hr, ← not_lt])

/-- What an overflow answers (R115 step 2): `OF` and `NX`, and the largest finite number or an infinity. -/
theorem roundRat_of_overflow (hr : r ≠ 0) (h : RoundsToAtLeast fmt mode r (emax fmt + 1)) :
    roundRat fmt mode r = (overflowResult fmt mode (decide (r < 0)), flagOF ||| flagNX) := by
  have hcases := rounded fmt mode hr
  rw [← Prod.mk.eta (p := roundRat fmt mode r)]
  generalize (roundRat fmt mode r).1 = v, (roundRat fmt mode r).2 = fl at hcases
  cases hcases with
  | overflow => rfl
  | unrounded hnot => exact absurd h hnot
  | inexact hnot => exact absurd h hnot
  | tiny hnot => exact absurd h hnot

/-- Without overflow `round` delivers the datum of the delivered magnitude. -/
theorem roundRat_of_not_overflow (hr : r ≠ 0) (h : ¬ RoundsToAtLeast fmt mode r (emax fmt + 1)) :
    Representable fmt (deliveredMagnitude fmt mode r) ∧
      (roundRat fmt mode r).1 = datumOfMagnitude fmt (decide (r < 0)) (deliveredMagnitude fmt mode r) := by
  have hcases := rounded fmt mode hr
  generalize (roundRat fmt mode r).1 = v, (roundRat fmt mode r).2 = fl at hcases
  cases hcases with
  | overflow h' => exact absurd h' h
  | unrounded _ hd => exact ⟨hd, rfl⟩
  | inexact _ hd => exact ⟨hd, rfl⟩
  | tiny _ hd => exact ⟨hd, rfl⟩

theorem signFactor_decide_mul_abs (r : Rat) : signFactor (decide (r < 0)) * |r| = r := by
  rcases lt_or_ge r 0 with h | h
  · simp [signFactor, h, abs_of_neg h]
  · simp [signFactor, not_lt.2 h, abs_of_nonneg h]

theorem signFactor_mul_eq_zero {negative : Bool} {d : Rat} : signFactor negative * d = 0 ↔ d = 0 := by
  cases negative <;> simp [signFactor]

theorem signFactor_mul_inj {negative : Bool} {a b : Rat} : signFactor negative * a = signFactor negative * b ↔ a = b := by
  cases negative <;> simp [signFactor]

theorem abs_signFactor_mul (negative : Bool) (d : Rat) : |signFactor negative * d| = |d| := by
  cases negative <;> simp [signFactor]

theorem erOf_datumOfMagnitude {d : Rat} (negative : Bool) (h : Representable fmt d) :
    erOf (datumOfMagnitude fmt negative d) = some (.fin (signFactor negative * d)) :=
  erOf_of_num (valueOf_datumOfMagnitude negative h)

/-- A magnitude that the format represents is the one delivered, with no flag. -/
theorem roundRat_of_representable (mode : Mode) (hr : r ≠ 0) (h : Representable fmt |r|) :
    roundRat fmt mode r = (datumOfMagnitude fmt (decide (r < 0)) |r|, noFlags) := by
  have hd : deliveredMagnitude fmt mode r = |r| := (round_of_representable (abs_pos.2 hr) h mode _).2
  have hnot := not_roundsToAtLeast_of_le_maxFinite (mode := mode) hr h.le_maxFinite
  have hcases := rounded fmt mode hr
  rw [hd] at hcases
  rw [← Prod.mk.eta (p := roundRat fmt mode r)]
  generalize (roundRat fmt mode r).1 = v, (roundRat fmt mode r).2 = fl at hcases
  cases hcases with
  | overflow h => exact absurd h hnot
  | unrounded => rfl
  | inexact _ _ hne => exact absurd rfl hne
  | tiny _ _ hne => exact absurd rfl hne

/-- The value of a datum, as its sign and a magnitude of the format. -/
theorem exists_magnitude_of_fin {v : Datum fmt} (h : erOf v = some (.fin r)) :
    ∃ s b, Representable fmt b ∧ r = signFactor s * b ∧ v = datumOfMagnitude fmt s b := by
  obtain ⟨s, hs⟩ := erOf_eq_fin_iff.1 h
  obtain ⟨b, hb, hval, hv⟩ := exists_magnitude_of_num hs
  exact ⟨s, b, hb, hval, hv⟩

theorem representable_abs_of_fin {v : Datum fmt} (h : erOf v = some (.fin r)) : Representable fmt |r| := by
  obtain ⟨s, b, hb, rfl, -⟩ := exists_magnitude_of_fin h
  rwa [abs_signFactor_mul, abs_of_nonneg hb.nonneg]

/-- A value that the format represents is delivered as itself with no flag. -/
theorem roundRat_of_erOf (mode : Mode) (hr : r ≠ 0) {v : Datum fmt} (h : erOf v = some (.fin r)) :
    roundRat fmt mode r = (v, noFlags) := by
  rw [roundRat_of_representable mode hr (representable_abs_of_fin h)]
  obtain ⟨s, b, hb, rfl, rfl⟩ := exists_magnitude_of_fin h
  have hb0 : 0 < b := hb.nonneg.lt_of_ne' fun h0 => hr (signFactor_mul_eq_zero.2 h0)
  have hs : decide (signFactor s * b < 0) = s := by
    cases s <;> simp [signFactor, hb0, hb0.le]
  rw [hs, abs_signFactor_mul, abs_of_pos hb0]

/-! ### An overflow -/

theorem erOf_maxFiniteDatum (fmt : Fmt) (negative : Bool) :
    erOf (maxFiniteDatum fmt negative) = some (.fin (signFactor negative * maxFinite fmt)) :=
  erOf_of_num (valueOf_maxFiniteDatum fmt negative)

theorem overflowResult_of_towardZero (fmt : Fmt) (h : TowardZero mode r) :
    overflowResult fmt mode (decide (r < 0)) = maxFiniteDatum fmt (decide (r < 0)) := by
  rcases h with rfl | ⟨rfl, h⟩ | ⟨rfl, h⟩
  · rfl
  · simp [overflowResult, not_lt.2 h.le]
  · simp [overflowResult, h]

theorem overflowResult_of_not_towardZero (fmt : Fmt) (hr : r ≠ 0) (h : ¬ TowardZero mode r) :
    overflowResult fmt mode (decide (r < 0)) = infDatum fmt (decide (r < 0)) := by
  rcases mode_cases mode hr with h' | h' | h'
  · exact absurd h' h
  · rcases h' with ⟨rfl, h'⟩ | ⟨rfl, h'⟩
    · simp [overflowResult, h']
    · simp [overflowResult, not_lt.2 h'.le]
  · rcases h' with rfl | rfl <;> rfl

theorem maxFinite_pos (fmt : Fmt) : 0 < maxFinite fmt := (pow2_pos _).trans_le (pow2_emax_le_maxFinite fmt)

/-- An overflow delivers neither the exact value nor a zero. -/
theorem erOf_overflowResult_ne (hr : r ≠ 0) (h : RoundsToAtLeast fmt mode r (emax fmt + 1)) {q : Rat}
    (hq : erOf (overflowResult fmt mode (decide (r < 0))) = some (.fin q)) : q ≠ r ∧ q ≠ 0 := by
  by_cases hz : TowardZero mode r
  · rw [overflowResult_of_towardZero fmt hz, erOf_maxFiniteDatum] at hq
    injection hq with hq
    injection hq with hq
    subst hq
    refine ⟨fun heq => ?_, fun h0 => (maxFinite_pos fmt).ne' (signFactor_mul_eq_zero.1 h0)⟩
    refine not_roundsToAtLeast_of_le_maxFinite hr ?_ h
    rw [← heq, abs_signFactor_mul, abs_of_pos (maxFinite_pos fmt)]
  · rw [overflowResult_of_not_towardZero fmt hr hz, erOf_infDatum] at hq
    split at hq <;> simp at hq

end

/-! ## The delivered value among the data of the format (R115) -/

theorem ER.toEReal_neg (a : ER) : a.neg.toEReal = -a.toEReal := by
  cases a <;> simp [ER.neg]

/-- A magnitude with a sign. -/
def ER.signed (negative : Bool) (m : ER) : ER := if negative = true then m.neg else m

theorem ER.signed_fin (negative : Bool) (q : Rat) : ER.signed negative (.fin q) = .fin (signFactor negative * q) := by
  cases negative <;> simp [ER.signed, ER.neg, signFactor]

theorem ER.signed_pinf (negative : Bool) : ER.signed negative .pinf = if negative = true then .ninf else .pinf := rfl

theorem ER.signed_le_signed {negative : Bool} {a b : ER} :
    ER.le (.signed negative a) (.signed negative b) = if negative = true then ER.le b a else ER.le a b := by
  cases negative with
  | false => rfl
  | true =>
    change ER.le a.neg b.neg = ER.le b a
    rw [Bool.eq_iff_iff, ER.le_iff, ER.le_iff, ER.toEReal_neg, ER.toEReal_neg, EReal.neg_le_neg_iff]

section
variable {fmt : Fmt} {mode : Mode} {r : Rat}

/-- The magnitude of the result of rounding `r`: it passes no magnitude that the format represents, and lies on the side of `|r|`
that a directed mode asks for. -/
structure RoundedMagnitude (fmt : Fmt) (mode : Mode) (r : Rat) (m : ER) : Prop where
  nonneg : ER.le (.fin 0) m = true
  le_of_le : ∀ b, Representable fmt b → b ≤ |r| → ER.le (.fin b) m = true
  ge_of_ge : ∀ b, Representable fmt b → |r| ≤ b → ER.le m (.fin b) = true
  towardZero : TowardZero mode r → ER.le m (.fin |r|) = true
  awayFromZero : AwayFromZero mode r → ER.le (.fin |r|) m = true

theorem roundedMagnitude_delivered (hr : r ≠ 0) (hd : Representable fmt (deliveredMagnitude fmt mode r)) :
    RoundedMagnitude fmt mode r (.fin (deliveredMagnitude fmt mode r)) := by
  have hgrid := grid_delivered (abs_pos.2 hr) fmt
  refine ⟨ER.le_fin_fin.2 hd.nonneg, ?_, ?_, ?_, ?_⟩ <;> simp only [ER.le_fin_fin]
  all_goals rw [deliveredMagnitude, roundDelivered_eq_onGrid]
  · exact fun b hb h => le_onGrid_of_representable mode _ hb h hgrid
  · exact fun b hb h => onGrid_le_of_representable mode _ hb h hgrid
  · intro h
    refine onGrid_le fmt _ _ ?_
    rcases h with h | ⟨h, h'⟩ | ⟨h, h'⟩
    · exact .inl h
    · exact .inr (.inl ⟨h, decide_eq_false h'.not_gt⟩)
    · exact .inr (.inr ⟨h, decide_eq_true h'⟩)
  · intro h
    refine le_onGrid fmt _ _ ?_
    rcases h with ⟨h, h'⟩ | ⟨h, h'⟩
    · exact .inl ⟨h, decide_eq_true h'⟩
    · exact .inr ⟨h, decide_eq_false h'.not_gt⟩

/-- Past the largest finite number no magnitude of the format is left to pass. -/
theorem exists_roundedMagnitude_overflow (hr : r ≠ 0) (h : RoundsToAtLeast fmt mode r (emax fmt + 1)) :
    ∃ m, erOf (overflowResult fmt mode (decide (r < 0))) = some (.signed (decide (r < 0)) m) ∧
      RoundedMagnitude fmt mode r m := by
  have hlt : maxFinite fmt < |r| := by
    by_contra hle
    exact not_roundsToAtLeast_of_le_maxFinite hr (not_lt.1 hle) h
  have hpass : ∀ m b, Representable fmt b → |r| ≤ b → ER.le m (.fin b) = true :=
    fun m b hb hle => absurd (hlt.trans_le hle) (not_lt.2 hb.le_maxFinite)
  have hpinf : ∀ a : ER, ER.le a .pinf = true := fun a => ER.le_iff.2 le_top
  by_cases hz : TowardZero mode r
  · refine ⟨.fin (maxFinite fmt), by rw [overflowResult_of_towardZero fmt hz, erOf_maxFiniteDatum, ER.signed_fin], ?_⟩
    exact ⟨ER.le_fin_fin.2 (maxFinite_pos fmt).le, fun b hb _ => ER.le_fin_fin.2 hb.le_maxFinite, hpass _,
      fun _ => ER.le_fin_fin.2 hlt.le, fun ha => absurd hz ha.not_towardZero⟩
  · refine ⟨.pinf, by rw [overflowResult_of_not_towardZero fmt hr hz, erOf_infDatum, ER.signed_pinf], ?_⟩
    exact ⟨hpinf _, fun b _ _ => hpinf _, hpass _, fun hz' => absurd hz' hz, fun _ => hpinf _⟩

theorem exists_roundedMagnitude (fmt : Fmt) (mode : Mode) (hr : r ≠ 0) :
    ∃ m, erOf (roundRat fmt mode r).1 = some (.signed (decide (r < 0)) m) ∧ RoundedMagnitude fmt mode r m := by
  by_cases h : RoundsToAtLeast fmt mode r (emax fmt + 1)
  · rw [roundRat_of_overflow hr h]
    exact exists_roundedMagnitude_overflow hr h
  · obtain ⟨hd, hdatum⟩ := roundRat_of_not_overflow hr h
    exact ⟨_, by rw [hdatum, erOf_datumOfMagnitude _ hd, ER.signed_fin], roundedMagnitude_delivered hr hd⟩

theorem ER.fin_eq_signed (r : Rat) : ER.fin r = .signed (decide (r < 0)) (.fin |r|) := by
  rw [ER.signed_fin, signFactor_decide_mul_abs]

theorem towardZero_rdn_or_awayFromZero (hr : r ≠ 0) :
    (decide (r < 0) = false ∧ TowardZero .rdn r ∧ AwayFromZero .rup r) ∨
      (decide (r < 0) = true ∧ AwayFromZero .rdn r ∧ TowardZero .rup r) := by
  rcases lt_or_gt_of_ne hr with h | h
  · exact .inr ⟨decide_eq_true h, .inl ⟨rfl, h⟩, .inr (.inr ⟨rfl, h⟩)⟩
  · exact .inl ⟨decide_eq_false h.not_gt, .inr (.inl ⟨rfl, h⟩), .inr ⟨rfl, h⟩⟩

/-- `RDN` is never above the exact value (R115). -/
theorem roundRat_rdn_le (fmt : Fmt) (hr : r ≠ 0) {e : ER} (he : erOf (roundRat fmt .rdn r).1 = some e) :
    ER.le e (.fin r) = true := by
  obtain ⟨m, hm, hmag⟩ := exists_roundedMagnitude fmt .rdn hr
  obtain rfl := Option.some.inj (he.symm.trans hm)
  rw [ER.fin_eq_signed, ER.signed_le_signed]
  rcases towardZero_rdn_or_awayFromZero hr with ⟨hs, h, -⟩ | ⟨hs, h, -⟩
  · simpa [hs] using hmag.towardZero h
  · simpa [hs] using hmag.awayFromZero h

/-- `RUP` is never below the exact value (R115). -/
theorem le_roundRat_rup (fmt : Fmt) (hr : r ≠ 0) {e : ER} (he : erOf (roundRat fmt .rup r).1 = some e) :
    ER.le (.fin r) e = true := by
  obtain ⟨m, hm, hmag⟩ := exists_roundedMagnitude fmt .rup hr
  obtain rfl := Option.some.inj (he.symm.trans hm)
  rw [ER.fin_eq_signed, ER.signed_le_signed]
  rcases towardZero_rdn_or_awayFromZero hr with ⟨hs, -, h⟩ | ⟨hs, -, h⟩
  · simpa [hs] using hmag.awayFromZero h
  · simpa [hs] using hmag.towardZero h

theorem ER.neg_le_comm {a b : ER} : ER.le a.neg b = ER.le b.neg a := by
  rw [Bool.eq_iff_iff, ER.le_iff, ER.le_iff, ER.toEReal_neg, ER.toEReal_neg, EReal.neg_le]

theorem ER.le_neg_comm {a b : ER} : ER.le a b.neg = ER.le b a.neg := by
  rw [Bool.eq_iff_iff, ER.le_iff, ER.le_iff, ER.toEReal_neg, ER.toEReal_neg, EReal.le_neg]

/-- A rounded magnitude passes no finite datum on the side of zero of `r`, and stays on that side. -/
theorem RoundedMagnitude.passes_no_fin {m : ER} (h : RoundedMagnitude fmt mode r m) {q : Rat} (hq : Representable fmt |q|) :
    (ER.le (.fin q) (.fin r) = true → ER.le (.fin q) (.signed (decide (r < 0)) m) = true) ∧
      (ER.le (.fin r) (.fin q) = true → ER.le (.signed (decide (r < 0)) m) (.fin q) = true) := by
  have hneg : (ER.fin q).neg = .fin (-q) := rfl
  simp only [ER.le_fin_fin]
  rcases lt_or_ge r 0 with hr | hr
  · rw [decide_eq_true hr, show ER.signed true m = m.neg from rfl, ER.le_neg_comm, ER.neg_le_comm, hneg]
    refine ⟨fun hle => ?_, fun hle => ?_⟩
    · have hge := h.ge_of_ge _ hq (abs_le_abs_of_nonpos hr.le hle)
      rwa [abs_of_nonpos (hle.trans hr.le)] at hge
    · rcases lt_or_ge q 0 with hq0 | hq0
      · have hge := h.le_of_le _ hq (abs_le_abs_of_nonpos hq0.le hle)
        rwa [abs_of_neg hq0] at hge
      · exact ER.le_trans (ER.le_fin_fin.2 (neg_nonpos.2 hq0)) h.nonneg
  · rw [decide_eq_false hr.not_gt, show ER.signed false m = m from rfl]
    refine ⟨fun hle => ?_, fun hle => ?_⟩
    · rcases lt_or_ge 0 q with hq0 | hq0
      · have hge := h.le_of_le _ hq (abs_le_abs_of_nonneg hq0.le hle)
        rwa [abs_of_pos hq0] at hge
      · exact ER.le_trans (ER.le_fin_fin.2 hq0) h.nonneg
    · have hge := h.ge_of_ge _ hq (abs_le_abs_of_nonneg hr hle)
      rwa [abs_of_nonneg (hr.trans hle)] at hge

/-- Rounding in any mode passes no datum of the format (R115). -/
theorem roundRat_passes_no_datum (fmt : Fmt) (mode : Mode) (hr : r ≠ 0) {x e : ER}
    (hx : erOf (roundRat fmt mode r).1 = some x) {v : Datum fmt} (he : erOf v = some e) :
    (ER.le e (.fin r) = true → ER.le e x = true) ∧ (ER.le (.fin r) e = true → ER.le x e = true) := by
  obtain ⟨m, hm, hmag⟩ := exists_roundedMagnitude fmt mode hr
  obtain rfl := Option.some.inj (hx.symm.trans hm)
  cases e with
  | ninf => exact ⟨fun _ => ER.le_iff.2 bot_le, fun h => absurd (ER.le_iff.1 h) (by simp)⟩
  | pinf => exact ⟨fun h => absurd (ER.le_iff.1 h) (by simp), fun _ => ER.le_iff.2 le_top⟩
  | fin q => exact hmag.passes_no_fin (representable_abs_of_fin he)

end

/-! ## The flags of rounding (R115 step 4) -/

section
variable {fmt : Fmt} {mode : Mode} {r : Rat}

theorem Rounded.flags {d : Rat} {v : Datum fmt} {fl : FlagSet} (h : Rounded fmt mode r d v fl) :
    fl = noFlags ∨ fl = flagNX ∨ fl = (flagNX ||| flagUF) ∨ fl = (flagOF ||| flagNX) := by
  cases h with
  | overflow => exact .inr (.inr (.inr rfl))
  | unrounded => exact .inl rfl
  | inexact => exact .inr (.inl rfl)
  | tiny => exact .inr (.inr (.inl rfl))

/-- `OF` and `UF` come with `NX`; `NV` and `DZ` are never raised. -/
theorem roundRat_flags (fmt : Fmt) (mode : Mode) (hr : r ≠ 0) :
    ((roundRat fmt mode r).2 &&& (flagOF ||| flagUF) ≠ 0#5 → (roundRat fmt mode r).2 &&& flagNX ≠ 0#5) ∧
      (roundRat fmt mode r).2 &&& (flagNV ||| flagDZ) = 0#5 := by
  rcases (rounded fmt mode hr).flags with h | h | h | h <;> rw [h] <;> decide

theorem Rounded.of_iff {d : Rat} {v : Datum fmt} {fl : FlagSet} (h : Rounded fmt mode r d v fl) :
    fl &&& flagOF ≠ 0#5 ↔ RoundsToAtLeast fmt mode r (emax fmt + 1) := by
  cases h with
  | overflow h => exact iff_of_true (by decide) h
  | unrounded h => exact iff_of_false (by decide) h
  | inexact h => exact iff_of_false (by decide) h
  | tiny h => exact iff_of_false (by decide) h

theorem RoundsToAtLeast.mono {k l : Int} (hr : r ≠ 0) (h : RoundsToAtLeast fmt mode r l) (hkl : k ≤ l) :
    RoundsToAtLeast fmt mode r k := by
  rw [← pow2_le_roundUnbounded_iff fmt mode hr] at h ⊢
  exact (pow2_le_iff.2 hkl).trans h

theorem Rounded.uf_iff {d : Rat} {v : Datum fmt} {fl : FlagSet} (hr : r ≠ 0) (h : Rounded fmt mode r d v fl) :
    fl &&& flagUF ≠ 0#5 ↔ fl &&& flagNX ≠ 0#5 ∧ ¬ RoundsToAtLeast fmt mode r (emin fmt) := by
  cases h with
  | overflow h =>
    have hmin := h.mono hr (k := emin fmt) (by have := emin_le_emax fmt; omega)
    exact iff_of_false (by decide) fun h' => h'.2 hmin
  | unrounded => exact iff_of_false (by decide) fun h' => absurd h'.1 (by decide)
  | inexact _ _ _ hmin => exact iff_of_false (by decide) fun h' => h'.2 hmin
  | tiny _ _ _ hmin => exact iff_of_true (by decide) ⟨by decide, hmin⟩

theorem erOf_datumOfMagnitude_eq_iff {d : Rat} (hd : Representable fmt d) :
    erOf (datumOfMagnitude fmt (decide (r < 0)) d) = some (.fin r) ↔ d = |r| := by
  rw [erOf_datumOfMagnitude _ hd, Option.some_inj, ER.fin.injEq]
  conv_lhs => rhs; rw [← signFactor_decide_mul_abs r]
  exact signFactor_mul_inj

theorem Rounded.nx_iff {d : Rat} {v : Datum fmt} {fl : FlagSet} (hr : r ≠ 0) (h : Rounded fmt mode r d v fl) :
    fl &&& flagNX = 0#5 ↔ erOf v = some (.fin r) := by
  cases h with
  | overflow h => exact iff_of_false (by decide) fun heq => (erOf_overflowResult_ne hr h heq).1 rfl
  | unrounded _ hd heq => exact iff_of_true (by decide) ((erOf_datumOfMagnitude_eq_iff hd).2 heq)
  | inexact _ hd hne => exact iff_of_false (by decide) fun h => hne ((erOf_datumOfMagnitude_eq_iff hd).1 h)
  | tiny _ hd hne => exact iff_of_false (by decide) fun h => hne ((erOf_datumOfMagnitude_eq_iff hd).1 h)

theorem datumOfMagnitude_zero (fmt : Fmt) (negative : Bool) : datumOfMagnitude fmt negative 0 = zeroDatum fmt negative := by
  have h := datumOfMagnitude_subnormal fmt negative (n := 0) (by positivity)
  rwa [Nat.cast_zero, zero_mul] at h

/-- A zero that is delivered has the sign of the exact value. -/
theorem Rounded.eq_zeroDatum {d : Rat} {v : Datum fmt} {fl : FlagSet} (hr : r ≠ 0) (h : Rounded fmt mode r d v fl)
    (h0 : erOf v = some (.fin 0)) : v = zeroDatum fmt (decide (r < 0)) := by
  have hzero : Representable fmt d → erOf (datumOfMagnitude fmt (decide (r < 0)) d) = some (.fin 0) →
      datumOfMagnitude fmt (decide (r < 0)) d = zeroDatum fmt (decide (r < 0)) := by
    intro hd h
    rw [erOf_datumOfMagnitude _ hd, Option.some_inj, ER.fin.injEq, signFactor_mul_eq_zero] at h
    rw [h, datumOfMagnitude_zero]
  cases h with
  | overflow h => exact absurd rfl (erOf_overflowResult_ne hr h h0).2
  | unrounded _ hd => exact hzero hd h0
  | inexact _ hd => exact hzero hd h0
  | tiny _ hd => exact hzero hd h0

theorem exists_erOf_roundRat (fmt : Fmt) (mode : Mode) (hr : r ≠ 0) : ∃ e, erOf (roundRat fmt mode r).1 = some e :=
  (exists_roundedMagnitude fmt mode hr).elim fun _ h => ⟨_, h.1⟩

/-- `RTZ` delivers, of the data of no larger magnitude than the exact value, the one of largest magnitude. -/
theorem exists_roundRat_rtz (fmt : Fmt) (hr : r ≠ 0) :
    ∃ d, erOf (roundRat fmt .rtz r).1 = some (.fin d) ∧ 0 ≤ d * r ∧ |d| ≤ |r| ∧
      ∀ (v : Datum fmt) (e : Rat), erOf v = some (.fin e) → |e| ≤ |r| → |e| ≤ |d| := by
  obtain ⟨m, hm, hmag⟩ := exists_roundedMagnitude fmt .rtz hr
  have hle := hmag.towardZero (.inl rfl)
  have h0 := hmag.nonneg
  cases m with
  | ninf => exact absurd (ER.le_iff.1 h0) (by simp)
  | pinf => exact absurd (ER.le_iff.1 hle) (by simp)
  | fin d =>
    rw [ER.le_fin_fin] at hle h0
    refine ⟨signFactor (decide (r < 0)) * d, by rw [hm, ER.signed_fin], ?_, ?_, fun v e he hle' => ?_⟩
    · have hsq : signFactor (decide (r < 0)) * signFactor (decide (r < 0)) = 1 := by
        cases decide (r < 0) <;> simp [signFactor]
      calc 0 ≤ d * |r| := mul_nonneg h0 (abs_nonneg r)
        _ = signFactor (decide (r < 0)) * d * (signFactor (decide (r < 0)) * |r|) := by
            linear_combination (-d * |r|) * hsq
        _ = signFactor (decide (r < 0)) * d * r := by rw [signFactor_decide_mul_abs]
    · rwa [abs_signFactor_mul, abs_of_nonneg h0]
    · rw [abs_signFactor_mul, abs_of_nonneg h0]
      exact ER.le_fin_fin.1 (hmag.le_of_le _ (representable_abs_of_fin he) hle')

end

/-! ## Rounding an extended real, and outward (R121) -/

theorem zeroDatum_false (fmt : Fmt) : zeroDatum fmt false = 0 := by cases fmt <;> rfl

section
variable {fmt : Fmt} {mode : Mode}

theorem roundER_fin_zero (fmt : Fmt) (mode : Mode) : roundER fmt mode (.fin 0) = (0, noFlags) := by
  rw [roundER, if_pos rfl, zeroDatum_false]

theorem roundER_fin {r : Rat} (fmt : Fmt) (mode : Mode) (hr : r ≠ 0) : roundER fmt mode (.fin r) = roundRat fmt mode r := by
  rw [roundER, if_neg hr]

theorem erOf_zero (fmt : Fmt) : erOf (0 : Datum fmt) = some (.fin 0) := zeroDatum_false fmt ▸ erOf_zeroDatum fmt false

/-- What rounding the extended real `a` to `x` says of the data around it (R115, R121). -/
structure RoundedValue (fmt : Fmt) (mode : Mode) (a x : ER) : Prop where
  rdn_le : mode = .rdn → ER.le x a = true
  le_rup : mode = .rup → ER.le a x = true
  passes_no_datum : ∀ (v : Datum fmt) (e : ER), erOf v = some e →
    (ER.le e a = true → ER.le e x = true) ∧ (ER.le a e = true → ER.le x e = true)

theorem RoundedValue.refl (fmt : Fmt) (mode : Mode) (a : ER) : RoundedValue fmt mode a a :=
  ⟨fun _ => ER.le_refl a, fun _ => ER.le_refl a, fun _ _ _ => ⟨id, id⟩⟩

theorem exists_roundedValue (fmt : Fmt) (mode : Mode) (a : ER) :
    ∃ x, erOf (roundER fmt mode a).1 = some x ∧ RoundedValue fmt mode a x := by
  cases a with
  | ninf => exact ⟨.ninf, erOf_infDatum fmt true, .refl fmt mode _⟩
  | pinf => exact ⟨.pinf, erOf_infDatum fmt false, .refl fmt mode _⟩
  | fin r =>
    rcases eq_or_ne r 0 with rfl | hr
    · exact ⟨.fin 0, by rw [roundER_fin_zero, erOf_zero], .refl fmt mode _⟩
    · rw [roundER_fin fmt mode hr]
      obtain ⟨x, hx⟩ := exists_erOf_roundRat fmt mode hr
      refine ⟨x, hx, ?_, ?_, fun v e he => roundRat_passes_no_datum fmt mode hr hx he⟩
      · rintro rfl
        exact roundRat_rdn_le fmt hr hx
      · rintro rfl
        exact le_roundRat_rup fmt hr hx

/-- Outward rounding encloses, and passes no datum on either side (R121). -/
theorem exists_bounds_outward (fmt : Fmt) (lo hi : ER) :
    ∃ l h, bounds (outward fmt lo hi).1 = some (l, h) ∧ ER.le l lo = true ∧ ER.le hi h = true ∧
      ∀ (v : Datum fmt) (e : ER), erOf v = some e →
        (ER.le e lo = true → ER.le e l = true) ∧ (ER.le hi e = true → ER.le h e = true) := by
  obtain ⟨l, hl, hlo⟩ := exists_roundedValue fmt .rdn lo
  obtain ⟨h, hh, hhi⟩ := exists_roundedValue fmt .rup hi
  exact ⟨l, h, bounds_eq_some_iff.2 ⟨hl, hh⟩, hlo.rdn_le rfl, hhi.le_rup rfl,
    fun v e he => ⟨(hlo.passes_no_datum v e he).1, (hhi.passes_no_datum v e he).2⟩⟩

/-! ## To nearest (R113, R115) -/

/-- The exponent of the grid that the delivered magnitude lies on. -/
def gridExp (fmt : Fmt) (a : Rat) : Int := max (floorLog2 a) (emin fmt)

/-- The significand of the delivered magnitude, in steps of that grid. -/
def significand (fmt : Fmt) (mode : Mode) (negative : Bool) (a : Rat) : Int :=
  roundToInt mode negative (a / pow2 (gridExp fmt a - fracWidth fmt))

theorem roundDelivered_eq_significand (fmt : Fmt) (mode : Mode) (negative : Bool) (a : Rat) :
    roundDelivered fmt mode negative a = (significand fmt mode negative a : Rat) * pow2 (gridExp fmt a - fracWidth fmt) :=
  roundDelivered_eq_onGrid fmt mode negative a

/-- No magnitude that the format represents is nearer than the delivered one; of two as near it is the one with the even
significand, or the greater one. -/
theorem roundDelivered_nearest (h : ToNearest mode) (negative : Bool) {a b : Rat} (ha : 0 < a) (hb : Representable fmt b) :
    |roundDelivered fmt mode negative a - a| ≤ |b - a| ∧
      (|roundDelivered fmt mode negative a - a| = |b - a| → b ≠ roundDelivered fmt mode negative a →
        (mode = .rne → Even (significand fmt mode negative a)) ∧
          (mode = .rmm → b < roundDelivered fmt mode negative a)) := by
  have hgrid : gridExp fmt a ≤ emin fmt ∨ pow2 (gridExp fmt a) ≤ a := grid_delivered ha fmt
  rw [roundDelivered_eq_significand, significand]
  generalize gridExp fmt a = e at hgrid
  have hq := pow2_pos (e - fracWidth fmt)
  have hscale : ∀ K : Int, |(K : Rat) * pow2 (e - fracWidth fmt) - a| =
      |(K : Rat) - a / pow2 (e - fracWidth fmt)| * pow2 (e - fracWidth fmt) := by
    intro K
    rw [← abs_of_pos hq, ← abs_mul, abs_of_pos hq, sub_mul, div_mul_cancel₀ _ hq.ne']
  by_cases hon : e ≤ emin fmt ∨ pow2 e ≤ b
  · obtain ⟨m, rfl⟩ := hb.on_grid hon
    rw [hscale, ← Int.cast_natCast m, hscale, mul_le_mul_iff_left₀ hq, mul_left_inj' hq.ne',
      Ne, mul_left_inj' hq.ne', Int.cast_inj, mul_lt_mul_iff_left₀ hq, Int.cast_lt]
    exact roundToInt_nearest h negative (a / pow2 (e - fracWidth fmt)) m
  · have hbe : b < pow2 e := not_le.1 fun h => hon (.inr h)
    have hea : pow2 e ≤ a := hgrid.resolve_left fun h => hon (.inl h)
    have hpow : pow2 e = (((2 ^ fracWidth fmt : Nat) : Int) : Rat) * pow2 (e - fracWidth fmt) := by
      rw [Int.cast_natCast, ← pow2_shift]
    have hlt := calc
      |(roundToInt mode negative (a / pow2 (e - fracWidth fmt)) : Rat) * pow2 (e - fracWidth fmt) - a|
        ≤ |pow2 e - a| := by
          rw [hscale, hpow, hscale, mul_le_mul_iff_left₀ hq]
          exact (roundToInt_nearest h negative _ _).1
      _ < |b - a| := by
          rw [abs_of_nonpos (by linarith), abs_of_nonpos (by linarith)]; linarith
    exact ⟨hlt.le, fun heq => absurd heq hlt.ne⟩

theorem packDatum_getLsbD_zero (fmt : Fmt) (negative : Bool) (e : Nat) {t : Nat} (heven : t % 2 = 0) :
    (packDatum fmt negative e t).getLsbD 0 = false := by
  rw [packDatum, BitVec.getLsbD_ofNat, Nat.testBit_zero]
  have hmod : (negative.toNat * 2 ^ (expWidth fmt + fracWidth fmt) + e * 2 ^ fracWidth fmt + t) % 2 = 0 := by
    cases fmt <;> simp only [expWidth, fracWidth] <;> omega
  simp [hmod]

/-- The significand has at most `M + 1` bits, or is the next power of two, and has fewer bits on the subnormal grid only. -/
theorem significand_bounds (fmt : Fmt) (mode : Mode) (negative : Bool) {a : Rat} (ha : 0 < a) :
    0 ≤ significand fmt mode negative a ∧ significand fmt mode negative a ≤ ((2 ^ (fracWidth fmt + 1) : Nat) : Int) ∧
      (gridExp fmt a = emin fmt ∨ ((2 ^ fracWidth fmt : Nat) : Int) ≤ significand fmt mode negative a) := by
  obtain ⟨hlo, hhi⟩ := floorLog2_spec ha
  refine ⟨?_, roundToInt_le_two_pow fmt mode negative ?_, ?_⟩
  · apply le_roundToInt_of_intCast_le
    rw [Int.cast_zero]
    exact div_nonneg ha.le (pow2_pos _).le
  · exact hhi.le.trans (pow2_le_iff.2 (add_le_add_left (le_max_left _ _) 1))
  · rcases le_total (floorLog2 a) (emin fmt) with h | h
    · exact .inl (max_eq_right h)
    · exact .inr (two_pow_le_roundToInt fmt mode negative (by rw [gridExp, max_eq_left h]; exact hlo))

/-- A delivered magnitude with an even significand is packed with a last bit of 0. -/
theorem datumOfMagnitude_getLsbD_zero (fmt : Fmt) (mode : Mode) (negative negative' : Bool) {a : Rat} (ha : 0 < a)
    (heven : Even (significand fmt mode negative a)) :
    (datumOfMagnitude fmt negative' (roundDelivered fmt mode negative a)).getLsbD 0 = false := by
  obtain ⟨hnonneg, hle, hge⟩ := significand_bounds fmt mode negative ha
  have hmin : emin fmt ≤ gridExp fmt a := le_max_right _ _
  have hP : 2 ^ fracWidth fmt % 2 = 0 := by cases fmt <;> rfl
  rw [roundDelivered_eq_significand]
  obtain ⟨n, hn⟩ := Int.eq_ofNat_of_zero_le hnonneg
  rw [hn] at hle hge heven ⊢
  rw [Int.cast_natCast]
  have hn2 : n % 2 = 0 := by obtain ⟨i, hi⟩ := heven; omega
  rcases lt_or_ge n (2 ^ fracWidth fmt) with hsub | hnorm
  · rw [hge.resolve_right (by omega), datumOfMagnitude_subnormal fmt _ hsub]
    exact packDatum_getLsbD_zero fmt _ _ hn2
  · rcases lt_or_ge n (2 ^ (fracWidth fmt + 1)) with hlt | htop
    · rw [datumOfMagnitude_normal fmt _ hnorm hlt hmin]
      exact packDatum_getLsbD_zero fmt _ _ (by omega)
    · have hval : (n : Rat) * pow2 (gridExp fmt a - fracWidth fmt) =
          ((2 ^ fracWidth fmt : Nat) : Rat) * pow2 (gridExp fmt a + 1 - fracWidth fmt) := by
        rw [show n = 2 ^ (fracWidth fmt + 1) by omega, natCast_two_pow_succ, add_sub_right_comm, pow2_succ]; ring
      rw [hval, datumOfMagnitude_normal fmt _ le_rfl (Nat.pow_lt_pow_right one_lt_two (Nat.lt_succ_self _)) (by omega)]
      exact packDatum_getLsbD_zero fmt _ _ (by omega)

theorem abs_signFactor_mul_sub (r x : Rat) : |signFactor (decide (r < 0)) * x - r| = |x - (|r|)| := by
  have h : signFactor (decide (r < 0)) * x - r = signFactor (decide (r < 0)) * (x - |r|) := by
    rw [mul_sub, signFactor_decide_mul_abs]
  rw [h, abs_signFactor_mul]

/-- A value on the other side of zero is further from `r` than zero is. -/
theorem abs_lt_abs_sub_of_ne {e r : Rat} (h : e ≠ signFactor (decide (r < 0)) * |e|) : |r| < |e - r| := by
  rcases lt_or_ge r 0 with hr | hr
  · have he : 0 < e := by
      by_contra he
      exact h (by simp [signFactor, hr, abs_of_nonpos (not_lt.1 he)])
    rw [abs_of_neg hr, abs_of_pos (by linarith)]; linarith
  · have he : e < 0 := by
      by_contra he
      exact h (by simp [signFactor, not_lt.2 hr, abs_of_nonneg (not_lt.1 he)])
    rw [abs_of_nonneg hr, abs_of_neg (by linarith)]; linarith

/-- In a mode to nearest the delivered value is, of all data, a nearest to `r`. -/
theorem deliveredMagnitude_nearest {r : Rat} (h : ToNearest mode) (hr : r ≠ 0) {v : Datum fmt} {e : Rat}
    (he : erOf v = some (.fin e)) :
    |signFactor (decide (r < 0)) * deliveredMagnitude fmt mode r - r| ≤ |e - r| ∧
      (|signFactor (decide (r < 0)) * deliveredMagnitude fmt mode r - r| = |e - r| →
        e ≠ signFactor (decide (r < 0)) * deliveredMagnitude fmt mode r →
        (mode = .rne →
          (datumOfMagnitude fmt (decide (r < 0)) (deliveredMagnitude fmt mode r)).getLsbD 0 = false) ∧
        (mode = .rmm → |e| < |signFactor (decide (r < 0)) * deliveredMagnitude fmt mode r|)) := by
  have ha := abs_pos.2 hr
  have hzero : Representable fmt 0 := .inl ⟨0, by positivity, by simp⟩
  rw [abs_signFactor_mul_sub, abs_signFactor_mul]
  by_cases hside : e = signFactor (decide (r < 0)) * |e|
  · obtain ⟨hle, htie⟩ := roundDelivered_nearest h (decide (r < 0)) ha (representable_abs_of_fin he)
    have hdist : |e - r| = |(|e|) - (|r|)| := by rw [← abs_signFactor_mul_sub, ← hside]
    rw [hdist]
    refine ⟨hle, fun heq hne => ?_⟩
    obtain ⟨heven, habove⟩ := htie heq fun habs => hne (by rw [hside, habs, deliveredMagnitude])
    exact ⟨fun hmode => datumOfMagnitude_getLsbD_zero fmt mode _ _ ha (heven hmode),
      fun hmode => (habove hmode).trans_le (le_abs_self _)⟩
  · have hlt : |deliveredMagnitude fmt mode r - (|r|)| < |e - r| := by
      refine lt_of_le_of_lt ?_ (abs_lt_abs_sub_of_ne hside)
      have hle := (roundDelivered_nearest h (decide (r < 0)) ha hzero).1
      rwa [zero_sub, abs_neg, abs_abs] at hle
    exact ⟨hlt.le, fun heq => absurd heq hlt.ne⟩

end

end Sys2Proof.Machine

section
open Sys2Proof Sys2Proof.Machine

/-- Settles O32: the directed modes by the magnitude they deliver, the flags by the four answers of `round`. -/
theorem roundingProperties : Obligations.RoundingProperties := by
  intro fmt r hr
  obtain ⟨l, hl⟩ := exists_erOf_roundRat fmt .rdn hr
  obtain ⟨u, hu⟩ := exists_erOf_roundRat fmt .rup hr
  refine ⟨⟨l, hl, roundRat_rdn_le fmt hr hl⟩, ⟨u, hu, le_roundRat_rup fmt hr hu⟩, exists_roundRat_rtz fmt hr, fun mode => ?_⟩
  obtain ⟨hNX, hinvalid⟩ := roundRat_flags fmt mode hr
  have hround := rounded fmt mode hr
  refine ⟨hNX, hinvalid, hround.nx_iff hr, fun v hv => roundRat_of_erOf mode hr hv, hround.of_iff, fun hover => ?_,
    hround.uf_iff hr, hround.eq_zeroDatum hr⟩
  rw [roundRat_of_overflow hr hover]
  refine ⟨rfl, fun hz => ?_, fun hz => ?_⟩
  · simp [overflowResult_of_towardZero fmt hz, erOf_maxFiniteDatum, signFactor, maxFinite_eq_sub]
  · simp [overflowResult_of_not_towardZero fmt hr hz, erOf_infDatum]

/-- Settles O33: the delivered significand is the nearest integer, so no datum lies between it and the exact value. -/
theorem nearestIsNearest : Obligations.NearestIsNearest := by
  intro fmt mode r hr hmode hOF
  have hover : ¬ RoundsToAtLeast fmt mode r (emax fmt + 1) := by
    rw [← (rounded fmt mode hr).of_iff, not_not]
    exact hOF
  obtain ⟨hd, hdatum⟩ := roundRat_of_not_overflow hr hover
  rw [hdatum]
  exact ⟨_, erOf_datumOfMagnitude _ hd, fun v e he => deliveredMagnitude_nearest hmode hr he⟩

/-- Settles O34: rounding down and up stays on its side of the bound and passes no datum. -/
theorem outwardIsTightest : Obligations.OutwardIsTightest := by
  intro fmt
  refine ⟨fun mode => ⟨rfl, rfl, roundER_fin_zero fmt mode, fun r hr => roundER_fin fmt mode hr⟩, fun lo hi => ?_⟩
  exact ⟨rfl, rfl, rfl, exists_bounds_outward fmt lo hi⟩

end

/-! The scalar operations (R112, R116, R117): a sum and a half by the kinds of their operands, and the NaNs they produce. -/

namespace Sys2Proof.Machine

/-! ## Kinds of data (R111) -/

section
variable {fmt : Fmt} {v : Datum fmt}

theorem isNaN_of_nan {q : Bool} (h : valueOf v = .nan q) : isNaN v = true := isNaN_iff.2 ⟨q, h⟩

theorem isNaN_of_num {s : Bool} {r : Rat} (h : valueOf v = .num s r) : isNaN v = false := by simp [isNaN, h]

theorem isSignaling_of_not_isNaN (h : isNaN v = false) : isSignaling v = false := by
  obtain ⟨e, he⟩ := exists_erOf h
  exact isSignaling_of_erOf he

end

/-! ## `fp_add` by the kinds of its operands (R116) -/

section
variable {fmt : Fmt} {mode : Mode} {x y : Datum fmt} {s t : Bool} {a b : Rat}

theorem fpAdd_of_isNaN (mode : Mode) (h : isNaN x = true ∨ isNaN y = true) :
    fpAdd fmt mode x y = (canonicalNaN fmt, invalidIf (isSignaling x || isSignaling y)) := by
  rcases h with h | h <;> obtain ⟨p, hp⟩ := isNaN_iff.1 h
  · cases hy : valueOf y <;> simp [fpAdd, isSignaling, hp, hy]
  · cases hx : valueOf x <;> simp [fpAdd, isSignaling, hp, hx]

theorem fpAdd_of_num_num (mode : Mode) (hx : valueOf x = .num s a) (hy : valueOf y = .num t b) :
    fpAdd fmt mode x y =
      if a + b = 0 then (zeroDatum fmt (if a = 0 ∧ s = t then s else mode == .rdn), noFlags)
      else roundRat fmt mode (a + b) := by
  simp only [fpAdd, hx, hy]
  by_cases h0 : a + b = 0
  · have hzero : (a = 0 ∧ b = 0 ∧ s = t) ↔ (a = 0 ∧ s = t) :=
      ⟨fun h => ⟨h.1, h.2.2⟩, fun h => ⟨h.1, by linarith [h.1], h.2⟩⟩
    rw [if_pos h0, if_pos h0]
    simp only [hzero]
    split <;> rfl
  · rw [if_neg h0, if_neg h0]

theorem fpAdd_of_inf_left (mode : Mode) (hx : valueOf x = .inf s) (hy : isNaN y = false) (hne : valueOf y ≠ .inf (!s)) :
    fpAdd fmt mode x y = (x, noFlags) := by
  unfold fpAdd
  rcases hy' : valueOf y with q | t | ⟨t, b⟩
  · exact absurd (isNaN_of_nan hy') (by simp [hy])
  · have hst : s = t := by cases s <;> cases t <;> simp_all
    simp [hx, hst]
  · simp [hx]

theorem fpAdd_of_num_inf (mode : Mode) (hx : valueOf x = .num s a) (hy : valueOf y = .inf t) :
    fpAdd fmt mode x y = (y, noFlags) := by
  simp [fpAdd, hx, hy]

theorem fpAdd_of_opposite_inf (mode : Mode) (hx : valueOf x = .inf s) (hy : valueOf y = .inf (!s)) :
    fpAdd fmt mode x y = (canonicalNaN fmt, flagNV) := by
  simp [fpAdd, hx, hy]

/-! ## `fp_div` by the kinds of its operands (R117) -/

theorem fpDiv_of_isNaN (mode : Mode) (h : isNaN x = true ∨ isNaN y = true) :
    fpDiv fmt mode x y = (canonicalNaN fmt, invalidIf (isSignaling x || isSignaling y)) := by
  rcases h with h | h <;> obtain ⟨p, hp⟩ := isNaN_iff.1 h
  · cases hy : valueOf y <;> simp [fpDiv, isSignaling, hp, hy]
  · cases hx : valueOf x <;> simp [fpDiv, isSignaling, hp, hx]

theorem fpDiv_of_num_num (mode : Mode) (hx : valueOf x = .num s a) (hy : valueOf y = .num t b) (hb : b ≠ 0) :
    fpDiv fmt mode x y = if a = 0 then (zeroDatum fmt (s != t), noFlags) else roundRat fmt mode (a / b) := by
  simp only [fpDiv, hx, hy, if_neg hb]

theorem fpDiv_of_inf_num (mode : Mode) (hx : valueOf x = .inf s) (hy : valueOf y = .num t b) :
    fpDiv fmt mode x y = (infDatum fmt (s != t), noFlags) := by
  simp only [fpDiv, hx, hy]

end

/-! ## The NaNs that are produced (R112) -/

section
variable {fmt : Fmt}

theorem isNaN_zeroDatum (fmt : Fmt) (negative : Bool) : isNaN (zeroDatum fmt negative) = false :=
  isNaN_eq_false_of_erOf (erOf_zeroDatum fmt negative)

theorem isNaN_infDatum (fmt : Fmt) (negative : Bool) : isNaN (infDatum fmt negative) = false :=
  isNaN_eq_false_of_erOf (erOf_infDatum fmt negative)

theorem roundRat_zero (fmt : Fmt) (mode : Mode) : roundRat fmt mode 0 = (zeroDatum fmt false, noFlags) := by
  have hgrid : ∀ e, onGrid fmt mode false 0 e = 0 := fun e => by
    have h := roundToInt_intCast mode false 0
    rw [Int.cast_zero] at h
    rw [onGrid, zero_div, h, Int.cast_zero, zero_mul]
  have hneg : decide ((0 : Rat) < 0) = false := by simp
  have habs : (0 : Rat).abs = 0 := by simp [rat_abs_eq]
  rw [roundRat]
  simp only [hneg, habs, roundUnbounded_eq_onGrid, roundDelivered_eq_onGrid, hgrid, not_lt.2 (maxFinite_pos fmt).le,
    if_false, datumOfMagnitude_zero, roundFlags, if_true]

theorem isNaN_roundRat (fmt : Fmt) (mode : Mode) (r : Rat) : isNaN (roundRat fmt mode r).1 = false := by
  rcases eq_or_ne r 0 with rfl | hr
  · rw [roundRat_zero]
    exact isNaN_zeroDatum fmt false
  · obtain ⟨e, he⟩ := exists_erOf_roundRat fmt mode hr
    exact isNaN_eq_false_of_erOf he

theorem isNaN_roundER (fmt : Fmt) (mode : Mode) (a : ER) : isNaN (roundER fmt mode a).1 = false := by
  obtain ⟨x, hx, -⟩ := exists_roundedValue fmt mode a
  exact isNaN_eq_false_of_erOf hx

theorem eq_canonicalNaN_of_not_isNaN {v : Datum fmt} (h : isNaN v = false) (h' : isNaN v = true) : v = canonicalNaN fmt :=
  absurd (h.symm.trans h') Bool.false_ne_true

theorem fpAdd_nan_canonical (mode : Mode) (x y : Datum fmt) (h : isNaN (fpAdd fmt mode x y).1 = true) :
    (fpAdd fmt mode x y).1 = canonicalNaN fmt := by
  by_cases hnan : isNaN x = true ∨ isNaN y = true
  · rw [fpAdd_of_isNaN mode hnan]
  obtain ⟨hnx, hny⟩ : isNaN x = false ∧ isNaN y = false := by simpa using hnan
  rcases hx : valueOf x with p | s | ⟨s, a⟩
  · exact absurd (isNaN_of_nan hx) (by simp [hnx])
  · by_cases hopp : valueOf y = .inf (!s)
    · rw [fpAdd_of_opposite_inf mode hx hopp]
    · rw [fpAdd_of_inf_left mode hx hny hopp] at h ⊢
      exact eq_canonicalNaN_of_not_isNaN hnx h
  · rcases hy : valueOf y with q | t | ⟨t, b⟩
    · exact absurd (isNaN_of_nan hy) (by simp [hny])
    · rw [fpAdd_of_num_inf mode hx hy] at h ⊢
      exact eq_canonicalNaN_of_not_isNaN hny h
    · rw [fpAdd_of_num_num mode hx hy] at h ⊢
      split at h <;> rename_i h0
      · rw [if_pos h0]
        exact eq_canonicalNaN_of_not_isNaN (isNaN_zeroDatum fmt _) h
      · rw [if_neg h0]
        exact eq_canonicalNaN_of_not_isNaN (isNaN_roundRat fmt mode _) h

theorem fpDiv_nan_canonical (mode : Mode) (x y : Datum fmt) (h : isNaN (fpDiv fmt mode x y).1 = true) :
    (fpDiv fmt mode x y).1 = canonicalNaN fmt := by
  rcases hx : valueOf x with p | s | ⟨s, a⟩ <;> rcases hy : valueOf y with q | t | ⟨t, b⟩ <;>
    simp only [fpDiv, hx, hy] at h ⊢
  case inf.num => exact eq_canonicalNaN_of_not_isNaN (isNaN_infDatum fmt _) h
  case num.inf => exact eq_canonicalNaN_of_not_isNaN (isNaN_zeroDatum fmt _) h
  case num.num =>
    split_ifs at h ⊢
    · rfl
    · exact eq_canonicalNaN_of_not_isNaN (isNaN_infDatum fmt _) h
    · exact eq_canonicalNaN_of_not_isNaN (isNaN_zeroDatum fmt _) h
    · exact eq_canonicalNaN_of_not_isNaN (isNaN_roundRat fmt mode _) h

theorem fpSub_nan_canonical (mode : Mode) (x y : Datum fmt) (h : isNaN (fpSub fmt mode x y).1 = true) :
    (fpSub fmt mode x y).1 = canonicalNaN fmt := by
  unfold fpSub at h ⊢
  split at h
  · rw [if_pos ‹_›]
    exact fpAdd_nan_canonical mode _ _ h
  · rw [if_neg ‹_›]
    exact fpAdd_nan_canonical mode _ _ h

end

/-! ## Halving (R117, R171, R173) -/

section
variable {fmt : Fmt} {v : Datum fmt} {r : Rat}

theorem valueOf_twoDatum (fmt : Fmt) : valueOf (twoDatum fmt) = .num false 2 := by
  have hexp : ((2 ^ (expWidth fmt - 1) : Nat) : Int) - bias fmt = 1 := by cases fmt <;> rfl
  rw [twoDatum, valueOf_packDatum_normal fmt false (by cases fmt <;> decide) (by cases fmt <;> decide) (by positivity),
    hexp, signFactor, if_neg Bool.false_ne_true, one_mul, Nat.add_zero, ← pow2_shift]
  rfl

theorem fpDiv_two_of_num (mode : Mode) {s : Bool} (h : valueOf v = .num s r) :
    fpDiv fmt mode v (twoDatum fmt) = if r = 0 then (zeroDatum fmt s, noFlags) else roundRat fmt mode (r / 2) := by
  rw [fpDiv_of_num_num mode h (valueOf_twoDatum fmt) two_ne_zero, Bool.bne_false]

/-- The half of a magnitude of the format, where it is not subnormal, is one of the format. -/
theorem Representable.half {d : Rat} (h : Representable fmt d) (hmin : pow2 (emin fmt) ≤ d / 2) : Representable fmt (d / 2) := by
  have hpos := pow2_pos (emin fmt)
  rcases h with ⟨n, hn, rfl⟩ | ⟨n, k, h1, h2, h3, h4, rfl⟩
  · have hlt : (n : Rat) * pow2 (emin fmt - fracWidth fmt) < pow2 (emin fmt) := by
      rw [pow2_shift fmt (emin fmt)]
      exact mul_lt_mul_of_pos_right (by exact_mod_cast hn) (pow2_pos _)
    linarith
  · have hlt : (n : Rat) * pow2 (k - fracWidth fmt) < pow2 (k + 1) := by
      rw [pow2_eq_mul_grid fmt (k + 1), add_sub_cancel_right, Int.cast_natCast]
      exact mul_lt_mul_of_pos_right (by exact_mod_cast h2) (pow2_pos _)
    have hk : emin fmt < k := by
      rw [← pow2_lt_iff]
      rw [pow2_succ] at hlt
      linarith
    refine .inr ⟨n, k - 1, h1, h2, by omega, by omega, ?_⟩
    rw [sub_right_comm, pow2_pred, mul_div_assoc]

theorem abs_half (r : Rat) : |r / 2| = |r| / 2 := by rw [abs_div, abs_two]

/-- Half a value of the format does not overflow. -/
theorem halving_flags (mode : Mode) (h : erOf v = some (.fin r)) (hr : r ≠ 0) :
    (roundRat fmt mode (r / 2)).2 &&& (flagNV ||| flagDZ ||| flagOF) = 0#5 := by
  have hr2 : r / 2 ≠ 0 := div_ne_zero hr two_ne_zero
  have hle := (representable_abs_of_fin h).le_maxFinite
  have hover : ¬ RoundsToAtLeast fmt mode (r / 2) (emax fmt + 1) :=
    not_roundsToAtLeast_of_le_maxFinite hr2 (by rw [abs_half]; linarith [abs_nonneg r])
  have hinvalid := (roundRat_flags fmt mode hr2).2
  have hOF : (roundRat fmt mode (r / 2)).2 &&& flagOF = 0#5 :=
    not_not.1 fun hne => hover ((rounded fmt mode hr2).of_iff.1 hne)
  rw [BitVec.and_or_distrib_left, hinvalid, hOF]
  rfl

theorem halving_exact (mode : Mode) (h : erOf v = some (.fin r)) (hr : r ≠ 0) (hmin : pow2 (emin fmt) ≤ |r / 2|) :
    erOf (roundRat fmt mode (r / 2)).1 = some (.fin (r / 2)) ∧ (roundRat fmt mode (r / 2)).2 = noFlags := by
  have hr2 : r / 2 ≠ 0 := div_ne_zero hr two_ne_zero
  have hrep : Representable fmt |r / 2| := by
    rw [abs_half] at hmin ⊢
    exact (representable_abs_of_fin h).half hmin
  rw [roundRat_of_representable mode hr2 hrep]
  exact ⟨by rw [erOf_datumOfMagnitude _ hrep, signFactor_decide_mul_abs], rfl⟩

end

end Sys2Proof.Machine

section
open Sys2Proof Sys2Proof.Machine

/-- Settles O35: a sum or a quotient is the canonical NaN, an operand that is no NaN, or a rounded value. -/
theorem producedNaNsAreCanonical : Obligations.ProducedNaNsAreCanonical := by
  refine ⟨rfl, rfl, fun fmt mode => ⟨fpAdd_nan_canonical mode, fpSub_nan_canonical mode, fpDiv_nan_canonical mode, ?_,
    isNaN_roundER fmt mode, fun X => ⟨rfl, rfl⟩⟩⟩
  intro r h
  rw [isNaN_roundRat] at h
  cases h

/-- Settles O46: the operations by the kinds of their operands; half a datum is no larger, so it does not overflow. -/
theorem midpointAndRadiusHalve : Obligations.MidpointAndRadiusHalve := by
  intro fmt mode
  refine ⟨fun X => ⟨rfl, rfl, rfl, rfl⟩, erOf_of_num (valueOf_twoDatum fmt), fun x y => ?_, fun v => ?_, fun v r hv => ?_⟩
  · refine ⟨fun s t a b => fpAdd_of_num_num mode, fun s => fpAdd_of_inf_left mode, fun s t a => fpAdd_of_num_inf mode,
      fun s => fpAdd_of_opposite_inf mode, fun h => ?_⟩
    rw [fpAdd_of_isNaN mode h, invalidIf_or]
  · refine ⟨fun s r => fpDiv_two_of_num mode, fun s h => ?_, fun h => ?_⟩
    · rw [fpDiv_of_inf_num mode h (valueOf_twoDatum fmt), Bool.bne_false]
    · rw [fpDiv_of_isNaN mode (.inl h), isSignaling_of_not_isNaN (isNaN_of_num (valueOf_twoDatum fmt)), Bool.or_false, invalidIf]
  · obtain ⟨s, hs⟩ := erOf_eq_fin_iff.1 hv
    rw [fpDiv_two_of_num mode hs]
    split
    next h0 =>
      have hnone : noFlags &&& (flagNV ||| flagDZ ||| flagOF) = 0#5 := by decide
      refine ⟨hnone, fun hmin => absurd (pow2_pos (emin fmt)) (not_lt.2 ?_)⟩
      simpa [h0] using hmin
    next h0 => exact ⟨halving_flags mode hv h0, halving_exact mode hv h0⟩

end

/-! Interval arithmetic on exact bounds (R120, R151 to R154): the greatest lower and least upper bound of the sums, products and
quotients of two sets of reals, in Mathlib's extended reals. -/

namespace Sys2Proof.Machine

/-! ## Sets of reals with their exact bounds -/

/-- A set of reals among the extended reals. -/
abbrev extended (S : Set ℝ) : Set EReal := (fun x : ℝ => (x : EReal)) '' S

/-- `p` and `q` are the greatest lower and the least upper bound, among the extended reals, of a non-empty set of reals. -/
structure Spans (S : Set ℝ) (p q : EReal) : Prop where
  nonempty : S.Nonempty
  isGLB : IsGLB (extended S) p
  isLUB : IsLUB (extended S) q

section
variable {S T : Set ℝ} {p q u v : EReal}

theorem Spans.bounds (h : Spans S p q) {x : ℝ} (hx : x ∈ S) : p ≤ x ∧ (x : EReal) ≤ q :=
  ⟨h.isGLB.1 ⟨x, hx, rfl⟩, h.isLUB.1 ⟨x, hx, rfl⟩⟩

theorem Spans.ne_top (h : Spans S p q) : p ≠ ⊤ :=
  h.nonempty.elim fun x hx => ((h.bounds hx).1.trans_lt (EReal.coe_lt_top x)).ne

theorem Spans.ne_bot (h : Spans S p q) : q ≠ ⊥ :=
  h.nonempty.elim fun x hx => ((EReal.bot_lt_coe x).trans_le (h.bounds hx).2).ne'

theorem Spans.mem_closure (h : Spans S p q) {a : EReal} (ha : a = p ∨ a = q) :
    a ∈ closure (extended S) := by
  rcases ha with rfl | rfl
  · exact h.isGLB.mem_closure (h.nonempty.image _)
  · exact h.isLUB.mem_closure (h.nonempty.image _)

/-- Two bounds that are approached are the exact ones. -/
theorem Spans.of_mem_closure (hS : S.Nonempty) (hp : p ∈ closure (extended S))
    (hq : q ∈ closure (extended S)) (h : ∀ x ∈ S, p ≤ x ∧ (x : EReal) ≤ q) : Spans S p q := by
  refine ⟨hS, isGLB_of_mem_closure ?_ hp, isLUB_of_mem_closure ?_ hq⟩
  · rintro _ ⟨x, hx, rfl⟩
    exact (h x hx).1
  · rintro _ ⟨x, hx, rfl⟩
    exact (h x hx).2

/-- Where an operation is continuous, what it gives of two approached values is approached by its results. -/
theorem mem_closure_image2 {op : ℝ → ℝ → ℝ} {f : EReal × EReal → EReal} {a b : EReal} (hf : ContinuousAt f (a, b))
    (hop : ∀ x y : ℝ, f (x, y) = op x y) (ha : a ∈ closure (extended S))
    (hb : b ∈ closure (extended T)) :
    f (a, b) ∈ closure (extended (Set.image2 op S T)) := by
  have hab : (a, b) ∈ closure ((extended S) ×ˢ (extended T)) := by
    rw [closure_prod_eq]
    exact ⟨ha, hb⟩
  refine closure_mono ?_ (mem_closure_image hf hab)
  rintro _ ⟨⟨_, _⟩, ⟨⟨x, hx, rfl⟩, y, hy, rfl⟩, rfl⟩
  exact ⟨op x y, ⟨x, hx, y, hy, rfl⟩, (hop x y).symm⟩

/-! ## Sums and differences -/

theorem Spans.neg (h : Spans S p q) : Spans ((fun x => -x) '' S) (-q) (-p) := by
  have himage : extended ((fun x => -x) '' S) = (fun z => -z) '' extended S := by
    simp only [Set.image_image, EReal.coe_neg]
  refine ⟨h.nonempty.image _, ?_, ?_⟩ <;> rw [himage]
  · exact ⟨by rintro _ ⟨z, hz, rfl⟩; exact EReal.neg_le_neg_iff.2 (h.isLUB.1 hz),
      fun l hl => EReal.le_neg_of_le_neg (h.isLUB.2 fun z hz => EReal.le_neg_of_le_neg (hl ⟨z, hz, rfl⟩))⟩
  · exact ⟨by rintro _ ⟨z, hz, rfl⟩; exact EReal.neg_le_neg_iff.2 (h.isGLB.1 hz),
      fun l hl => EReal.neg_le_of_neg_le (h.isGLB.2 fun z hz => EReal.neg_le_of_neg_le (hl ⟨z, hz, rfl⟩))⟩

theorem Spans.add (hS : Spans S p q) (hT : Spans T u v) : Spans (Set.image2 (· + ·) S T) (p + u) (q + v) := by
  refine .of_mem_closure (hS.nonempty.image2 hT.nonempty) ?_ ?_ ?_
  · exact mem_closure_image2 (EReal.continuousAt_add (.inl hS.ne_top) (.inr hT.ne_top)) EReal.coe_add
      (hS.mem_closure (.inl rfl)) (hT.mem_closure (.inl rfl))
  · exact mem_closure_image2 (EReal.continuousAt_add (.inr hT.ne_bot) (.inl hS.ne_bot)) EReal.coe_add
      (hS.mem_closure (.inr rfl)) (hT.mem_closure (.inr rfl))
  · rintro _ ⟨x, hx, y, hy, rfl⟩
    exact ⟨add_le_add (hS.bounds hx).1 (hT.bounds hy).1, add_le_add (hS.bounds hx).2 (hT.bounds hy).2⟩

theorem Spans.sub (hS : Spans S p q) (hT : Spans T u v) : Spans (Set.image2 (· - ·) S T) (p + -v) (q + -u) := by
  have h := hS.add hT.neg
  rw [Set.image2_image_right] at h
  exact h

/-! ## Products -/

/-- A product of two bounds is approached by products, also where a zero meets an infinity. -/
theorem Spans.mul_mem_closure (hS : Spans S p q) (hT : Spans T u v) {a b : EReal} (ha : a = p ∨ a = q) (hb : b = u ∨ b = v) :
    a * b ∈ closure (extended (Set.image2 (· * ·) S T)) := by
  have hmul : ∀ {a b : EReal}, (a ≠ 0 ∨ b ≠ ⊥) → (a ≠ 0 ∨ b ≠ ⊤) → (a ≠ ⊥ ∨ b ≠ 0) → (a ≠ ⊤ ∨ b ≠ 0) →
      a ∈ closure (extended S) → b ∈ closure (extended T) →
      a * b ∈ closure (extended (Set.image2 (· * ·) S T)) :=
    fun h1 h2 h3 h4 => mem_closure_image2 (EReal.continuousAt_mul h1 h2 h3 h4) EReal.coe_mul
  by_cases ha0 : a = 0
  · obtain ⟨y, hy⟩ := hT.nonempty
    have h := hmul (.inr (EReal.coe_ne_bot y)) (.inr (EReal.coe_ne_top y)) (.inl (by simp [ha0])) (.inl (by simp [ha0]))
      (hS.mem_closure ha) (subset_closure ⟨y, hy, rfl⟩)
    rwa [ha0, zero_mul] at h ⊢
  · by_cases hb0 : b = 0
    · obtain ⟨x, hx⟩ := hS.nonempty
      have h := hmul (.inr (by simp [hb0])) (.inr (by simp [hb0])) (.inl (EReal.coe_ne_bot x)) (.inl (EReal.coe_ne_top x))
        (subset_closure ⟨x, hx, rfl⟩) (hT.mem_closure hb)
      rwa [hb0, mul_zero] at h ⊢
    · exact hmul (.inl ha0) (.inl ha0) (.inr hb0) (.inr hb0) (hS.mem_closure ha) (hT.mem_closure hb)

/-- Products of bounds that bound every product are the exact bounds. -/
theorem Spans.mul_of_bounds (hS : Spans S p q) (hT : Spans T u v) {a b a' b' : EReal} (ha : a = p ∨ a = q) (hb : b = u ∨ b = v)
    (ha' : a' = p ∨ a' = q) (hb' : b' = u ∨ b' = v)
    (h : ∀ x ∈ S, ∀ y ∈ T, a * b ≤ (x : EReal) * y ∧ (x : EReal) * y ≤ a' * b') :
    Spans (Set.image2 (· * ·) S T) (a * b) (a' * b') := by
  refine .of_mem_closure (hS.nonempty.image2 hT.nonempty) (hS.mul_mem_closure hT ha hb) (hS.mul_mem_closure hT ha' hb') ?_
  rintro _ ⟨x, hx, y, hy, rfl⟩
  exact h x hx y hy

/-- A product lies between the products of a factor with the bounds of the other. -/
theorem mul_between {x y : EReal} (hx : p ≤ x ∧ x ≤ q) :
    min (p * y) (q * y) ≤ x * y ∧ x * y ≤ max (p * y) (q * y) := by
  rcases le_total 0 y with hy | hy
  · exact ⟨min_le_of_left_le (mul_le_mul_of_nonneg_right hx.1 hy), le_max_of_le_right (mul_le_mul_of_nonneg_right hx.2 hy)⟩
  · exact ⟨min_le_of_right_le (EReal.mul_le_mul_of_nonpos_right hx.2 hy),
      le_max_of_le_left (EReal.mul_le_mul_of_nonpos_right hx.1 hy)⟩

/-- A product lies between the least and the greatest product of two bounds. -/
theorem mul_between_corners {x y : EReal} (hx : p ≤ x ∧ x ≤ q) (hy : u ≤ y ∧ y ≤ v) :
    min (min (p * u) (p * v)) (min (q * u) (q * v)) ≤ x * y ∧
      x * y ≤ max (max (p * u) (p * v)) (max (q * u) (q * v)) := by
  obtain ⟨hlo, hhi⟩ := mul_between (y := y) hx
  have hcorner : ∀ z, min (z * u) (z * v) ≤ z * y ∧ z * y ≤ max (z * u) (z * v) := fun z => by
    simpa only [mul_comm z] using mul_between (y := z) hy
  exact ⟨(min_le_min (hcorner p).1 (hcorner q).1).trans hlo, hhi.trans (max_le_max (hcorner p).2 (hcorner q).2)⟩

/-! ## Quotients -/

theorem le_inv_of_le_inv_of_pos {a b : EReal} (ha : 0 < a) (hb : 0 < b) (h : a ≤ b⁻¹) : b ≤ a⁻¹ := by
  have hbt : b ≠ ⊤ := by
    rintro rfl
    rw [EReal.inv_top] at h
    exact absurd ha (not_lt.2 h)
  have hat : a ≠ ⊤ := (h.trans_lt (EReal.inv_lt_top b)).ne
  lift a to ℝ using ⟨hat, ha.ne_bot⟩
  lift b to ℝ using ⟨hbt, hb.ne_bot⟩
  rw [← EReal.coe_inv, EReal.coe_le_coe_iff] at h ⊢
  exact (le_inv_comm₀ (EReal.coe_pos.1 ha) (EReal.coe_pos.1 hb)).1 h

theorem inv_le_of_inv_le_of_pos {a b : EReal} (ha : 0 < a) (hb : 0 < b) (h : a⁻¹ ≤ b) : b⁻¹ ≤ a := by
  rcases eq_or_ne a ⊤ with rfl | hat
  · exact le_top
  rcases eq_or_ne b ⊤ with rfl | hbt
  · rw [EReal.inv_top]
    exact ha.le
  lift a to ℝ using ⟨hat, ha.ne_bot⟩
  lift b to ℝ using ⟨hbt, hb.ne_bot⟩
  rw [← EReal.coe_inv, EReal.coe_le_coe_iff] at h ⊢
  exact (inv_le_comm₀ (EReal.coe_pos.1 ha) (EReal.coe_pos.1 hb)).1 h

theorem Spans.inv_of_pos (h : Spans S p q) (hp : 0 < p) : Spans ((fun x => x⁻¹) '' S) q⁻¹ p⁻¹ := by
  have hpos : ∀ x ∈ S, (0 : EReal) < x := fun x hx => hp.trans_le (h.bounds hx).1
  have hq : 0 < q := h.nonempty.elim fun x hx => (hpos x hx).trans_le (h.bounds hx).2
  have hanti := EReal.inv_strictAntiOn.antitoneOn
  have himage : extended ((fun x => x⁻¹) '' S) = (fun x : ℝ => (x : EReal)⁻¹) '' S := by
    simp only [Set.image_image, EReal.coe_inv]
  refine ⟨h.nonempty.image _, ?_, ?_⟩ <;> rw [himage]
  · refine ⟨?_, fun l hl => ?_⟩
    · rintro _ ⟨x, hx, rfl⟩
      exact hanti (hpos x hx) hq (h.bounds hx).2
    · rcases le_or_gt l 0 with hl0 | hl0
      · exact hl0.trans (EReal.inv_nonneg_of_nonneg hq.le)
      · refine le_inv_of_le_inv_of_pos hq hl0 (h.isLUB.2 ?_)
        rintro _ ⟨x, hx, rfl⟩
        exact le_inv_of_le_inv_of_pos hl0 (hpos x hx) (hl ⟨x, hx, rfl⟩)
  · refine ⟨?_, fun l hl => ?_⟩
    · rintro _ ⟨x, hx, rfl⟩
      exact hanti hp (hpos x hx) (h.bounds hx).1
    · have hl0 : 0 < l := by
        obtain ⟨x, hx⟩ := h.nonempty
        exact (EReal.inv_pos_of_pos_ne_top (hpos x hx) (EReal.coe_ne_top x)).trans_le (hl ⟨x, hx, rfl⟩)
      refine inv_le_of_inv_le_of_pos hl0 hp (h.isGLB.2 ?_)
      rintro _ ⟨x, hx, rfl⟩
      exact inv_le_of_inv_le_of_pos (hpos x hx) hl0 (hl ⟨x, hx, rfl⟩)

theorem mul_le_mul_of_nonpos_of_le {a b c : EReal} (h : b ≤ a) (hc : c ≤ 0) : c * a ≤ c * b := by
  rw [mul_comm c a, mul_comm c b]
  exact EReal.mul_le_mul_of_nonpos_right h hc

/-- The exact bounds of the quotients by positive divisors: which bound divides depends on the sign of the dividend's. -/
theorem Spans.div_of_pos (hS : Spans S p q) (hT : Spans T u v) (hu : 0 < u) {c d : EReal}
    (hc : (0 ≤ p ∧ c = v) ∨ (p ≤ 0 ∧ c = u)) (hd : (q ≤ 0 ∧ d = v) ∨ (0 ≤ q ∧ d = u)) :
    Spans (Set.image2 (· / ·) S T) (p / c) (q / d) := by
  have hinv := hT.inv_of_pos hu
  have himage : Set.image2 (· / ·) S T = Set.image2 (· * ·) S ((fun x => x⁻¹) '' T) := by
    simp only [Set.image2_image_right, div_eq_mul_inv]
  have hv : 0 < v := hT.nonempty.elim fun y hy => hu.trans_le ((hT.bounds hy).1.trans (hT.bounds hy).2)
  rw [himage, EReal.div_eq_inv_mul, EReal.div_eq_inv_mul, mul_comm, mul_comm d⁻¹]
  refine hS.mul_of_bounds hinv (.inl rfl) ?_ (.inr rfl) ?_ fun x hx w hw => ⟨?_, ?_⟩
  · rcases hc with ⟨-, rfl⟩ | ⟨-, rfl⟩
    · exact .inl rfl
    · exact .inr rfl
  · rcases hd with ⟨-, rfl⟩ | ⟨-, rfl⟩
    · exact .inl rfl
    · exact .inr rfl
  all_goals
    obtain ⟨hlo, hhi⟩ := hinv.bounds hw
    have hw0 : (0 : EReal) ≤ w := (EReal.inv_nonneg_of_nonneg hv.le).trans hlo
  · refine le_trans ?_ (mul_le_mul_of_nonneg_right (hS.bounds hx).1 hw0)
    rcases hc with ⟨hp, rfl⟩ | ⟨hp, rfl⟩
    · exact mul_le_mul_of_nonneg_left hlo hp
    · exact mul_le_mul_of_nonpos_of_le hhi hp
  · refine (mul_le_mul_of_nonneg_right (hS.bounds hx).2 hw0).trans ?_
    rcases hd with ⟨hq, rfl⟩ | ⟨hq, rfl⟩
    · exact mul_le_mul_of_nonpos_of_le hlo hq
    · exact mul_le_mul_of_nonneg_left hhi hq

theorem neg_div_neg (a b : EReal) : -a / -b = a / b := by
  rw [EReal.div_eq_inv_mul, EReal.div_eq_inv_mul, EReal.inv_neg, neg_mul_neg]

/-- The exact bounds of the quotients by negative divisors, those of the negated operands. -/
theorem Spans.div_of_neg (hS : Spans S p q) (hT : Spans T u v) (hv : v < 0) {c d : EReal}
    (hc : (0 ≤ q ∧ c = v) ∨ (q ≤ 0 ∧ c = u)) (hd : (p ≤ 0 ∧ d = v) ∨ (0 ≤ p ∧ d = u)) :
    Spans (Set.image2 (· / ·) S T) (q / c) (p / d) := by
  have himage : Set.image2 (· / ·) S T = Set.image2 (· / ·) ((fun x => -x) '' S) ((fun x => -x) '' T) := by
    simp only [Set.image2_image_left, Set.image2_image_right, neg_div_neg_eq]
  rw [himage, ← neg_div_neg q c, ← neg_div_neg p d]
  refine hS.neg.div_of_pos hT.neg (by simpa using hv) ?_ ?_
  · rcases hc with ⟨hq, rfl⟩ | ⟨hq, rfl⟩
    · exact .inr ⟨by simpa using hq, rfl⟩
    · exact .inl ⟨by simpa using hq, rfl⟩
  · rcases hd with ⟨hp, rfl⟩ | ⟨hp, rfl⟩
    · exact .inr ⟨by simpa using hp, rfl⟩
    · exact .inl ⟨by simpa using hp, rfl⟩

end

/-! ## The extended-rational operations as Mathlib's (R120) -/

theorem ER.toEReal_add {a b : ER} (h : a ≠ .pinf ∨ b ≠ .ninf) : (ER.add a b).toEReal = a.toEReal + b.toEReal := by
  cases a <;> cases b <;> simp_all [ER.add]

theorem toEReal_mul_infinity (r : Rat) :
    (ER.mul (.fin r) .pinf).toEReal = ((r : ℝ) : EReal) * ⊤ ∧ (ER.mul (.fin r) .ninf).toEReal = ((r : ℝ) : EReal) * ⊥ := by
  rcases lt_trichotomy r 0 with h | rfl | h
  · have hr : (r : ℝ) < 0 := Rat.cast_lt_zero.2 h
    rw [EReal.coe_mul_top_of_neg hr, EReal.coe_mul_bot_of_neg hr]
    simp [ER.mul, ER.sgn, h, ER.infinity]
  · simp [ER.mul, ER.sgn]
  · have hr : 0 < (r : ℝ) := Rat.cast_pos.2 h
    rw [EReal.coe_mul_top_of_pos hr, EReal.coe_mul_bot_of_pos hr]
    simp [ER.mul, ER.sgn, not_lt.2 h.le, h.ne', ER.infinity]

theorem ER.mul_comm (a b : ER) : ER.mul a b = ER.mul b a := by
  cases a <;> cases b <;> simp [ER.mul, Int.mul_comm, Rat.mul_comm]

theorem ER.toEReal_mul (a b : ER) : (ER.mul a b).toEReal = a.toEReal * b.toEReal := by
  have hinf := toEReal_mul_infinity
  cases a with
  | fin p =>
    cases b with
    | ninf => exact (hinf p).2
    | fin q => simp [ER.mul]
    | pinf => exact (hinf p).1
  | ninf =>
    cases b with
    | ninf => rfl
    | fin q => rw [ER.mul_comm, EReal.mul_comm]; exact (hinf q).2
    | pinf => rfl
  | pinf =>
    cases b with
    | ninf => rfl
    | fin q => rw [ER.mul_comm, EReal.mul_comm]; exact (hinf q).1
    | pinf => rfl

theorem toEReal_infinity_div {r : Rat} (h : r ≠ 0) :
    (ER.div .pinf (.fin r)).toEReal = ⊤ / ((r : ℝ) : EReal) ∧ (ER.div .ninf (.fin r)).toEReal = ⊥ / ((r : ℝ) : EReal) := by
  rcases lt_or_gt_of_ne h with h | h
  · have hr : ((r : ℝ) : EReal) < 0 := EReal.coe_neg'.2 (Rat.cast_lt_zero.2 h)
    rw [EReal.top_div_of_neg_ne_bot hr (EReal.coe_ne_bot _), EReal.bot_div_of_neg_ne_bot hr (EReal.coe_ne_bot _)]
    simp [ER.div, ER.sgn, h, ER.infinity]
  · have hr : 0 < ((r : ℝ) : EReal) := EReal.coe_pos.2 (Rat.cast_pos.2 h)
    rw [EReal.top_div_of_pos_ne_top hr (EReal.coe_ne_top _), EReal.bot_div_of_pos_ne_top hr (EReal.coe_ne_top _)]
    simp [ER.div, ER.sgn, not_lt.2 h.le, h.ne', ER.infinity]

theorem ER.toEReal_div (a : ER) {b : ER} (h : b ≠ .fin 0) : (ER.div a b).toEReal = a.toEReal / b.toEReal := by
  cases b with
  | ninf => cases a <;> simp [ER.div]
  | pinf => cases a <;> simp [ER.div]
  | fin r =>
    have hr : r ≠ 0 := by simpa using h
    cases a with
    | ninf => exact (toEReal_infinity_div hr).2
    | fin q => simp [ER.div, EReal.coe_div]
    | pinf => exact (toEReal_infinity_div hr).1

theorem toEReal_erMin (a b : ER) : (ER.min a b).toEReal = min a.toEReal b.toEReal := by
  unfold ER.min
  split
  next h => rw [min_eq_right (ER.lt_iff.1 h).le]
  next h => rw [min_eq_left (not_lt.1 (mt ER.lt_iff.2 h))]

theorem toEReal_erMax (a b : ER) : (ER.max a b).toEReal = max a.toEReal b.toEReal := by
  unfold ER.max
  split
  next h => rw [max_eq_right (ER.lt_iff.1 h).le]
  next h => rw [max_eq_left (not_lt.1 (mt ER.lt_iff.2 h))]

theorem ER.min_mem (a b : ER) : ER.min a b = a ∨ ER.min a b = b := by
  unfold ER.min
  split
  · exact .inr rfl
  · exact .inl rfl

theorem ER.max_mem (a b : ER) : ER.max a b = a ∨ ER.max a b = b := by
  unfold ER.max
  split
  · exact .inr rfl
  · exact .inl rfl

/-! ## The reals in an interval (R122, R123) -/

section
variable {fmt : Fmt} {X Y Z : Interval fmt} {a b c d lo hi : ER} {op : ℝ → ℝ → ℝ}

theorem contains_iff (h : bounds X = some (a, b)) {x : ℝ} : Contains X x ↔ a.toEReal ≤ x ∧ (x : EReal) ≤ b.toEReal := by
  simp [Contains, h, ER.atMost_iff, ER.atLeast_iff]

/-- The bounds of a valid interval are the exact bounds of the reals in it. -/
theorem spans_contains (hX : valid X = true) (h : bounds X = some (a, b)) : Spans {x | Contains X x} a.toEReal b.toEReal := by
  obtain ⟨hle, ha, hb⟩ := (valid_iff_of_bounds h).1 hX
  rw [ER.le_iff] at hle
  have hmem : ∀ {x : ℝ}, a.toEReal ≤ x → (x : EReal) ≤ b.toEReal → x ∈ {x | Contains X x} :=
    fun h1 h2 => (contains_iff h).2 ⟨h1, h2⟩
  have hlo : a.toEReal ∈ closure (extended {x | Contains X x}) := by
    cases a with
    | pinf => exact absurd rfl ha
    | fin r => exact subset_closure ⟨r, hmem le_rfl hle, rfl⟩
    | ninf =>
      obtain ⟨y, hy⟩ : ∃ y : ℝ, (y : EReal) ≤ b.toEReal := by
        cases b with
        | ninf => exact absurd rfl hb
        | fin r => exact ⟨r, le_rfl⟩
        | pinf => exact ⟨0, le_top⟩
      refine mem_closure_of_tendsto EReal.tendsto_coe_atBot ((Filter.eventually_le_atBot y).mono fun x hx => ?_)
      exact ⟨x, hmem bot_le ((EReal.coe_le_coe_iff.2 hx).trans hy), rfl⟩
  have hhi : b.toEReal ∈ closure (extended {x | Contains X x}) := by
    cases b with
    | ninf => exact absurd rfl hb
    | fin r => exact subset_closure ⟨r, hmem hle le_rfl, rfl⟩
    | pinf =>
      obtain ⟨y, hy⟩ : ∃ y : ℝ, a.toEReal ≤ (y : EReal) := by
        cases a with
        | pinf => exact absurd rfl ha
        | fin r => exact ⟨r, le_rfl⟩
        | ninf => exact ⟨0, bot_le⟩
      refine mem_closure_of_tendsto EReal.tendsto_coe_atTop ((Filter.eventually_ge_atTop y).mono fun x hx => ?_)
      exact ⟨x, hmem (hy.trans (EReal.coe_le_coe_iff.2 hx)) le_top, rfl⟩
  have hne : {x | Contains X x}.Nonempty :=
    (closure_nonempty_iff.1 ⟨_, hlo⟩).of_image
  exact .of_mem_closure hne hlo hhi fun x hx => (contains_iff h).1 hx

/-- The exact bounds of the results of an operation are `ExactBounds`. -/
theorem Spans.exactBounds (h : Spans (Set.image2 op {x | Contains X x} {y | Contains Y y}) lo.toEReal hi.toEReal) :
    ExactBounds X Y op lo hi := by
  refine ⟨fun x y hx hy => ?_, fun l u hlu => ⟨?_, ?_⟩⟩
  · obtain ⟨h1, h2⟩ := h.bounds ⟨x, hx, y, hy, rfl⟩
    exact ⟨ER.atMost_iff.2 h1, ER.atLeast_iff.2 h2⟩
  · refine ER.le_iff.2 (h.isGLB.2 ?_)
    rintro _ ⟨_, ⟨x, hx, y, hy, rfl⟩, rfl⟩
    exact ER.atMost_iff.1 (hlu x y hx hy).1
  · refine ER.le_iff.2 (h.isLUB.2 ?_)
    rintro _ ⟨_, ⟨x, hx, y, hy, rfl⟩, rfl⟩
    exact ER.atLeast_iff.1 (hlu x y hx hy).2

/-! ## Rounding exact bounds outward (R121) -/

/-- Exact bounds rounded outward are the tightest interval of the format around all results. -/
theorem ExactBounds.tightestResult (h : ExactBounds X Y op lo hi) : TightestResult X Y (outward fmt lo hi) op lo hi := by
  refine ⟨h, rfl, fun Z ⟨hZ, himage⟩ => ?_⟩
  obtain ⟨zl, zh, hz⟩ := exists_bounds_of_valid hZ
  obtain ⟨l, u, hlu, -, -, htight⟩ := exists_bounds_outward fmt lo hi
  obtain ⟨hzl, hzh⟩ := bounds_eq_some_iff.1 hz
  have hout : ER.le zl lo = true ∧ ER.le hi zh = true := by
    refine h.2 zl zh fun x y hx hy => ?_
    have hc := (contains_iff hz).1 (himage x y hx hy)
    exact ⟨ER.atMost_iff.2 hc.1, ER.atLeast_iff.2 hc.2⟩
  exact encloses_iff.2 ⟨zl, zh, l, u, validBounds_of_valid hz hZ, hlu, (htight Z.lo zl hzl).1 hout.1,
    (htight Z.hi zh hzh).2 hout.2⟩

/-- Bounds of all results of non-empty operands, rounded outward, are a valid interval that contains them. -/
theorem ExactBounds.containsImage (h : ExactBounds X Y op lo hi) (hX : valid X = true) (hY : valid Y = true) :
    ContainsImage X Y (outward fmt lo hi).1 op := by
  obtain ⟨l, u, hlu, hl, hu, -⟩ := exists_bounds_outward fmt lo hi
  have hcontains : ∀ x y : ℝ, Contains X x → Contains Y y →
      l.toEReal ≤ (op x y : ℝ) ∧ ((op x y : ℝ) : EReal) ≤ u.toEReal := fun x y hx hy =>
    ⟨(ER.le_iff.1 hl).trans (ER.atMost_iff.1 (h.1 x y hx hy).1), (ER.atLeast_iff.1 (h.1 x y hx hy).2).trans (ER.le_iff.1 hu)⟩
  refine ⟨?_, fun x y hx hy => (contains_iff hlu).2 (hcontains x y hx hy)⟩
  obtain ⟨a, b, hab⟩ := exists_bounds_of_valid hX
  obtain ⟨c, d, hcd⟩ := exists_bounds_of_valid hY
  obtain ⟨x, hx⟩ := (spans_contains hX hab).nonempty
  obtain ⟨y, hy⟩ := (spans_contains hY hcd).nonempty
  obtain ⟨h1, h2⟩ := hcontains x y hx hy
  refine (valid_iff_of_bounds hlu).2 ⟨ER.le_iff.2 (h1.trans h2), ?_, ?_⟩
  · rintro rfl
    exact absurd h1 (by simp)
  · rintro rfl
    exact absurd h2 (by simp)

/-! ## The exact bounds of the four operations (R151 to R154) -/

theorem exactBounds_add (hX : valid X = true) (hY : valid Y = true) (hab : bounds X = some (a, b))
    (hcd : bounds Y = some (c, d)) : ExactBounds X Y (· + ·) (ER.add a c) (ER.add b d) := by
  obtain ⟨-, ha, hb⟩ := (valid_iff_of_bounds hab).1 hX
  obtain ⟨-, hc, hd⟩ := (valid_iff_of_bounds hcd).1 hY
  apply Spans.exactBounds
  rw [ER.toEReal_add (.inl ha), ER.toEReal_add (.inr hd)]
  exact (spans_contains hX hab).add (spans_contains hY hcd)

theorem exactBounds_sub (hX : valid X = true) (hY : valid Y = true) (hab : bounds X = some (a, b))
    (hcd : bounds Y = some (c, d)) : ExactBounds X Y (· - ·) (ER.add a d.neg) (ER.add b c.neg) := by
  obtain ⟨-, ha, hb⟩ := (valid_iff_of_bounds hab).1 hX
  obtain ⟨-, hc, hd⟩ := (valid_iff_of_bounds hcd).1 hY
  have hc' : c.neg ≠ .ninf := by cases c <;> simp_all [ER.neg]
  apply Spans.exactBounds
  rw [ER.toEReal_add (.inl ha), ER.toEReal_add (.inr hc'), ER.toEReal_neg, ER.toEReal_neg]
  exact (spans_contains hX hab).sub (spans_contains hY hcd)

/-- The least of the four products of the bounds (R153). -/
def leastProduct (a b c d : ER) : ER := ER.min (ER.min (ER.mul a c) (ER.mul a d)) (ER.min (ER.mul b c) (ER.mul b d))

/-- The greatest of the four products of the bounds (R153). -/
def greatestProduct (a b c d : ER) : ER := ER.max (ER.max (ER.mul a c) (ER.mul a d)) (ER.max (ER.mul b c) (ER.mul b d))

/-- What is picked of the four products is one of them. -/
theorem corner_mem {pick : ER → ER → ER} (hpick : ∀ x y, pick x y = x ∨ pick x y = y) (a b c d : ER) :
    ∃ e f, (e = a ∨ e = b) ∧ (f = c ∨ f = d) ∧
      pick (pick (ER.mul a c) (ER.mul a d)) (pick (ER.mul b c) (ER.mul b d)) = ER.mul e f := by
  rcases hpick (pick (ER.mul a c) (ER.mul a d)) (pick (ER.mul b c) (ER.mul b d)) with h | h <;> rw [h]
  · rcases hpick (ER.mul a c) (ER.mul a d) with h | h
    · exact ⟨a, c, .inl rfl, .inl rfl, h⟩
    · exact ⟨a, d, .inl rfl, .inr rfl, h⟩
  · rcases hpick (ER.mul b c) (ER.mul b d) with h | h
    · exact ⟨b, c, .inr rfl, .inl rfl, h⟩
    · exact ⟨b, d, .inr rfl, .inr rfl, h⟩

theorem leastProduct_mem (a b c d : ER) : ∃ e f, (e = a ∨ e = b) ∧ (f = c ∨ f = d) ∧ leastProduct a b c d = ER.mul e f :=
  corner_mem ER.min_mem a b c d

theorem greatestProduct_mem (a b c d : ER) :
    ∃ e f, (e = a ∨ e = b) ∧ (f = c ∨ f = d) ∧ greatestProduct a b c d = ER.mul e f :=
  corner_mem ER.max_mem a b c d

theorem toEReal_leastProduct (a b c d : ER) : (leastProduct a b c d).toEReal =
    min (min (a.toEReal * c.toEReal) (a.toEReal * d.toEReal)) (min (b.toEReal * c.toEReal) (b.toEReal * d.toEReal)) := by
  simp only [leastProduct, toEReal_erMin, ER.toEReal_mul]

theorem toEReal_greatestProduct (a b c d : ER) : (greatestProduct a b c d).toEReal =
    max (max (a.toEReal * c.toEReal) (a.toEReal * d.toEReal)) (max (b.toEReal * c.toEReal) (b.toEReal * d.toEReal)) := by
  simp only [greatestProduct, toEReal_erMax, ER.toEReal_mul]

theorem exactBounds_mul (hX : valid X = true) (hY : valid Y = true) (hab : bounds X = some (a, b))
    (hcd : bounds Y = some (c, d)) : ExactBounds X Y (· * ·) (leastProduct a b c d) (greatestProduct a b c d) := by
  obtain ⟨e, f, he, hf, hlo⟩ := leastProduct_mem a b c d
  obtain ⟨e', f', he', hf', hhi⟩ := greatestProduct_mem a b c d
  have hbound : ∀ {e a b : ER}, e = a ∨ e = b → e.toEReal = a.toEReal ∨ e.toEReal = b.toEReal :=
    fun h => h.imp (congrArg _) (congrArg _)
  apply Spans.exactBounds
  rw [hlo, hhi, ER.toEReal_mul, ER.toEReal_mul]
  refine (spans_contains hX hab).mul_of_bounds (spans_contains hY hcd) (hbound he) (hbound hf) (hbound he') (hbound hf')
    fun x hx y hy => ?_
  rw [← ER.toEReal_mul, ← ER.toEReal_mul, ← hlo, ← hhi, toEReal_leastProduct, toEReal_greatestProduct]
  exact mul_between_corners ((contains_iff hab).1 hx) ((contains_iff hcd).1 hy)

theorem containsZero_eq_false_iff (h : bounds Y = some (c, d)) :
    containsZero Y = false ↔ ER.lt (.fin 0) c = true ∨ ER.lt d (.fin 0) = true := by
  rw [containsZero, h, Bool.and_eq_false_iff, ER.le, ER.le, Bool.not_eq_false', Bool.not_eq_false']

/-- The table of R154 gives the exact bounds of the quotients by a divisor without zero. -/
theorem exactBounds_quotientBounds (hX : valid X = true) (hY : valid Y = true) (hab : bounds X = some (a, b))
    (hcd : bounds Y = some (c, d)) (h : ER.lt (.fin 0) c = true ∨ ER.lt d (.fin 0) = true) :
    ExactBounds X Y (· / ·) (quotientBounds a b c d).1 (quotientBounds a b c d).2 := by
  have hS := spans_contains hX hab
  have hT := spans_contains hY hcd
  have hab' := ER.le_iff.1 ((valid_iff_of_bounds hab).1 hX).1
  have hcd' := ER.le_iff.1 ((valid_iff_of_bounds hcd).1 hY).1
  have h0 : (ER.fin 0).toEReal = 0 := by simp
  have hne : ∀ {e : ER}, e.toEReal ≠ 0 → e ≠ .fin 0 := fun he h => he (h ▸ h0)
  apply Spans.exactBounds
  unfold quotientBounds
  simp only [ER.lt_iff, ER.le_iff, h0] at h ⊢
  by_cases hc : 0 < c.toEReal
  · have hc0 : c ≠ .fin 0 := hne hc.ne'
    have hd0 : d ≠ .fin 0 := hne (hc.trans_le hcd').ne'
    rw [if_pos hc]
    split_ifs with ha hb <;> simp only [ER.toEReal_div _ hc0, ER.toEReal_div _ hd0]
    · exact hS.div_of_pos hT hc (.inl ⟨ha, rfl⟩) (.inr ⟨ha.trans hab', rfl⟩)
    · exact hS.div_of_pos hT hc (.inr ⟨(not_le.1 ha).le, rfl⟩) (.inl ⟨hb, rfl⟩)
    · exact hS.div_of_pos hT hc (.inr ⟨(not_le.1 ha).le, rfl⟩) (.inr ⟨(not_le.1 hb).le, rfl⟩)
  · have hd : d.toEReal < 0 := h.resolve_left hc
    have hd0 : d ≠ .fin 0 := hne hd.ne
    have hc0 : c ≠ .fin 0 := hne (hcd'.trans_lt hd).ne
    rw [if_neg hc]
    split_ifs with ha hb <;> simp only [ER.toEReal_div _ hc0, ER.toEReal_div _ hd0]
    · exact hS.div_of_neg hT hd (.inl ⟨ha.trans hab', rfl⟩) (.inr ⟨ha, rfl⟩)
    · exact hS.div_of_neg hT hd (.inr ⟨hb, rfl⟩) (.inl ⟨(not_le.1 ha).le, rfl⟩)
    · exact hS.div_of_neg hT hd (.inl ⟨(not_le.1 hb).le, rfl⟩) (.inl ⟨(not_le.1 ha).le, rfl⟩)

/-! ## The reference functions on valid operands (R151 to R154) -/

theorem refAdd_of_valid (mode : Mode) (hX : valid X = true) (hY : valid Y = true) (hab : bounds X = some (a, b))
    (hcd : bounds Y = some (c, d)) : refAdd fmt mode X Y = outward fmt (ER.add a c) (ER.add b d) := by
  simp only [refAdd, validBounds_of_valid hab hX, validBounds_of_valid hcd hY]

theorem refSub_of_valid (mode : Mode) (hX : valid X = true) (hY : valid Y = true) (hab : bounds X = some (a, b))
    (hcd : bounds Y = some (c, d)) : refSub fmt mode X Y = outward fmt (ER.add a d.neg) (ER.add b c.neg) := by
  simp only [refSub, validBounds_of_valid hab hX, validBounds_of_valid hcd hY]

theorem refMul_of_valid (mode : Mode) (hX : valid X = true) (hY : valid Y = true) (hab : bounds X = some (a, b))
    (hcd : bounds Y = some (c, d)) : refMul fmt mode X Y = outward fmt (leastProduct a b c d) (greatestProduct a b c d) := by
  simp only [refMul, validBounds_of_valid hab hX, validBounds_of_valid hcd hY]
  rfl

theorem refDiv_of_valid (mode : Mode) (hX : valid X = true) (hY : valid Y = true) (hab : bounds X = some (a, b))
    (hcd : bounds Y = some (c, d)) (hz : containsZero Y = false) :
    refDiv fmt mode X Y = outward fmt (quotientBounds a b c d).1 (quotientBounds a b c d).2 := by
  have hz' : (ER.le c (.fin 0) && ER.le (.fin 0) d) = false := by rw [← hz, containsZero, hcd]
  simp only [refDiv, validBounds_of_valid hab hX, validBounds_of_valid hcd hY, hz', Bool.false_eq_true, if_false]

theorem outward_zero (fmt : Fmt) : outward fmt (.fin 0) (.fin 0) = ({ lo := 0, hi := 0 }, noFlags) := by
  simp only [outward, roundER_fin_zero]
  rfl

theorem products_zero_left (c d : ER) :
    leastProduct (.fin 0) (.fin 0) c d = .fin 0 ∧ greatestProduct (.fin 0) (.fin 0) c d = .fin 0 := by
  constructor <;> apply ER.toEReal_injective
  · simp [toEReal_leastProduct]
  · simp [toEReal_greatestProduct]

theorem products_zero_right (a b : ER) :
    leastProduct a b (.fin 0) (.fin 0) = .fin 0 ∧ greatestProduct a b (.fin 0) (.fin 0) = .fin 0 := by
  constructor <;> apply ER.toEReal_injective
  · simp [toEReal_leastProduct]
  · simp [toEReal_greatestProduct]

theorem contains_entire (fmt : Fmt) (x : ℝ) : Contains (entire fmt) x :=
  ⟨.ninf, .pinf, bounds_eq_some_iff.2 ⟨erOf_infDatum fmt true, erOf_infDatum fmt false⟩, trivial, trivial⟩

/-- The bounds of R154 in the three cases of the dividend over a positive divisor. -/
theorem quotientBounds_of_pos (hc : ER.lt (.fin 0) c = true) :
    (ER.le (.fin 0) a = true → quotientBounds a b c d = (ER.div a d, ER.div b c)) ∧
      (ER.lt a (.fin 0) = true → ER.le b (.fin 0) = true → quotientBounds a b c d = (ER.div a c, ER.div b d)) ∧
      (ER.lt a (.fin 0) = true → ER.lt (.fin 0) b = true → quotientBounds a b c d = (ER.div a c, ER.div b c)) := by
  refine ⟨fun h => ?_, fun h h' => ?_, fun h h' => ?_⟩ <;> simp_all [quotientBounds, ER.le]

/-- And over a negative divisor. -/
theorem quotientBounds_of_neg (hc : ER.lt (.fin 0) c = false) :
    (ER.le (.fin 0) a = true → quotientBounds a b c d = (ER.div b d, ER.div a c)) ∧
      (ER.lt a (.fin 0) = true → ER.le b (.fin 0) = true → quotientBounds a b c d = (ER.div b c, ER.div a d)) ∧
      (ER.lt a (.fin 0) = true → ER.lt (.fin 0) b = true → quotientBounds a b c d = (ER.div b d, ER.div a d)) := by
  refine ⟨fun h => ?_, fun h h' => ?_, fun h h' => ?_⟩ <;> simp_all [quotientBounds, ER.le]

end

/-- (P2) of R155 for the reference numerics. -/
theorem numContains_referenceNum : NumContains referenceNum := by
  intro fmt mode X Y hX hY
  obtain ⟨a, b, hab⟩ := exists_bounds_of_valid hX
  obtain ⟨c, d, hcd⟩ := exists_bounds_of_valid hY
  refine ⟨?_, ?_, ?_, fun hz => ?_⟩
  · change ContainsImage X Y (refAdd fmt mode X Y).1 (· + ·)
    rw [refAdd_of_valid mode hX hY hab hcd]
    exact (exactBounds_add hX hY hab hcd).containsImage hX hY
  · change ContainsImage X Y (refSub fmt mode X Y).1 (· - ·)
    rw [refSub_of_valid mode hX hY hab hcd]
    exact (exactBounds_sub hX hY hab hcd).containsImage hX hY
  · change ContainsImage X Y (refMul fmt mode X Y).1 (· * ·)
    rw [refMul_of_valid mode hX hY hab hcd]
    exact (exactBounds_mul hX hY hab hcd).containsImage hX hY
  · change ContainsImage X Y (refDiv fmt mode X Y).1 (· / ·)
    rw [refDiv_of_valid mode hX hY hab hcd hz]
    exact (exactBounds_quotientBounds hX hY hab hcd ((containsZero_eq_false_iff hcd).1 hz)).containsImage hX hY

/-- (P2) of R155 for every record that a configuration names. -/
theorem numContains_numOf (n : NumChoice) : NumContains (numOf n) := by
  cases n with
  | reference => exact numContains_referenceNum
  | implementation id => exact numContains_referenceNum.supported _

end Sys2Proof.Machine

section
open Sys2Proof Sys2Proof.Machine

/-- Settles O38: the sums and differences of two intervals have the exact bounds that are rounded outward. -/
theorem additionAndSubtractionContain : Obligations.AdditionAndSubtractionContain := by
  intro n fmt mode X Y hX hY
  obtain ⟨hadd, hsub, -, -⟩ := numContains_numOf n fmt mode X Y hX hY
  refine ⟨⟨hadd, hsub⟩, fun a b c d hab hcd => ?_⟩
  rw [refAdd_of_valid mode hX hY hab hcd, refSub_of_valid mode hX hY hab hcd]
  exact ⟨(exactBounds_add hX hY hab hcd).tightestResult, (exactBounds_sub hX hY hab hcd).tightestResult⟩

/-- Settles O39: a product lies between two products of bounds, and each of those is approached. -/
theorem multiplicationContains : Obligations.MultiplicationContains := by
  intro n fmt mode X Y hX hY
  obtain ⟨-, -, hmul, -⟩ := numContains_numOf n fmt mode X Y hX hY
  refine ⟨hmul, fun a b c d hab hcd => ?_⟩
  have hmem : ∀ e f p, (e = a ∨ e = b) → (f = c ∨ f = d) → p = ER.mul e f →
      p ∈ [ER.mul a c, ER.mul a d, ER.mul b c, ER.mul b d] := by
    rintro e f p (rfl | rfl) (rfl | rfl) rfl <;> simp
  obtain ⟨e, f, he, hf, hlo⟩ := leastProduct_mem a b c d
  obtain ⟨e', f', he', hf', hhi⟩ := greatestProduct_mem a b c d
  refine ⟨leastProduct a b c d, hmem e f _ he hf hlo, greatestProduct a b c d, hmem e' f' _ he' hf' hhi, fun p hp => ?_, ?_⟩
  · simp only [ER.le_iff, toEReal_leastProduct, toEReal_greatestProduct]
    simp only [List.mem_cons, List.not_mem_nil, or_false] at hp
    rcases hp with rfl | rfl | rfl | rfl <;> simp [ER.toEReal_mul]
  · rw [refMul_of_valid mode hX hY hab hcd]
    exact (exactBounds_mul hX hY hab hcd).tightestResult

/-- Settles O40: the quotients by the six cases of R154, the divisor inverted. -/
theorem divisionContains : Obligations.DivisionContains := by
  intro n fmt mode X Y hX hY
  obtain ⟨-, -, -, hdiv⟩ := numContains_numOf n fmt mode X Y hX hY
  refine ⟨hdiv, fun _ x y _ _ _ => ?_, fun a b c d hab hcd => ?_⟩
  · rw [refDivByZeroInterval, if_pos hX]
    exact contains_entire fmt _
  have htight : ∀ {lo hi : ER}, (ER.lt (.fin 0) c = true ∨ ER.lt d (.fin 0) = true) →
      quotientBounds a b c d = (lo, hi) → TightestResult X Y (refDiv fmt mode X Y) (· / ·) lo hi := by
    intro lo hi hz heq
    have hexact := exactBounds_quotientBounds hX hY hab hcd hz
    rw [refDiv_of_valid mode hX hY hab hcd ((containsZero_eq_false_iff hcd).2 hz)]
    rw [heq] at hexact ⊢
    exact hexact.tightestResult
  refine ⟨fun hc => ?_, fun hd => ?_⟩
  · obtain ⟨h1, h2, h3⟩ := quotientBounds_of_pos (a := a) (b := b) (d := d) hc
    exact ⟨fun ha => htight (.inl hc) (h1 ha), fun ha hb => htight (.inl hc) (h2 ha hb),
      fun ha hb => htight (.inl hc) (h3 ha hb)⟩
  · have hcd' := ER.le_iff.1 ((valid_iff_of_bounds hcd).1 hY).1
    have hc : ER.lt (.fin 0) c = false := ER.lt_eq_false_iff.2 (hcd'.trans (ER.lt_iff.1 hd).le)
    obtain ⟨h1, h2, h3⟩ := quotientBounds_of_neg (a := a) (b := b) (d := d) hc
    exact ⟨fun ha => htight (.inr hd) (h1 ha), fun ha hb => htight (.inr hd) (h2 ha hb),
      fun ha hb => htight (.inr hd) (h3 ha hb)⟩

/-- Settles O44: every product with a zero is zero, and an exact zero is rounded to `+0`. -/
theorem zeroTimesAnyIntervalIsZero : Obligations.ZeroTimesAnyIntervalIsZero := by
  intro fmt mode X Y hX hY
  have hvX : valid X = true := (valid_iff_of_bounds hX).2 ⟨ER.le_refl _, by simp, by simp⟩
  obtain ⟨c, d, hcd⟩ := exists_bounds_of_valid hY
  obtain ⟨hll, hlg⟩ := products_zero_left c d
  obtain ⟨hrl, hrg⟩ := products_zero_right c d
  rw [refMul_of_valid mode hvX hY hX hcd, refMul_of_valid mode hY hvX hcd hX, hll, hlg, hrl, hrg]
  exact ⟨outward_zero fmt, outward_zero fmt⟩

end

/-! The arithmetic instructions (R150 to R164): the registers and the rest of the state after an interval result. -/

namespace Sys2Proof.Machine

/-! ## Where an interval result is stored (R29, R31, R33) -/

section
variable {s t : State} {fmt : Fmt} {rd : Reg} {I : Interval fmt}

theorem storesInterval_iff_of_f {flen : Width} (h : s.cfg.regfile = .f flen) :
    StoresInterval s t fmt rd I ↔ WritesF s t rd (fImageOfInterval fmt flen I) ∧ KeepsX s t := by
  cases fmt <;> simp [StoresInterval, h]

theorem storesInterval_iff_of_single (h : s.cfg.regfile = .x) (hp : pairing s.cfg fmt = false) :
    StoresInterval s t fmt rd I ↔ WritesX s t rd (xImageOfInterval fmt s.cfg.xlen I) ∧ KeepsF s t := by
  cases fmt with
  | h => simp [StoresInterval, h]
  | s =>
    cases hxlen : s.cfg.xlen with
    | w32 => simp [pairing, h, hxlen] at hp
    | w64 => simp [StoresInterval, h, hxlen]

theorem storesInterval_iff_of_pair {I : Interval .s} (h : s.cfg.regfile = .x) (hxlen : s.cfg.xlen = .w32) :
    StoresInterval s t .s rd I ↔ WritesPair s t rd I ∧ KeepsF s t := by
  simp [StoresInterval, h, hxlen]

/-- Only configurations with `FLEN = 64` have single-precision intervals in `f` registers (R10, R29). -/
theorem flen_eq_w64_of_single {c : Config} {flen : Width} (hlegal : c.legal = true) (h : c.regfile = .f flen)
    (hfmt : formatImplemented c .s = true) : flen = .w64 := by
  cases flen with
  | w64 => rfl
  | w32 => exact absurd ((c.legal_iff.1 hlegal).2 h) ((formatImplemented_s c).1 hfmt)

/-- A single-precision interval that fills one `x` register has a register of 64 bits (R33). -/
theorem xlen_eq_w64_of_not_pairing {c : Config} (h : c.regfile = .x) (hp : pairing c .s = false) : c.xlen = .w64 := by
  cases hxlen : c.xlen with
  | w64 => rfl
  | w32 => simp [pairing, h, hxlen] at hp

theorem writesPair_writeInterval (hp : pairing s.cfg .s = true) (heven : rd.toNat % 2 = 0) (I : Interval .s) :
    WritesPair s (writeInterval s .s rd I) rd I := by
  obtain ⟨-, hxlen, -⟩ := (pairing_eq_true _ _).1 hp
  obtain ⟨hne, hne0⟩ := succ_ne_of_even heven
  intro r
  rw [writeInterval_of_pair hp]
  by_cases h0 : rd = 0#5
  · rw [if_pos h0, if_pos h0]
  · rw [if_neg h0, if_neg h0, readX_writeX, readX_writeX, writeX_cfg, hxlen, truncTo_w32_setWidth_32,
      truncTo_w32_setWidth_32]
    by_cases hr : r = rd
    · simp [hr, h0, hne.symm]
    · simp [hr, hne0]

/-- A written interval stands where R31 puts it, as R29 lays it out, and the other register file is unchanged. -/
theorem storesInterval_writeInterval (hlegal : s.cfg.legal = true) (hfmt : formatImplemented s.cfg fmt = true)
    (heven : pairing s.cfg fmt = true → rd.toNat % 2 = 0) (I : Interval fmt) :
    StoresInterval s (writeInterval s fmt rd I) fmt rd I := by
  cases hregs : s.cfg.regfile with
  | f flen =>
    have hs : fmt = .s → flen = .w64 := by
      rintro rfl
      exact flen_eq_w64_of_single hlegal hregs hfmt
    refine (storesInterval_iff_of_f hregs).2 ⟨fun r => ?_, fun r => ?_⟩
    · rw [writeInterval_of_f hregs, readF_writeF hregs, truncTo_nanBox_bits fmt flen I hs]
    · rw [writeInterval_of_f hregs, readX_writeF]
  | x =>
    have hf : KeepsF s (writeInterval s fmt rd I) := fun r => by rw [readF, readF, writeInterval_f_of_x hregs]
    cases hp : pairing s.cfg fmt with
    | false =>
      have hs : fmt = .s → s.cfg.xlen = .w64 := by
        rintro rfl
        exact xlen_eq_w64_of_not_pairing hregs hp
      refine (storesInterval_iff_of_single hregs hp).2 ⟨fun r => ?_, hf⟩
      rw [writeInterval_of_single hregs hp, readX_writeX, truncTo_signExtend_bits fmt _ I hs]
    | true =>
      obtain ⟨-, hxlen, rfl⟩ := (pairing_eq_true _ _).1 hp
      exact (storesInterval_iff_of_pair hregs hxlen).2 ⟨writesPair_writeInterval hp (heven hp) I, hf⟩

/-- Under pairing every register number that is checked is even (R91). -/
theorem even_of_pairRegsOk {c : Config} {regs : List Reg} (h : pairRegsOk c fmt regs = true) (hp : pairing c fmt = true)
    {r : Reg} (hr : r ∈ regs) : r.toNat % 2 = 0 := by
  obtain ⟨hx, hxlen, rfl⟩ := (pairing_eq_true _ _).1 hp
  by_contra hodd
  exact (pairRegsOk_s c regs).1 h ⟨⟨hx, hxlen⟩, r, hr, by omega⟩

/-- Accrual and the move of `pc`, after a write that touches the register files only, leave the frame of `Completes`. -/
theorem completes_of_result {u : State} {fl : FlagSet} (hcfg : u.cfg = s.cfg) (hpc : u.pc = s.pc)
    (hfflags : u.fflags = s.fflags) (hfrm : u.frm = s.frm) (hmem : u.mem = s.mem) :
    Completes s (advancePc (accrueFlags u fl)) fl := by
  refine ⟨hcfg, hfrm, fun a => ?_, ?_, ?_⟩
  · simp [hmem]
  · simp [hfflags]
  · rw [advancePc_pc, accrueFlags_cfg, accrueFlags_pc, hcfg, hpc, truncTo_add_four]

end

/-! ## The result of an arithmetic instruction (R150) -/

section
variable {s : State} {rd rs1 rs2 : Reg} {rm : Rm} {mode : Mode} {fmt : Fmt} {word : InstrWord}
  {op : Mode → Interval fmt → Interval fmt → Interval fmt × FlagSet} {i : Instr}

/-- Where an arithmetic instruction is not reserved it completes, stores the operation's interval and accrues its flags. -/
theorem exec_arithmetic_result (hexec : exec i s = arithmetic word fmt op rd rs1 rs2 rm s) (hi : formatOf i ≠ none)
    (hlegal : s.cfg.legal = true) (hmode : ModeInForce rm s.frm mode) (h : ¬ ReservedHere s i) :
    ∃ t, exec i s = .next t ∧
      StoresInterval s t fmt rd (op mode (readInterval s fmt rs1) (readInterval s fmt rs2)).1 ∧
      Completes s t (op mode (readInterval s fmt rs1) (readInterval s fmt rs2)).2 := by
  obtain ⟨t, ht⟩ := (exec_completes_iff hi s).2 h
  obtain ⟨hfmt, hpair, m, hm, rfl⟩ := arithmetic_eq_next.1 (hexec ▸ ht)
  obtain rfl : m = mode := Option.some.inj (hm.symm.trans (effRm_eq_some_iff.2 hmode))
  refine ⟨_, ht, ?_, ?_⟩
  · have heven : pairing s.cfg fmt = true → rd.toNat % 2 = 0 := fun hp => even_of_pairRegsOk hpair hp (by simp)
    exact storesInterval_writeInterval hlegal hfmt heven _
  · exact completes_of_result (writeInterval_cfg ..) (writeInterval_pc ..) (writeInterval_fflags ..) (writeInterval_frm ..)
      (writeInterval_mem ..)

end

end Sys2Proof.Machine

section
open Sys2Proof Sys2Proof.Machine

/-- Settles O16: the shared result of the family, with the record's sum. -/
theorem intaddResult : Obligations.IntaddResult := by
  intro s rd rs1 rs2 rm mode hlegal hmode
  exact ⟨exec_arithmetic_result (exec_intaddH ..) nofun hlegal hmode, exec_arithmetic_result (exec_intaddS ..) nofun hlegal hmode⟩

/-- Settles O17: the shared result of the family, with the record's difference. -/
theorem intsubResult : Obligations.IntsubResult := by
  intro s rd rs1 rs2 rm mode hlegal hmode
  exact ⟨exec_arithmetic_result (exec_intsubH ..) nofun hlegal hmode, exec_arithmetic_result (exec_intsubS ..) nofun hlegal hmode⟩

/-- Settles O18: the shared result of the family, with the record's product. -/
theorem intmulResult : Obligations.IntmulResult := by
  intro s rd rs1 rs2 rm mode hlegal hmode
  exact ⟨exec_arithmetic_result (exec_intmulH ..) nofun hlegal hmode, exec_arithmetic_result (exec_intmulS ..) nofun hlegal hmode⟩

/-- Settles O19: the shared result of the family, with the dispatch on the divisor (R156). -/
theorem intdivResult : Obligations.IntdivResult := by
  intro s rd rs1 rs2 rm mode hlegal hmode
  refine ⟨fun h => ?_, fun h => ?_⟩
  · obtain ⟨t, ht, hresult⟩ := exec_arithmetic_result (exec_intdivH ..) nofun hlegal hmode h
    exact ⟨t, ht, _, rfl, hresult⟩
  · obtain ⟨t, ht, hresult⟩ := exec_arithmetic_result (exec_intdivS ..) nofun hlegal hmode h
    exact ⟨t, ht, _, rfl, hresult⟩

end

/-! The flags of the reference numerics (R14, R36, R116, R117, R121, R151 to R156, R241): which of them rounding, the scalar
operations and the interval operations can raise. -/

namespace Sys2Proof.Machine

/-! ## Flag sets -/

@[simp] theorem noFlags_and (m : FlagSet) : noFlags &&& m = 0#5 := BitVec.zero_and

/-- A union raises no flag of a set where neither part does. -/
theorem flagUnion_and_eq_zero {p q m : FlagSet} (hp : p &&& m = 0#5) (hq : q &&& m = 0#5) : flagUnion p q &&& m = 0#5 := by
  rw [flagUnion, BitVec.and_comm, BitVec.and_or_distrib_left, BitVec.and_comm m, BitVec.and_comm m, hp, hq]
  rfl

/-- A flag of two sets that are not raised is not raised in either. -/
theorem and_eq_zero_of_and_or {fl m n : FlagSet} (h : fl &&& (m ||| n) = 0#5) : fl &&& m = 0#5 ∧ fl &&& n = 0#5 := by
  rw [BitVec.and_or_distrib_left] at h
  exact BitVec.or_eq_zero_iff.1 h

/-! ## Rounding raises neither `NV` nor `DZ` (R115, R121) -/

theorem roundRat_invalid_free (fmt : Fmt) (mode : Mode) {r : Rat} (hr : r ≠ 0) :
    (roundRat fmt mode r).2 &&& flagNV = 0#5 ∧ (roundRat fmt mode r).2 &&& flagDZ = 0#5 :=
  and_eq_zero_of_and_or (roundRat_flags fmt mode hr).2

/-- Rounding an extended real raises a flag only where it rounds a non-zero rational. -/
theorem roundER_flags_cases (fmt : Fmt) (mode : Mode) (a : ER) :
    (roundER fmt mode a).2 = noFlags ∨ ∃ r, r ≠ 0 ∧ a = .fin r ∧ roundER fmt mode a = roundRat fmt mode r := by
  cases a with
  | ninf | pinf => exact .inl rfl
  | fin r =>
    rcases eq_or_ne r 0 with rfl | hr
    · rw [roundER_fin_zero]
      exact .inl rfl
    · exact .inr ⟨r, hr, rfl, roundER_fin fmt mode hr⟩

theorem roundER_invalid_free (fmt : Fmt) (mode : Mode) (a : ER) : (roundER fmt mode a).2 &&& (flagNV ||| flagDZ) = 0#5 := by
  obtain h | ⟨r, hr, -, h⟩ := roundER_flags_cases fmt mode a
  · rw [h, noFlags_and]
  · rw [h]
    exact (roundRat_flags fmt mode hr).2

theorem outward_invalid_free (fmt : Fmt) (lo hi : ER) :
    (outward fmt lo hi).2 &&& flagNV = 0#5 ∧ (outward fmt lo hi).2 &&& flagDZ = 0#5 :=
  and_eq_zero_of_and_or (flagUnion_and_eq_zero (roundER_invalid_free fmt .rdn lo) (roundER_invalid_free fmt .rup hi))

/-! ## Sums do not underflow (R151, R152) -/

section
variable {fmt : Fmt}

/-- The extended real is an infinity, or the value of a datum up to its sign. -/
def ER.OfFormat (fmt : Fmt) (a : ER) : Prop := ∀ q, a = .fin q → Representable fmt |q|

theorem ER.ofFormat_of_erOf {v : Datum fmt} {a : ER} (h : erOf v = some a) : a.OfFormat fmt := by
  rintro q rfl
  exact representable_abs_of_fin h

theorem ER.OfFormat.neg {a : ER} (h : a.OfFormat fmt) : a.neg.OfFormat fmt := by
  cases a with
  | ninf | pinf => exact nofun
  | fin q =>
    rintro _ ⟨⟩
    rw [abs_neg]
    exact h q rfl

/-- A value of the format is a multiple of the subnormal spacing. -/
theorem exists_multiple_of_representable {q : Rat} (h : Representable fmt |q|) :
    ∃ m : Int, q = m * pow2 (emin fmt - fracWidth fmt) := by
  obtain ⟨n, hn⟩ := h.on_grid (e := emin fmt) (.inl le_rfl)
  rcases abs_choice q with hq | hq
  · exact ⟨n, by rw [← hq, hn, Int.cast_natCast]⟩
  · exact ⟨-n, by rw [Int.cast_neg, Int.cast_natCast, neg_mul, ← hn, hq, neg_neg]⟩

/-- A multiple of the subnormal spacing below the normal range is a value of the format. -/
theorem representable_of_multiple {m : Int} (h : |(m : Rat) * pow2 (emin fmt - fracWidth fmt)| < pow2 (emin fmt)) :
    Representable fmt |(m : Rat) * pow2 (emin fmt - fracWidth fmt)| := by
  have hq := pow2_pos (emin fmt - fracWidth fmt)
  have habs : |(m : Rat) * pow2 (emin fmt - fracWidth fmt)| = (m.natAbs : Rat) * pow2 (emin fmt - fracWidth fmt) := by
    rw [abs_mul, abs_of_pos hq, Nat.cast_natAbs, Int.cast_abs]
  rw [habs] at h ⊢
  refine .inl ⟨m.natAbs, ?_, rfl⟩
  rw [pow2_shift fmt (emin fmt)] at h
  exact_mod_cast lt_of_mul_lt_mul_right h hq.le

theorem representable_pow2_emin (fmt : Fmt) : Representable fmt (pow2 (emin fmt)) := by
  refine .inr ⟨2 ^ fracWidth fmt, emin fmt, le_rfl, ?_, le_rfl, emin_le_emax fmt, pow2_shift fmt _⟩
  exact Nat.pow_lt_pow_right (by decide) (Nat.lt_succ_self _)

/-- A magnitude of the normal range is not tiny: rounding does not pass `2^emin`. -/
theorem roundsToAtLeast_emin {r : Rat} (mode : Mode) (hr : r ≠ 0) (h : pow2 (emin fmt) ≤ |r|) :
    RoundsToAtLeast fmt mode r (emin fmt) := by
  rw [← pow2_le_roundUnbounded_iff fmt mode hr, roundUnbounded_eq_onGrid]
  exact le_onGrid_of_representable mode _ (representable_pow2_emin fmt) h (grid_unbounded (abs_pos.2 hr) fmt)

/-- A sum of two values of the format is exact below the normal range, and elsewhere it is not tiny. -/
theorem roundRat_add_not_tiny (mode : Mode) {p q : Rat} (hp : Representable fmt |p|) (hq : Representable fmt |q|)
    (hne : p + q ≠ 0) : (roundRat fmt mode (p + q)).2 &&& flagUF = 0#5 := by
  rcases le_or_gt (pow2 (emin fmt)) |p + q| with hnormal | hsub
  · by_contra huf
    exact ((rounded fmt mode hne).uf_iff hne |>.1 huf).2 (roundsToAtLeast_emin mode hne hnormal)
  · obtain ⟨m, hm⟩ := exists_multiple_of_representable hp
    obtain ⟨n, hn⟩ := exists_multiple_of_representable hq
    have hsum : p + q = ((m + n : Int) : Rat) * pow2 (emin fmt - fracWidth fmt) := by
      rw [hm, hn, Int.cast_add, add_mul]
    have hrep : Representable fmt |p + q| := by
      rw [hsum] at hsub ⊢
      exact representable_of_multiple hsub
    rw [roundRat_of_representable mode hne hrep, noFlags_and]

theorem roundER_add_not_tiny (mode : Mode) {a b : ER} (ha : a.OfFormat fmt) (hb : b.OfFormat fmt) :
    (roundER fmt mode (ER.add a b)).2 &&& flagUF = 0#5 := by
  obtain h | ⟨r, hr, hsum, h⟩ := roundER_flags_cases fmt mode (ER.add a b)
  · rw [h, noFlags_and]
  · obtain ⟨p, q, rfl, rfl, rfl⟩ : ∃ p q, a = .fin p ∧ b = .fin q ∧ p + q = r := by
      cases a <;> cases b <;> simp_all [ER.add]
    rw [h]
    exact roundRat_add_not_tiny mode (ha p rfl) (hb q rfl) hr

/-- Sums of values of the format, rounded outward, raise neither `UF` nor `DZ`. -/
theorem outward_add_flags {a b c d : ER} (ha : a.OfFormat fmt) (hb : b.OfFormat fmt) (hc : c.OfFormat fmt)
    (hd : d.OfFormat fmt) : (outward fmt (ER.add a c) (ER.add b d)).2 &&& (flagUF ||| flagDZ) = 0#5 := by
  have huf : (outward fmt (ER.add a c) (ER.add b d)).2 &&& flagUF = 0#5 :=
    flagUnion_and_eq_zero (roundER_add_not_tiny .rdn ha hc) (roundER_add_not_tiny .rup hb hd)
  rw [BitVec.and_or_distrib_left, huf, (outward_invalid_free fmt _ _).2]
  rfl

/-! ## The interval operations by the validity of their operands (R151 to R154) -/

variable {X Y : Interval fmt}

theorem ofFormat_of_bounds {a b : ER} (h : bounds X = some (a, b)) : a.OfFormat fmt ∧ b.OfFormat fmt := by
  obtain ⟨hlo, hhi⟩ := bounds_eq_some_iff.1 h
  exact ⟨ER.ofFormat_of_erOf hlo, ER.ofFormat_of_erOf hhi⟩

theorem validBounds_eq_none_iff : validBounds X = none ↔ valid X = false := by
  rw [valid, Option.isSome_eq_false_iff, Option.isNone_iff_eq_none]

theorem ref_of_invalid (mode : Mode) (h : valid X = false ∨ valid Y = false) :
    ∀ op ∈ [refAdd, refSub, refMul, refDiv], op fmt mode X Y = invalidResult fmt := by
  rw [← validBounds_eq_none_iff, ← validBounds_eq_none_iff] at h
  simp only [List.mem_cons, List.not_mem_nil, or_false]
  rintro op (rfl | rfl | rfl | rfl)
  · rcases h with h | h <;> simp [refAdd, h]
  · rcases h with h | h <;> simp [refSub, h]
  · rcases h with h | h <;> simp [refMul, h]
  · rcases h with h | h <;> simp [refDiv, h]

theorem valid_or_invalid (X Y : Interval fmt) : (valid X = true ∧ valid Y = true) ∨ (valid X = false ∨ valid Y = false) := by
  cases valid X <;> cases valid Y <;> simp

/-- On valid operands a sum, a difference or a product is a pair of bounds rounded outward. -/
theorem ref_of_valid (mode : Mode) (hX : valid X = true) (hY : valid Y = true) :
    ∀ op ∈ [refAdd, refSub, refMul], ∃ lo hi, op fmt mode X Y = outward fmt lo hi := by
  obtain ⟨a, b, hab⟩ := exists_bounds_of_valid hX
  obtain ⟨c, d, hcd⟩ := exists_bounds_of_valid hY
  simp only [List.mem_cons, List.not_mem_nil, or_false]
  rintro op (rfl | rfl | rfl)
  · exact ⟨_, _, refAdd_of_valid mode hX hY hab hcd⟩
  · exact ⟨_, _, refSub_of_valid mode hX hY hab hcd⟩
  · exact ⟨_, _, refMul_of_valid mode hX hY hab hcd⟩

theorem containsZero_of_bounds {c d : ER} (h : bounds Y = some (c, d)) :
    containsZero Y = (ER.le c (.fin 0) && ER.le (.fin 0) d) := by rw [containsZero, h]

/-- On valid operands a quotient is a pair of bounds rounded outward, or `Entire` where the divisor contains zero. -/
theorem refDiv_of_valid_cases (mode : Mode) (hX : valid X = true) (hY : valid Y = true) :
    (containsZero Y = false ∧ ∃ lo hi, refDiv fmt mode X Y = outward fmt lo hi) ∨
      (containsZero Y = true ∧ refDiv fmt mode X Y = (entire fmt, flagDZ)) := by
  obtain ⟨a, b, hab⟩ := exists_bounds_of_valid hX
  obtain ⟨c, d, hcd⟩ := exists_bounds_of_valid hY
  cases hz : containsZero Y with
  | false => exact .inl ⟨rfl, _, _, refDiv_of_valid mode hX hY hab hcd hz⟩
  | true =>
    rw [containsZero_of_bounds hcd] at hz
    refine .inr ⟨rfl, ?_⟩
    simp only [refDiv, validBounds_of_valid hab hX, validBounds_of_valid hcd hY, hz, if_true]

end

end Sys2Proof.Machine

section
open Sys2Proof Sys2Proof.Machine

/-- Settles O41: invalid operands raise `NV` alone, and the bounds of valid ones are values of the format, which are added. -/
theorem additionNeverUnderflows : Obligations.AdditionNeverUnderflows := by
  intro fmt mode X Y
  rcases valid_or_invalid X Y with ⟨hX, hY⟩ | h
  · obtain ⟨a, b, hab⟩ := exists_bounds_of_valid hX
    obtain ⟨c, d, hcd⟩ := exists_bounds_of_valid hY
    obtain ⟨ha, hb⟩ := ofFormat_of_bounds hab
    obtain ⟨hc, hd⟩ := ofFormat_of_bounds hcd
    rw [refAdd_of_valid mode hX hY hab hcd, refSub_of_valid mode hX hY hab hcd]
    exact ⟨outward_add_flags ha hb hc hd, outward_add_flags ha hb hd.neg hc.neg⟩
  · rw [ref_of_invalid mode h refAdd (by simp), ref_of_invalid mode h refSub (by simp)]
    have hNV : flagNV &&& (flagUF ||| flagDZ) = 0#5 := by decide
    exact ⟨hNV, hNV⟩

/-- Settles O42: an invalid operand has no bounds to compute with; rounding never raises `NV`, nor does the zero divisor's answer. -/
theorem invalidOperandGivesNaNBounds : Obligations.InvalidOperandGivesNaNBounds := by
  intro fmt mode X Y
  have hrounded : ∀ {z : Interval fmt × FlagSet}, (∃ lo hi, z = outward fmt lo hi) → z.2 &&& flagNV = 0#5 := by
    rintro _ ⟨lo, hi, rfl⟩
    exact (outward_invalid_free fmt lo hi).1
  refine ⟨ref_of_invalid mode, fun hX hY op hop => ?_⟩
  rcases (List.mem_append (s := [refAdd, refSub, refMul]) (t := [refDiv])).1 hop with h | h
  · exact hrounded (ref_of_valid mode hX hY op h)
  · obtain rfl := List.mem_singleton.1 h
    obtain ⟨-, h⟩ | ⟨-, h⟩ := refDiv_of_valid_cases mode hX hY
    · exact hrounded h
    · have hDZ : flagDZ &&& flagNV = 0#5 := by decide
      rw [h, hDZ]

end

/-! Division by an interval with zero (R155, R156), `DZ` under the reference numerics (R241), and the mode that reference
arithmetic does not read (R151 to R154). -/

namespace Sys2Proof.Machine

/-! ## Division by an interval with zero (R156) -/

section
variable {fmt : Fmt} {X Y : Interval fmt}

/-- The reference answer for a divisor with zero raises `DZ`, beside `NV` where the dividend is invalid. -/
theorem refDivByZeroInterval_flags (mode : Mode) (X Y : Interval fmt) :
    (refDivByZeroInterval fmt mode X Y).2 = flagDZ ∨ (refDivByZeroInterval fmt mode X Y).2 = flagNV ||| flagDZ := by
  unfold refDivByZeroInterval
  split
  · exact .inl rfl
  · exact .inr rfl

theorem refDivByZeroInterval_dz (mode : Mode) (X Y : Interval fmt) :
    (refDivByZeroInterval fmt mode X Y).2 &&& flagDZ ≠ 0#5 := by
  rcases refDivByZeroInterval_flags mode X Y with h | h <;> rw [h] <;> decide

/-- (P3) of R155 for every record that a configuration names. -/
theorem numFlagsZeroDivisor_numOf (c : NumChoice) : NumFlagsZeroDivisor (numOf c) := by
  intro fmt mode X Y _ hnone
  cases c with
  | reference => exact refDivByZeroInterval_dz mode X Y (hnone ▸ noFlags_and flagDZ)
  | implementation id => exact withFlag_ne_noFlags _ hnone

theorem divideDispatch_of_containsZero (n : Sys2Proof.Num) (mode : Mode) (h : containsZero Y = true) :
    divideDispatch n fmt mode X Y = n.divByZeroInterval fmt mode X Y := if_pos h

theorem divideDispatch_of_not_containsZero (n : Sys2Proof.Num) (mode : Mode) (h : containsZero Y = false) :
    divideDispatch n fmt mode X Y = n.intervalDiv fmt mode X Y := if_neg (by simp [h])

/-- An interval does not contain zero where it lies on one side of it, or has a NaN bound. -/
theorem containsZero_eq_false (h : ∀ c d, bounds Y = some (c, d) → ER.lt (.fin 0) c = true ∨ ER.lt d (.fin 0) = true) :
    containsZero Y = false := by
  cases hY : bounds Y with
  | none => rw [containsZero, hY]
  | some p => exact (containsZero_eq_false_iff hY).2 (h p.1 p.2 hY)

/-! ## Which reference functions raise `DZ` (R241) -/

theorem flagNV_and_flagDZ : flagNV &&& flagDZ = 0#5 := by decide

theorem ref_dz_free (mode : Mode) (X Y : Interval fmt) :
    ∀ op ∈ [refAdd, refSub, refMul], (op fmt mode X Y).2 &&& flagDZ = 0#5 := by
  intro op hop
  rcases valid_or_invalid X Y with ⟨hX, hY⟩ | h
  · obtain ⟨lo, hi, heq⟩ := ref_of_valid mode hX hY op hop
    rw [heq]
    exact (outward_invalid_free fmt lo hi).2
  · rw [ref_of_invalid mode h op (List.mem_append_left [refDiv] hop), invalidResult, flagNV_and_flagDZ]

theorem refDiv_dz_free (mode : Mode) (X : Interval fmt) (hz : containsZero Y = false) :
    (refDiv fmt mode X Y).2 &&& flagDZ = 0#5 := by
  rcases valid_or_invalid X Y with ⟨hX, hY⟩ | h
  · obtain ⟨-, lo, hi, heq⟩ | ⟨hz', -⟩ := refDiv_of_valid_cases mode hX hY
    · rw [heq]
      exact (outward_invalid_free fmt lo hi).2
    · exact absurd (hz.symm.trans hz') nofun
  · rw [ref_of_invalid mode h refDiv (by simp), invalidResult, flagNV_and_flagDZ]

theorem divideDispatch_dz_iff (mode : Mode) (X Y : Interval fmt) :
    (divideDispatch referenceNum fmt mode X Y).2 &&& flagDZ ≠ 0#5 ↔ containsZero Y = true := by
  cases hz : containsZero Y with
  | true =>
    rw [divideDispatch_of_containsZero _ mode hz]
    exact iff_of_true (refDivByZeroInterval_dz mode X Y) rfl
  | false =>
    rw [divideDispatch_of_not_containsZero _ mode hz]
    exact iff_of_false (not_not.2 (refDiv_dz_free mode X hz)) nofun

theorem invalidIf_dz_free (c : Bool) : invalidIf c &&& flagDZ = 0#5 := by cases c <;> decide

theorem fpAdd_dz_free (mode : Mode) (x y : Datum fmt) : (fpAdd fmt mode x y).2 &&& flagDZ = 0#5 := by
  by_cases hnan : isNaN x = true ∨ isNaN y = true
  · rw [fpAdd_of_isNaN mode hnan, invalidIf_dz_free]
  obtain ⟨hnx, hny⟩ : isNaN x = false ∧ isNaN y = false := by simpa using hnan
  rcases hx : valueOf x with p | s | ⟨s, a⟩
  · exact absurd (isNaN_of_nan hx) (by simp [hnx])
  · by_cases hopp : valueOf y = .inf (!s)
    · rw [fpAdd_of_opposite_inf mode hx hopp, flagNV_and_flagDZ]
    · rw [fpAdd_of_inf_left mode hx hny hopp, noFlags_and]
  · rcases hy : valueOf y with q | t | ⟨t, b⟩
    · exact absurd (isNaN_of_nan hy) (by simp [hny])
    · rw [fpAdd_of_num_inf mode hx hy, noFlags_and]
    · rw [fpAdd_of_num_num mode hx hy]
      split
      next => exact noFlags_and _
      next hne => exact (roundRat_invalid_free fmt mode hne).2

theorem fpSub_dz_free (mode : Mode) (x y : Datum fmt) : (fpSub fmt mode x y).2 &&& flagDZ = 0#5 := by
  unfold fpSub
  split <;> exact fpAdd_dz_free mode _ _

/-- Halving divides by two, never by zero (R171, R173). -/
theorem fpDiv_two_dz_free (mode : Mode) (x : Datum fmt) : (fpDiv fmt mode x (twoDatum fmt)).2 &&& flagDZ = 0#5 := by
  rcases hx : valueOf x with p | s | ⟨s, r⟩
  · rw [fpDiv_of_isNaN mode (.inl (isNaN_of_nan hx)), invalidIf_dz_free]
  · rw [fpDiv_of_inf_num mode hx (valueOf_twoDatum fmt), noFlags_and]
  · rw [fpDiv_two_of_num mode hx]
    split
    next => exact noFlags_and _
    next hne => exact (roundRat_invalid_free fmt mode (div_ne_zero hne two_ne_zero)).2

theorem refStatistical_dz_free (mode : Mode) (X : Interval fmt) :
    ∀ fn ∈ [refMid, refWdt, refRad, lowerCopy, upperCopy], (fn fmt mode X).2 &&& flagDZ = 0#5 := by
  simp only [List.mem_cons, List.not_mem_nil, or_false]
  rintro fn (rfl | rfl | rfl | rfl | rfl)
  · exact flagUnion_and_eq_zero (fpAdd_dz_free mode _ _) (fpDiv_two_dz_free mode _)
  · exact fpSub_dz_free mode _ _
  · exact flagUnion_and_eq_zero (fpSub_dz_free mode _ _) (fpDiv_two_dz_free mode _)
  · exact noFlags_and _
  · exact noFlags_and _

theorem refRelation_dz_free (X Y : Interval fmt) :
    ∀ rel ∈ [refBefore, refMeets, refOverlaps, refDuring, refStarts, refFinishes, refEqual],
      (rel fmt X Y).2 &&& flagDZ = 0#5 := by
  intro rel hrel
  obtain ⟨h | h, -⟩ := referenceRelationFlags fmt X Y rel hrel
  · rw [h, noFlags_and]
  · rw [h, flagNV_and_flagDZ]

end

/-! ## `DZ` on the machine (R37, R241) -/

section
variable {s t : State} {fmt : Fmt} {word : InstrWord} {rd rs1 rs2 : Reg} {rm : Rm} (hclear : s.fflags &&& flagDZ = 0#5)
include hclear

/-- Where `DZ` was clear, it is set after an accrual exactly where it is accrued. -/
theorem accrued_dz (fl : FlagSet) : (s.fflags ||| fl) &&& flagDZ = fl &&& flagDZ := by
  rw [BitVec.and_comm, BitVec.and_or_distrib_left, BitVec.and_comm _ s.fflags, hclear, BitVec.and_comm _ fl]
  exact BitVec.zero_or

theorem arithmetic_dz {op : Mode → Interval fmt → Interval fmt → Interval fmt × FlagSet}
    (h : arithmetic word fmt op rd rs1 rs2 rm s = .next t) :
    ∃ mode, t.fflags &&& flagDZ = (op mode (readInterval s fmt rs1) (readInterval s fmt rs2)).2 &&& flagDZ := by
  obtain ⟨-, -, mode, -, rfl⟩ := arithmetic_eq_next.1 h
  refine ⟨mode, ?_⟩
  rw [advancePc_fflags, accrueFlags_fflags, writeInterval_fflags, accrued_dz hclear]

/-- `INTDIV` raises `DZ` exactly for a divisor with zero. -/
theorem division_dz_iff (hnum : numOf s.cfg.num = referenceNum)
    (h : arithmetic word fmt (divideDispatch (numOf s.cfg.num) fmt) rd rs1 rs2 rm s = .next t) :
    t.fflags &&& flagDZ ≠ 0#5 ↔ containsZero (readInterval s fmt rs2) = true := by
  obtain ⟨mode, hdz⟩ := arithmetic_dz hclear h
  rw [hdz, hnum, divideDispatch_dz_iff]

theorem statistical_dz {fn : Mode → Interval fmt → Datum fmt × FlagSet}
    (h : statistical word fmt fn rd rs1 rm s = .next t) :
    ∃ mode, t.fflags &&& flagDZ = (fn mode (readInterval s fmt rs1)).2 &&& flagDZ := by
  obtain ⟨-, -, mode, -, rfl⟩ := statistical_eq_next.1 h
  refine ⟨mode, ?_⟩
  rw [advancePc_fflags, accrueFlags_fflags, writeScalar_fflags, accrued_dz hclear]

theorem temporal_dz {rel : Interval fmt → Interval fmt → Bool × FlagSet}
    (h : temporal word fmt rel rd rs1 rs2 s = .next t) :
    t.fflags &&& flagDZ = (rel (readInterval s fmt rs1) (readInterval s fmt rs2)).2 &&& flagDZ := by
  obtain ⟨-, -, rfl⟩ := temporal_eq_next.1 h
  rw [advancePc_fflags, accrueFlags_fflags, writeBool_fflags, accrued_dz hclear]

end

/-! ## The rounding mode plays no part (R151 to R154) -/

/-- The arithmetic of a numerics record, the dispatch on the divisor included, is the same in every mode. -/
structure IgnoresMode (n : Sys2Proof.Num) : Prop where
  add : ∀ fmt m m' X Y, n.intervalAdd fmt m X Y = n.intervalAdd fmt m' X Y
  sub : ∀ fmt m m' X Y, n.intervalSub fmt m X Y = n.intervalSub fmt m' X Y
  mul : ∀ fmt m m' X Y, n.intervalMul fmt m X Y = n.intervalMul fmt m' X Y
  div : ∀ fmt m m' X Y, divideDispatch n fmt m X Y = divideDispatch n fmt m' X Y

theorem ignoresMode_referenceNum : IgnoresMode referenceNum where
  add _ _ _ _ _ := rfl
  sub _ _ _ _ _ := rfl
  mul _ _ _ _ _ := rfl
  div _ _ _ _ _ := rfl

/-- An operation that is the same in every mode gives the same next state under another `rm` field that names a mode. -/
theorem arithmetic_next_of_mode_free {s t : State} {fmt : Fmt} {word word' : InstrWord} {rd rs1 rs2 : Reg} {rm rm' : Rm}
    {mode' : Mode} {op : Mode → Interval fmt → Interval fmt → Interval fmt × FlagSet}
    (hop : ∀ m m' X Y, op m X Y = op m' X Y) (hmode' : ModeInForce rm' s.frm mode')
    (h : arithmetic word fmt op rd rs1 rs2 rm s = .next t) : arithmetic word' fmt op rd rs1 rs2 rm' s = .next t := by
  obtain ⟨hfmt, hpair, mode, -, rfl⟩ := arithmetic_eq_next.1 h
  exact arithmetic_eq_next.2 ⟨hfmt, hpair, mode', effRm_eq_some_iff.2 hmode', by rw [hop mode mode']⟩

theorem numOf_of_reference {c : NumChoice} (h : c = .reference) : numOf c = referenceNum := by rw [h]; rfl

end Sys2Proof.Machine

section
open Sys2Proof Sys2Proof.Machine

/-- Settles O58: of the reference functions only the answer for a divisor with zero raises `DZ`, and that one always. -/
theorem divideByZeroFlagOnlyFromDivision : Obligations.DivideByZeroFlagOnlyFromDivision := by
  intro i s t hnum hi h hclear
  have hn := numOf_of_reference hnum
  cases i with
  | intdivH rd rs1 rs2 rm =>
    refine (division_dz_iff hclear hn h).trans ⟨fun hz => ⟨rd, rs1, rs2, rm, .inl ⟨rfl, hz⟩⟩, ?_⟩
    rintro ⟨_, _, _, _, ⟨⟨⟩, hz⟩ | ⟨⟨⟩, -⟩⟩
    exact hz
  | intdivS rd rs1 rs2 rm =>
    refine (division_dz_iff hclear hn h).trans ⟨fun hz => ⟨rd, rs1, rs2, rm, .inr ⟨rfl, hz⟩⟩, ?_⟩
    rintro ⟨_, _, _, _, ⟨⟨⟩, -⟩ | ⟨⟨⟩, hz⟩⟩
    exact hz
  | intaddH | intaddS | intsubH | intsubS | intmulH | intmulS =>
    obtain ⟨mode, hdz⟩ := arithmetic_dz hclear h
    refine iff_of_false (not_not.2 ?_) (by simp)
    rw [hdz, hn]
    exact ref_dz_free mode _ _ _ (by simp [referenceNum])
  | intmidH | intmidS | intwdtH | intwdtS | intradH | intradS =>
    obtain ⟨mode, hdz⟩ := statistical_dz hclear h
    refine iff_of_false (not_not.2 ?_) (by simp)
    rw [hdz, hn]
    exact refStatistical_dz_free mode _ _ (by simp [referenceNum])
  | intminH | intminS | intmaxH | intmaxS =>
    obtain ⟨mode, hdz⟩ := statistical_dz hclear h
    refine iff_of_false (not_not.2 ?_) (by simp)
    rw [hdz]
    exact refStatistical_dz_free mode _ _ (by simp)
  | intbfrH | intmtsH | intovrH | intdurH | intstrH | intfinH | inteqlH
  | intbfrS | intmtsS | intovrS | intdurS | intstrS | intfinS | inteqlS =>
    refine iff_of_false (not_not.2 ?_) (by simp)
    rw [temporal_dz hclear h, hn]
    exact refRelation_dz_free _ _ _ (by simp [referenceNum])
  | csrrw | csrrs | csrrc | csrrwi | csrrsi | csrrci => exact absurd rfl hi

/-- Settles O59: no reference operation reads the mode, so any two fields that name a mode give the same state. -/
theorem arithmeticIgnoresTheRoundingMode : Obligations.ArithmeticIgnoresTheRoundingMode := by
  intro s rd rs1 rs2 rm rm' mode mode' hnum _ hmode'
  have hfree : IgnoresMode (numOf s.cfg.num) := numOf_of_reference hnum ▸ ignoresMode_referenceNum
  exact ⟨fun _ => arithmetic_next_of_mode_free (hfree.add .h) hmode', fun _ => arithmetic_next_of_mode_free (hfree.add .s) hmode',
    fun _ => arithmetic_next_of_mode_free (hfree.sub .h) hmode', fun _ => arithmetic_next_of_mode_free (hfree.sub .s) hmode',
    fun _ => arithmetic_next_of_mode_free (hfree.mul .h) hmode', fun _ => arithmetic_next_of_mode_free (hfree.mul .s) hmode',
    fun _ => arithmetic_next_of_mode_free (hfree.div .h) hmode', fun _ => arithmetic_next_of_mode_free (hfree.div .s) hmode'⟩

/-- Settles O43: the dispatch asks `containsZero` of the divisor alone; the answers raise `DZ`, or the flag (P3) keeps. -/
theorem divisionByAnIntervalWithZero : Obligations.DivisionByAnIntervalWithZero := by
  intro fmt mode X Y
  refine ⟨fun n c d hY hc hd => ?_, fun n h => ?_, fun hX => if_pos hX, fun hX => if_neg (by simp [hX]), fun c hz => ?_⟩
  · exact divideDispatch_of_containsZero n mode (by rw [containsZero_of_bounds hY, hc, hd]; rfl)
  · exact divideDispatch_of_not_containsZero n mode (containsZero_eq_false h)
  · rw [divideDispatch_of_containsZero _ mode hz]
    exact numFlagsZeroDivisor_numOf c fmt mode X Y hz

/-- Settles O4: each word is the encoding of its instruction, which decodes to it. -/
theorem exampleWordsDecode : Obligations.ExampleWordsDecode :=
  ⟨decode_encode (.intaddS 3 1 2 .dyn), decode_encode (.intdivH 3 1 2 .rne), decode_encode (.intmidH 3 1 .rne),
    decode_encode (.intbfrH 5 1 2), decode_encode (.csrrc 5 0x001 7), decode_encode (.csrrwi 0 0x002 2)⟩

end

/-! The statistical instructions (R170, R174, R176 to R185): the registers and the rest of the state after a scalar result. -/

namespace Sys2Proof.Machine

/-! ## Where a scalar result is stored (R29, R32) -/

section
variable {s t : State} {fmt : Fmt} {rd : Reg} {v : Datum fmt}

theorem storesScalar_iff_of_f {flen : Width} (h : s.cfg.regfile = .f flen) :
    StoresScalar s t fmt rd v ↔ WritesF s t rd (fImageOfScalar fmt flen v) ∧ KeepsX s t := by
  simp [StoresScalar, h]

theorem storesScalar_iff_of_x (h : s.cfg.regfile = .x) :
    StoresScalar s t fmt rd v ↔ WritesX s t rd (xImageOfScalar fmt s.cfg.xlen v) ∧ KeepsF s t := by
  simp [StoresScalar, h]

theorem writeScalar_of_x (h : s.cfg.regfile = .x) (fmt : Fmt) (rd : Reg) (v : Datum fmt) :
    writeScalar s fmt rd v = writeX s rd (v.signExtend 64) := by
  simp [writeScalar, h]

/-- A written scalar stands in one register of the source's file, as R29 lays it out, and the other file is unchanged. -/
theorem storesScalar_writeScalar (hlegal : s.cfg.legal = true) (hfmt : formatImplemented s.cfg fmt = true) (rd : Reg)
    (v : Datum fmt) : StoresScalar s (writeScalar s fmt rd v) fmt rd v := by
  cases hregs : s.cfg.regfile with
  | f flen =>
    have hs : fmt = .s → flen = .w64 := by
      rintro rfl
      exact flen_eq_w64_of_single hlegal hregs hfmt
    rw [storesScalar_iff_of_f hregs, writeScalar_of_f hregs]
    exact ⟨fun r => by rw [readF_writeF hregs, truncTo_nanBox_datum fmt flen v hs], fun r => readX_writeF ..⟩
  | x =>
    rw [storesScalar_iff_of_x hregs, writeScalar_of_x hregs]
    exact ⟨fun r => by rw [readX_writeX, truncTo_signExtend_datum], fun r => readF_writeX ..⟩

end

/-! ## The result of a statistical instruction (R170) -/

section
variable {s t : State} {rd rs1 : Reg} {rm : Rm} {mode : Mode} {fmt : Fmt} {word : InstrWord}
  {fn : Mode → Interval fmt → Datum fmt × FlagSet} {i : Instr} (hexec : exec i s = statistical word fmt fn rd rs1 rm s)
include hexec

/-- A statistical instruction that completes has a mode in force, whether or not its function reads it (R174). -/
theorem exists_modeInForce_of_exec_statistical (h : exec i s = .next t) : ∃ mode, ModeInForce rm s.frm mode := by
  obtain ⟨-, -, mode, hmode, -⟩ := statistical_eq_next.1 (hexec ▸ h)
  exact ⟨mode, effRm_eq_some_iff.1 hmode⟩

/-- Where a statistical instruction is not reserved it completes, stores the function's scalar and accrues its flags. -/
theorem exec_statistical_result (hi : formatOf i ≠ none) (hlegal : s.cfg.legal = true) (hmode : ModeInForce rm s.frm mode)
    (h : ¬ ReservedHere s i) :
    ∃ t, exec i s = .next t ∧ StoresScalar s t fmt rd (fn mode (readInterval s fmt rs1)).1 ∧
      Completes s t (fn mode (readInterval s fmt rs1)).2 := by
  obtain ⟨t, ht⟩ := (exec_completes_iff hi s).2 h
  obtain ⟨hfmt, -, m, hm, rfl⟩ := statistical_eq_next.1 (hexec ▸ ht)
  obtain rfl : m = mode := Option.some.inj (hm.symm.trans (effRm_eq_some_iff.2 hmode))
  refine ⟨_, ht, ?_, ?_⟩
  · exact storesScalar_writeScalar hlegal hfmt rd _
  · exact completes_of_result (writeScalar_cfg ..) (writeScalar_pc ..) (writeScalar_fflags ..) (writeScalar_frm ..)
      (writeScalar_mem ..)

/-- A function that takes the same bound in every mode, with no flag, is a bit copy wherever the instruction is not reserved. -/
theorem exec_statistical_copy {bound : Interval fmt → Datum fmt} (hcopy : ∀ mode X, fn mode X = (bound X, noFlags))
    (hi : formatOf i ≠ none) (hlegal : s.cfg.legal = true) (h : ¬ ReservedHere s i) :
    ∃ t, exec i s = .next t ∧ StoresScalar s t fmt rd (bound (readInterval s fmt rs1)) ∧ Completes s t 0#5 := by
  obtain ⟨_, hnext⟩ := (exec_completes_iff hi s).2 h
  obtain ⟨mode, hmode⟩ := exists_modeInForce_of_exec_statistical hexec hnext
  have hresult := exec_statistical_result hexec hi hlegal hmode h
  rwa [hcopy] at hresult

/-- Without a mode in force a statistical instruction does not complete. -/
theorem exec_statistical_ne_next (hmode : ∀ mode, ¬ ModeInForce rm s.frm mode) (t : State) : exec i s ≠ .next t := fun h =>
  have ⟨mode, hm⟩ := exists_modeInForce_of_exec_statistical hexec h
  hmode mode hm

end

end Sys2Proof.Machine

section
open Sys2Proof Sys2Proof.Machine

/-- Settles O20: the shared result of the family, with the record's midpoint, width and radius. -/
theorem midWdtRadResult : Obligations.MidWdtRadResult := by
  intro s rd rs1 rm mode hlegal hmode
  exact ⟨exec_statistical_result (exec_intmidH ..) nofun hlegal hmode, exec_statistical_result (exec_intmidS ..) nofun hlegal hmode,
    exec_statistical_result (exec_intwdtH ..) nofun hlegal hmode, exec_statistical_result (exec_intwdtS ..) nofun hlegal hmode,
    exec_statistical_result (exec_intradH ..) nofun hlegal hmode, exec_statistical_result (exec_intradS ..) nofun hlegal hmode⟩

/-- Settles O21: a copy ignores the mode, which the family's checks still ask for. -/
theorem minMaxCopyABound : Obligations.MinMaxCopyABound := by
  intro s rd rs1 rm hlegal
  refine ⟨exec_statistical_copy (exec_intminH ..) (fun _ _ => rfl) nofun hlegal,
    exec_statistical_copy (exec_intminS ..) (fun _ _ => rfl) nofun hlegal,
    exec_statistical_copy (exec_intmaxH ..) (fun _ _ => rfl) nofun hlegal,
    exec_statistical_copy (exec_intmaxS ..) (fun _ _ => rfl) nofun hlegal, fun hmode => ?_⟩
  exact ⟨exec_statistical_ne_next (exec_intminH ..) hmode, exec_statistical_ne_next (exec_intminS ..) hmode,
    exec_statistical_ne_next (exec_intmaxH ..) hmode, exec_statistical_ne_next (exec_intmaxS ..) hmode⟩

end

/-! The width (R116, R172): a datum with its sign inverted, a difference by the kinds of its operands, and its flags. -/

namespace Sys2Proof.Machine

/-! ## A datum with its sign inverted (R111, R116) -/

/-- What a datum is once its sign bit is inverted. -/
def Value.neg : Value → Value
  | .nan signaling => .nan signaling
  | .inf negative => .inf (!negative)
  | .num negative r => .num (!negative) (-r)

section
variable {fmt : Fmt}

theorem negateDatum_toNat (v : Datum fmt) : (negateDatum v).toNat = v.toNat ^^^ 2 ^ (expWidth fmt + fracWidth fmt) := by
  have hlt : 2 ^ (expWidth fmt + fracWidth fmt) < 2 ^ fmt.w := Nat.pow_lt_pow_right (by decide) (by rw [width_eq]; omega)
  rw [negateDatum, BitVec.toNat_xor, BitVec.toNat_ofNat, Nat.mod_eq_of_lt hlt]

theorem signOf_negateDatum (v : Datum fmt) : signOf (negateDatum v) = !signOf v := by
  have hmsb : (BitVec.ofNat fmt.w (2 ^ (expWidth fmt + fracWidth fmt))).msb = true := by cases fmt <;> decide
  rw [signOf, negateDatum, BitVec.msb_xor, hmsb, Bool.xor_true, signOf]

theorem expOf_negateDatum (v : Datum fmt) : expOf (negateDatum v) = expOf v := by
  rw [expOf, negateDatum_toNat, ← Nat.shiftRight_eq_div_pow, Nat.shiftRight_xor_distrib, Nat.xor_mod_two_pow,
    Nat.shiftRight_eq_div_pow, Nat.shiftRight_eq_div_pow, Nat.pow_add, Nat.mul_div_cancel _ (by positivity), Nat.mod_self,
    Nat.xor_zero, expOf]

theorem fracOf_negateDatum (v : Datum fmt) : fracOf (negateDatum v) = fracOf v := by
  rw [fracOf, negateDatum_toNat, Nat.xor_mod_two_pow, Nat.pow_add, Nat.mul_mod_left, Nat.xor_zero, fracOf]

theorem signFactor_not (negative : Bool) : signFactor (!negative) = -signFactor negative := by cases negative <;> rfl

theorem valueOf_negateDatum (v : Datum fmt) : valueOf (negateDatum v) = (valueOf v).neg := by
  simp only [valueOf, signOf_negateDatum, expOf_negateDatum, fracOf_negateDatum, signFactor_not, neg_mul]
  split_ifs <;> rfl

theorem valueOf_negateDatum_of_inf {v : Datum fmt} {s : Bool} (h : valueOf v = .inf s) :
    valueOf (negateDatum v) = .inf (!s) := by rw [valueOf_negateDatum, h, Value.neg]

theorem valueOf_negateDatum_of_num {v : Datum fmt} {s : Bool} {r : Rat} (h : valueOf v = .num s r) :
    valueOf (negateDatum v) = .num (!s) (-r) := by rw [valueOf_negateDatum, h, Value.neg]

theorem isNaN_negateDatum (v : Datum fmt) : isNaN (negateDatum v) = isNaN v := by
  rw [isNaN, isNaN, valueOf_negateDatum]
  cases valueOf v <;> rfl

end

/-! ## `fp_sub` by the kinds of its operands (R116) -/

section
variable {fmt : Fmt} {x y : Datum fmt} {s t : Bool} {a b : Rat}

theorem isNaN_of_inf (h : valueOf x = .inf s) : isNaN x = false := isNaN_eq_false_of_erOf (erOf_of_inf h)

theorem fpSub_of_not_isNaN_right (mode : Mode) (h : isNaN y = false) : fpSub fmt mode x y = fpAdd fmt mode x (negateDatum y) :=
  if_neg (by simp [h])

theorem fpSub_of_isNaN (mode : Mode) (h : isNaN x = true ∨ isNaN y = true) :
    fpSub fmt mode x y = (canonicalNaN fmt, invalidIf (isSignaling x || isSignaling y)) := by
  cases hy : isNaN y with
  | true => rw [fpSub, if_pos hy, fpAdd_of_isNaN mode h]
  | false =>
    have hx : isNaN x = true := h.resolve_right (by simp [hy])
    rw [fpSub_of_not_isNaN_right mode hy, fpAdd_of_isNaN mode (.inl hx), isSignaling_of_not_isNaN hy,
      isSignaling_of_not_isNaN ((isNaN_negateDatum y).trans hy)]

/-- The signs of zeros: `x - y` is `x + (-y)`, so the zeros of opposite signs are those that add as zeros of one sign. -/
theorem fpSub_of_num_num (mode : Mode) (hx : valueOf x = .num s a) (hy : valueOf y = .num t b) :
    fpSub fmt mode x y =
      if a = b then (zeroDatum fmt (if a = 0 ∧ s ≠ t then s else mode == .rdn), noFlags)
      else roundRat fmt mode (a - b) := by
  rw [fpSub_of_not_isNaN_right mode (isNaN_of_num hy), fpAdd_of_num_num mode hx (valueOf_negateDatum_of_num hy)]
  simp only [← sub_eq_add_neg, sub_eq_zero, Bool.eq_not, ne_eq]

theorem fpSub_of_inf_left (mode : Mode) (hx : valueOf x = .inf s) (hy : isNaN y = false) (hne : valueOf y ≠ .inf s) :
    fpSub fmt mode x y = (x, noFlags) := by
  rw [fpSub_of_not_isNaN_right mode hy]
  refine fpAdd_of_inf_left mode hx ((isNaN_negateDatum y).trans hy) fun h => hne ?_
  rw [valueOf_negateDatum] at h
  cases hv : valueOf y <;> simp_all [Value.neg]

theorem fpSub_of_num_inf (mode : Mode) (hx : valueOf x = .num s a) (hy : valueOf y = .inf t) :
    fpSub fmt mode x y = (negateDatum y, noFlags) := by
  rw [fpSub_of_not_isNaN_right mode (isNaN_of_inf hy), fpAdd_of_num_inf mode hx (valueOf_negateDatum_of_inf hy)]

theorem fpSub_of_same_inf (mode : Mode) (hx : valueOf x = .inf s) (hy : valueOf y = .inf s) :
    fpSub fmt mode x y = (canonicalNaN fmt, flagNV) := by
  rw [fpSub_of_not_isNaN_right mode (isNaN_of_inf hy), fpAdd_of_opposite_inf mode hx (valueOf_negateDatum_of_inf hy)]

/-! ## The flags of a difference (R116, R172) -/

/-- The kinds of the two operands that R116 tells apart for a difference. -/
inductive DifferenceKinds (x y : Datum fmt) : Prop where
  | nan (h : isNaN x = true ∨ isNaN y = true)
  | sameInf (s : Bool) (hx : valueOf x = .inf s) (hy : valueOf y = .inf s)
  | infLeft (s : Bool) (hx : valueOf x = .inf s) (hy : isNaN y = false) (hne : valueOf y ≠ .inf s)
  | numInf (s t : Bool) (a : Rat) (hx : valueOf x = .num s a) (hy : valueOf y = .inf t)
  | numNum (s t : Bool) (a b : Rat) (hx : valueOf x = .num s a) (hy : valueOf y = .num t b)

theorem differenceKinds (x y : Datum fmt) : DifferenceKinds x y := by
  cases hny : isNaN y with
  | true => exact .nan (.inr hny)
  | false =>
    rcases hx : valueOf x with p | s | ⟨s, a⟩
    · exact .nan (.inl (isNaN_of_nan hx))
    · by_cases hy : valueOf y = .inf s
      · exact .sameInf s hx hy
      · exact .infLeft s hx hny hy
    · rcases hy : valueOf y with q | t | ⟨t, b⟩
      · exact .nan (.inr (isNaN_of_nan hy))
      · exact .numInf s t a hx hy
      · exact .numNum s t a b hx hy

theorem invalidIf_uf_free (c : Bool) : invalidIf c &&& flagUF = 0#5 := by cases c <;> decide

theorem invalidIf_nv_iff (c : Bool) : invalidIf c &&& flagNV ≠ 0#5 ↔ c = true := by cases c <;> decide

/-- A difference of two numbers of the format is exact where it is subnormal. -/
theorem fpSub_uf_free (mode : Mode) (x y : Datum fmt) : (fpSub fmt mode x y).2 &&& flagUF = 0#5 := by
  cases differenceKinds x y with
  | nan h => rw [fpSub_of_isNaN mode h, invalidIf_uf_free]
  | sameInf s hx hy =>
    rw [fpSub_of_same_inf mode hx hy]
    exact (by decide : flagNV &&& flagUF = 0#5)
  | infLeft s hx hy hne => rw [fpSub_of_inf_left mode hx hy hne, noFlags_and]
  | numInf s t a hx hy => rw [fpSub_of_num_inf mode hx hy, noFlags_and]
  | numNum s t a b hx hy =>
    rw [fpSub_of_num_num mode hx hy]
    split
    next => exact noFlags_and _
    next hne =>
      have ha : Representable fmt |a| := representable_abs_of_fin (erOf_of_num hx)
      have hb : Representable fmt |-b| := abs_neg b ▸ representable_abs_of_fin (erOf_of_num hy)
      rw [sub_eq_add_neg]
      exact roundRat_add_not_tiny mode ha hb (sub_eq_add_neg a b ▸ sub_ne_zero.2 hne)

theorem fpSub_nv_iff (mode : Mode) (x y : Datum fmt) : (fpSub fmt mode x y).2 &&& flagNV ≠ 0#5 ↔
    isSignaling x = true ∨ isSignaling y = true ∨ ∃ s, valueOf x = .inf s ∧ valueOf y = .inf s := by
  cases differenceKinds x y with
  | nan h =>
    have hinf : ¬ ∃ s, valueOf x = .inf s ∧ valueOf y = .inf s := by
      rintro ⟨s, hx, hy⟩
      simp [isNaN_of_inf hx, isNaN_of_inf hy] at h
    rw [fpSub_of_isNaN mode h, invalidIf_nv_iff, Bool.or_eq_true, or_iff_left hinf]
  | sameInf s hx hy =>
    rw [fpSub_of_same_inf mode hx hy]
    exact iff_of_true (by decide : flagNV &&& flagNV ≠ 0#5) (.inr (.inr ⟨s, hx, hy⟩))
  | infLeft s hx hy hne =>
    rw [fpSub_of_inf_left mode hx hy hne]
    refine iff_of_false (not_not.2 (noFlags_and _)) ?_
    simp [isSignaling_of_not_isNaN (isNaN_of_inf hx), isSignaling_of_not_isNaN hy, hx, hne]
  | numInf s t a hx hy =>
    rw [fpSub_of_num_inf mode hx hy]
    refine iff_of_false (not_not.2 (noFlags_and _)) ?_
    simp [isSignaling_of_not_isNaN (isNaN_of_num hx), isSignaling_of_not_isNaN (isNaN_of_inf hy), hx]
  | numNum s t a b hx hy =>
    have hflags : (fpSub fmt mode x y).2 &&& flagNV = 0#5 := by
      rw [fpSub_of_num_num mode hx hy]
      split
      next => exact noFlags_and _
      next hne => exact (roundRat_invalid_free fmt mode (sub_ne_zero.2 hne)).1
    refine iff_of_false (not_not.2 hflags) ?_
    simp [isSignaling_of_not_isNaN (isNaN_of_num hx), isSignaling_of_not_isNaN (isNaN_of_num hy), hx]

theorem fpSub_self_of_num (mode : Mode) (hx : valueOf x = .num s a) :
    fpSub fmt mode x x = (zeroDatum fmt (mode == .rdn), noFlags) := by
  simp [fpSub_of_num_num mode hx hx]

end

end Sys2Proof.Machine

section
open Sys2Proof Sys2Proof.Machine

/-- Settles O45: the width is one `fp_sub`, so each clause is that operation's on operands of the kinds it names. -/
theorem widthOfAnInterval : Obligations.WidthOfAnInterval := by
  intro fmt mode
  refine ⟨fun X => ⟨rfl, ?_, fpSub_nv_iff mode _ _⟩, ?_, fun v s r hv => fpSub_self_of_num mode hv, fun X => ?_⟩
  · rw [refWdt, BitVec.and_or_distrib_left, fpSub_uf_free, fpSub_dz_free]
    rfl
  · have hne : valueOf (infDatum fmt true) ≠ .inf false := by simp [valueOf_infDatum]
    exact fpSub_of_inf_left mode (valueOf_infDatum fmt false) (isNaN_infDatum fmt true) hne
  · refine ⟨fun s t h l => fpSub_of_num_num mode, fun s => fpSub_of_inf_left mode, fun s t h hhi hlo => ?_,
      fun s => fpSub_of_same_inf mode, fun h => ?_⟩
    · rw [refWdt, fpSub_of_num_inf mode hhi hlo]
      refine ⟨rfl, ?_⟩
      rw [erOf_of_inf (valueOf_negateDatum_of_inf hlo)]
      cases t <;> rfl
    · rw [refWdt, fpSub_of_isNaN mode h, invalidIf_or]

end

/-! The temporal logic instructions (R190, R198 to R211): the registers and the rest of the state after a boolean result. -/

namespace Sys2Proof.Machine

/-! ## Where a boolean result is stored (R34) -/

theorem truncTo_bit (w : Width) (b : Bool) : truncTo w (if b then 1#64 else 0#64) = if b then 1#64 else 0#64 := by
  cases w <;> cases b <;> rfl

/-- A written bit stands in an `x` register under both register files, and no `f` register changes. -/
theorem storesBool_writeBool (s : State) (rd : Reg) (b : Bool) : StoresBool s (writeBool s rd b) rd b :=
  ⟨fun r => by rw [writeBool, readX_writeX, truncTo_bit], fun r => readF_writeX ..⟩

/-! ## The result of a temporal instruction (R190) -/

/-- Where a temporal instruction is not reserved it completes, stores the relation's bit and accrues its flags. -/
theorem exec_temporal_result {s : State} {i : Instr} {word : InstrWord} {fmt : Fmt} {rd rs1 rs2 : Reg}
    {rel : Interval fmt → Interval fmt → Bool × FlagSet} (hexec : exec i s = temporal word fmt rel rd rs1 rs2 s)
    (hi : formatOf i ≠ none) (h : ¬ ReservedHere s i) :
    ∃ t, exec i s = .next t ∧ StoresBool s t rd (rel (readInterval s fmt rs1) (readInterval s fmt rs2)).1 ∧
      Completes s t (rel (readInterval s fmt rs1) (readInterval s fmt rs2)).2 := by
  obtain ⟨t, ht⟩ := (exec_completes_iff hi s).2 h
  obtain ⟨-, -, rfl⟩ := temporal_eq_next.1 (hexec ▸ ht)
  refine ⟨_, ht, ?_, ?_⟩
  · exact storesBool_writeBool s rd _
  · exact completes_of_result (writeBool_cfg ..) (writeBool_pc ..) (writeBool_fflags ..) (writeBool_frm ..) (writeBool_mem ..)

end Sys2Proof.Machine

section
open Sys2Proof Sys2Proof.Machine

/-- Settles O22: the shared result of the family, with the record's "before" and "meets". -/
theorem beforeMeetsResult : Obligations.BeforeMeetsResult := by
  intro s rd rs1 rs2 _
  exact ⟨exec_temporal_result (exec_intbfrH ..) nofun, exec_temporal_result (exec_intbfrS ..) nofun,
    exec_temporal_result (exec_intmtsH ..) nofun, exec_temporal_result (exec_intmtsS ..) nofun⟩

/-- Settles O23: the shared result of the family, with the record's "overlaps" and "during". -/
theorem overlapsDuringResult : Obligations.OverlapsDuringResult := by
  intro s rd rs1 rs2 _
  exact ⟨exec_temporal_result (exec_intovrH ..) nofun, exec_temporal_result (exec_intovrS ..) nofun,
    exec_temporal_result (exec_intdurH ..) nofun, exec_temporal_result (exec_intdurS ..) nofun⟩

/-- Settles O24: the shared result of the family, with the record's "starts", "finishes" and "equal". -/
theorem startsFinishesEqualResult : Obligations.StartsFinishesEqualResult := by
  intro s rd rs1 rs2 _
  exact ⟨exec_temporal_result (exec_intstrH ..) nofun, exec_temporal_result (exec_intstrS ..) nofun,
    exec_temporal_result (exec_intfinH ..) nofun, exec_temporal_result (exec_intfinS ..) nofun,
    exec_temporal_result (exec_inteqlH ..) nofun, exec_temporal_result (exec_inteqlS ..) nofun⟩

end

/-! The reference relations (R191 to R197): their bits on the values of the bounds, and Allen's thirteen relations in a linear
order. -/

namespace Sys2Proof.Machine

/-! ## The comparisons of bounds (R118, R119) -/

theorem ER.lt_eq_decide (a b : ER) : ER.lt a b = decide (a.toEReal < b.toEReal) := by
  rw [Bool.eq_iff_iff, ER.lt_iff, decide_eq_true_iff]

theorem ER.decide_eq_toEReal (a b : ER) : decide (a = b) = decide (a.toEReal = b.toEReal) := by
  rw [Bool.eq_iff_iff, decide_eq_true_iff, decide_eq_true_iff, ER.toEReal_injective.eq_iff]

theorem ER.lt_asymm {a b : ER} (h : ER.lt a b = true) : ¬ ER.lt b a = true := fun h' =>
  (ER.lt_iff.1 h).not_gt (ER.lt_iff.1 h')

theorem fpLt_asymm {fmt : Fmt} {x y : Datum fmt} (h : (fpLt fmt x y).1 = true) : ¬ (fpLt fmt y x).1 = true := by
  by_cases hnan : isNaN x = true ∨ isNaN y = true
  · rw [fpLt_of_isNaN hnan] at h
    cases h
  · obtain ⟨a, b, ha, hb⟩ := exists_erOf_of_not_isNaN hnan
    rw [fpLt_of_erOf ha hb] at h
    rw [fpLt_of_erOf hb ha]
    exact ER.lt_asymm h

/-! ## The bits of the relations on the values of the bounds (R191 to R197) -/

section
variable {fmt : Fmt} {X Y : Interval fmt} {a b c d : ER}

theorem andAlso_fst (p q : Bool × FlagSet) : (andAlso p q).1 = (p.1 && q.1) := rfl

variable (hX : bounds X = some (a, b)) (hY : bounds Y = some (c, d))
include hX hY

theorem refBefore_of_bounds : (refBefore fmt X Y).1 = ER.lt b c := by
  obtain ⟨-, hb⟩ := bounds_eq_some_iff.1 hX
  obtain ⟨hc, -⟩ := bounds_eq_some_iff.1 hY
  rw [refBefore, fpLt_of_erOf hb hc]

theorem refMeets_of_bounds : (refMeets fmt X Y).1 = decide (b = c) := by
  obtain ⟨-, hb⟩ := bounds_eq_some_iff.1 hX
  obtain ⟨hc, -⟩ := bounds_eq_some_iff.1 hY
  rw [refMeets, fpEq_of_erOf hb hc]

theorem refOverlaps_of_bounds : (refOverlaps fmt X Y).1 = (ER.lt a c && ER.lt c b && ER.lt b d) := by
  obtain ⟨ha, hb⟩ := bounds_eq_some_iff.1 hX
  obtain ⟨hc, hd⟩ := bounds_eq_some_iff.1 hY
  rw [refOverlaps, andAlso_fst, andAlso_fst, fpLt_of_erOf ha hc, fpLt_of_erOf hc hb, fpLt_of_erOf hb hd]

theorem refDuring_of_bounds : (refDuring fmt X Y).1 = (ER.lt c a && ER.lt b d) := by
  obtain ⟨ha, hb⟩ := bounds_eq_some_iff.1 hX
  obtain ⟨hc, hd⟩ := bounds_eq_some_iff.1 hY
  rw [refDuring, andAlso_fst, fpLt_of_erOf hc ha, fpLt_of_erOf hb hd]

theorem refStarts_of_bounds : (refStarts fmt X Y).1 = (decide (a = c) && ER.lt b d) := by
  obtain ⟨ha, hb⟩ := bounds_eq_some_iff.1 hX
  obtain ⟨hc, hd⟩ := bounds_eq_some_iff.1 hY
  rw [refStarts, andAlso_fst, fpEq_of_erOf ha hc, fpLt_of_erOf hb hd]

theorem refFinishes_of_bounds : (refFinishes fmt X Y).1 = (decide (b = d) && ER.lt c a) := by
  obtain ⟨ha, hb⟩ := bounds_eq_some_iff.1 hX
  obtain ⟨hc, hd⟩ := bounds_eq_some_iff.1 hY
  rw [refFinishes, andAlso_fst, fpEq_of_erOf hb hd, fpLt_of_erOf hc ha]

theorem refEqual_of_bounds : (refEqual fmt X Y).1 = (decide (a = c) && decide (b = d)) := by
  obtain ⟨ha, hb⟩ := bounds_eq_some_iff.1 hX
  obtain ⟨hc, hd⟩ := bounds_eq_some_iff.1 hY
  rw [refEqual, andAlso_fst, fpEq_of_erOf ha hc, fpEq_of_erOf hb hd]

end

section
variable {fmt : Fmt}

/-- `Overlaps` both ways round would order the two lower bounds both ways. -/
theorem refOverlaps_asymm {X Y : Interval fmt} (h : (refOverlaps fmt X Y).1 = true) : ¬ (refOverlaps fmt Y X).1 = true := by
  simp only [refOverlaps, andAlso_fst, Bool.and_eq_true] at h ⊢
  obtain ⟨⟨hlo, -⟩, -⟩ := h
  rintro ⟨⟨hlo', -⟩, -⟩
  exact fpLt_asymm hlo hlo'

/-- Lower bounds that are zeros of either sign are equal (R118). -/
theorem refEqual_of_zeros {v : Datum fmt} (hv : isNaN v = false) (s s' : Bool) :
    (refEqual fmt { lo := zeroDatum fmt s, hi := v } { lo := zeroDatum fmt s', hi := v }).1 = true := by
  obtain ⟨e, he⟩ := exists_erOf hv
  have hbounds : ∀ z, bounds (fmt := fmt) { lo := zeroDatum fmt z, hi := v } = some (.fin 0, e) := fun z =>
    bounds_eq_some_iff.2 ⟨erOf_zeroDatum fmt z, he⟩
  simp [refEqual_of_bounds (hbounds s) (hbounds s')]

/-- A NaN bound is not equal to itself (R118). -/
theorem refEqual_self_of_nan {X : Interval fmt} (h : bounds X = none) : (refEqual fmt X X).1 = false := by
  rw [refEqual, andAlso_fst]
  rcases bounds_eq_none_iff.1 h with hlo | hhi
  · rw [fpEq_of_isNaN (.inl hlo), Bool.false_and]
  · rw [fpEq_of_isNaN (.inl hhi), Bool.and_false]

end

/-! ## Allen's thirteen relations in a linear order (43_temporal.md section 2) -/

/-- Of two proper intervals one ends before or where the other begins, or they share inner points and the lower and the upper
bounds are each ordered in one of three ways: four cases and nine, each of them one relation. -/
theorem count_allen_eq_one {α : Type*} [LinearOrder α] {a b c d : α} (hX : a < b) (hY : c < d) :
    [decide (b < c), decide (b = c), decide (a < c) && decide (c < b) && decide (b < d), decide (c < a) && decide (b < d),
      decide (a = c) && decide (b < d), decide (b = d) && decide (c < a), decide (a = c) && decide (b = d),
      decide (d < a), decide (d = a), decide (c < a) && decide (a < d) && decide (d < b), decide (a < c) && decide (d < b),
      decide (c = a) && decide (d < b), decide (d = b) && decide (a < c)].count true = 1 := by
  rcases lt_trichotomy b c with hbc | rfl | hcb
  · have hac := hX.trans hbc
    have hbd := hbc.trans hY
    have had := hac.trans hY
    simp [*, lt_asymm, LT.lt.ne, LT.lt.ne']
  · have had := hX.trans hY
    simp [*, lt_asymm, LT.lt.ne, LT.lt.ne']
  rcases lt_trichotomy d a with hda | rfl | had
  · have hca := hY.trans hda
    have hdb := hda.trans hX
    simp [*, lt_asymm, LT.lt.ne, LT.lt.ne']
  · simp [*, lt_asymm, LT.lt.ne, LT.lt.ne']
  -- Inner points are shared: each of the nine orders of the lower and of the upper bounds is one relation.
  rcases lt_trichotomy a c with hac | rfl | hca <;> rcases lt_trichotomy b d with hbd | rfl | hdb <;>
    simp [*, lt_asymm, LT.lt.ne, LT.lt.ne']

end Sys2Proof.Machine

section
open Sys2Proof Sys2Proof.Machine

/-- Settles O47: each relation is its comparisons by definition; on values each comparison is that of the extended reals. -/
theorem referenceRelations : Obligations.ReferenceRelations := by
  intro fmt X Y
  refine ⟨⟨rfl, rfl, rfl, rfl, rfl, rfl, rfl⟩, fun a b c d hX hY => ?_, fun ⟨h, h'⟩ => refOverlaps_asymm h h',
    fun v s s' hv => refEqual_of_zeros hv s s', refEqual_self_of_nan⟩
  exact ⟨refBefore_of_bounds hX hY, refMeets_of_bounds hX hY, refOverlaps_of_bounds hX hY, refDuring_of_bounds hX hY,
    refStarts_of_bounds hX hY, refFinishes_of_bounds hX hY, refEqual_of_bounds hX hY⟩

/-- Settles O49: on values the bits are Allen's relations of the extended reals, of which exactly one holds. -/
theorem allenRelationsAreExclusive : Obligations.AllenRelationsAreExclusive := by
  intro fmt X Y a b c d hX hY hab hcd
  have hcount := count_allen_eq_one (ER.lt_iff.1 hab) (ER.lt_iff.1 hcd)
  simpa only [refBefore_of_bounds hX hY, refMeets_of_bounds hX hY, refOverlaps_of_bounds hX hY, refDuring_of_bounds hX hY,
    refStarts_of_bounds hX hY, refFinishes_of_bounds hX hY, refEqual_of_bounds hX hY, refBefore_of_bounds hY hX,
    refMeets_of_bounds hY hX, refOverlaps_of_bounds hY hX, refDuring_of_bounds hY hX, refStarts_of_bounds hY hX,
    refFinishes_of_bounds hY hX, ER.lt_eq_decide, ER.decide_eq_toEReal] using hcount

end

/-! The CSR instructions (R220 to R229): the one shared access on each of the three CSRs, and what is refused of the
host's other words. -/

namespace Sys2Proof.Machine

/-! ## The three CSRs (R35, R222) -/

theorem namesCsr_iff {csr : CsrNumber} : NamesCsr csr ↔ ∃ c, csrOfNumber csr = some c := by
  simp [NamesCsr, csrOfNumber_eq_some, exists_or]

theorem csrOfNumber_eq_none {csr : CsrNumber} (h : ¬ NamesCsr csr) : csrOfNumber csr = none :=
  Option.eq_none_iff_forall_ne_some.2 fun c hc => h (namesCsr_iff.2 ⟨c, hc⟩)

/-- A CSR reads as its fields, zero-extended. -/
theorem csrRead_eq_csrImage {csr : CsrNumber} {c : Csr} (hc : csrOfNumber csr = some c) (s : State) :
    csrRead s c = csrImage s csr := by
  obtain ⟨rfl, rfl⟩ | ⟨rfl, rfl⟩ | ⟨rfl, rfl⟩ := (csrOfNumber_eq_some csr c).1 hc
  all_goals exact BitVec.setWidth_eq_append (by decide)

/-- The fields of a CSR are at most eight bits, which an `x` register of either width holds. -/
theorem truncTo_csrRead (w : Width) (s : State) (c : Csr) : truncTo w (csrRead s c) = csrRead s c := by
  have hfits : (csrRead s c).toNat < 2 ^ 8 := by
    cases c with
    | fflags | frm | fcsr => rw [csrRead, BitVec.toNat_setWidth]; omega
  exact truncTo_of_lt w _ (hfits.trans_le (by cases w <;> decide))

/-- A write to a CSR changes the fields it shows and no other. -/
theorem csrTakes_csrWrite {csr : CsrNumber} {c : Csr} (hc : csrOfNumber csr = some c) (s : State) (v : Word) :
    CsrTakes s (csrWrite s c v) csr v := by
  obtain ⟨rfl, rfl⟩ | ⟨rfl, rfl⟩ | ⟨rfl, rfl⟩ := (csrOfNumber_eq_some csr c).1 hc
  all_goals simp [CsrTakes]

/-! ## The result of a CSR instruction (R222) -/

/-- Storing the old value and moving `pc` on completes a CSR access, from any state `u` that differs from `s` in the CSR
fields only. -/
theorem csrCompletes_of_written {s u : State} {csr : CsrNumber} {c : Csr} (hc : csrOfNumber csr = some c) (rd : Reg)
    (hcfg : u.cfg = s.cfg) (hx : ∀ r, readX u r = readX s r) (hf : ∀ r, readF u r = readF s r) (hpc : u.pc = s.pc)
    (hmem : u.mem = s.mem) : CsrCompletes s (advancePc (writeX u rd (csrRead s c))) rd csr := by
  refine ⟨?_, fun a => ?_, fun r => ?_, fun r => ?_, ?_⟩
  · simp [hcfg]
  · simp [hmem]
  · simp [hf]
  · rw [readX_advancePc, readX_writeX, truncTo_csrRead, csrRead_eq_csrImage hc, hx]
  · rw [advancePc_pc, writeX_cfg, writeX_pc, hcfg, hpc, truncTo_add_four]

/-- A CSR instruction on one of the three CSRs completes; the CSR takes the new value of its old one where the instruction
writes, and is unchanged where it does not. -/
theorem exec_csr_result {i : Instr} {s : State} {word : InstrWord} {csr : CsrNumber} {rd : Reg} {write : Bool}
    {newValue : Word → Word} (hexec : exec i s = csrAccess word csr rd write newValue s) (hcsr : NamesCsr csr) :
    ∃ t, exec i s = .next t ∧ CsrCompletes s t rd csr ∧
      (write = true → CsrTakes s t csr (newValue (csrImage s csr))) ∧
      (write = false → t.fflags = s.fflags ∧ t.frm = s.frm) := by
  obtain ⟨c, hc⟩ := namesCsr_iff.1 hcsr
  refine ⟨_, hexec.trans (csrAccess_eq_next.2 ⟨c, hc, rfl⟩), ?_⟩
  cases write with
  | true =>
    have htakes := csrTakes_csrWrite hc s (newValue (csrRead s c))
    refine ⟨csrCompletes_of_written hc rd (csrWrite_cfg ..) (readX_csrWrite s c _) (readF_csrWrite s c _)
      (csrWrite_pc ..) (csrWrite_mem ..), fun _ => ?_, nofun⟩
    rw [← csrRead_eq_csrImage hc]
    simpa [CsrTakes] using htakes
  | false => exact ⟨csrCompletes_of_written hc rd rfl (fun _ => rfl) (fun _ => rfl) rfl rfl, nofun, fun _ => by simp⟩

/-- A CSR instruction that sets or clears bits writes except where its operand field is 0 (R225, R226, R228, R229). -/
theorem exec_csr_bits_result {i : Instr} {s : State} {word : InstrWord} {csr : CsrNumber} {rd : Reg} {op : BitVec 5}
    {newValue : Word → Word} (hexec : exec i s = csrAccess word csr rd (op != 0#5) newValue s) (hcsr : NamesCsr csr) :
    ∃ t, exec i s = .next t ∧ CsrCompletes s t rd csr ∧
      (op ≠ 0#5 → CsrTakes s t csr (newValue (csrImage s csr))) ∧
      (op = 0#5 → t.fflags = s.fflags ∧ t.frm = s.frm) := by
  simpa only [bne_iff_ne, bne_eq_false_iff_eq] using exec_csr_result hexec hcsr

/-- The immediate of `CSRRWI`, `CSRRSI` and `CSRRCI`, zero-extended (R227 to R229). -/
theorem setWidth_uimm (uimm : BitVec 5) : uimm.setWidth 64 = (0#59 ++ uimm : Word) := BitVec.setWidth_eq_append (by decide)

/-! ## What is refused (R220 case (c)) -/

/-- The instructions outside the extension are the six CSR instructions; on another CSR number they are refused with their own
word. -/
theorem exec_of_not_namesCsr {i : Instr} (hi : formatOf i = none) (hcsr : ¬ NamesCsr (csrOf (encode i))) (s : State) :
    exec i s = .refused (.undescribedHostInstruction s.pc (encode i)) := by
  cases i with
  | csrrw | csrrs | csrrc | csrrwi | csrrsi | csrrci =>
    rw [encode, csrOf_packCsr] at hcsr
    simp only [exec_csrrw, exec_csrrs, exec_csrrc, exec_csrrwi, exec_csrrsi, exec_csrrci]
    exact csrAccess_of_none (csrOfNumber_eq_none hcsr)
  | _ => exact absurd hi nofun

/-- A word that is none of the spec's instructions is refused at the fetch. -/
theorem step_of_undescribed {s : State} {b0 b1 b2 b3 : Byte} (hl : s.cfg.legal = true) (hp : s.pc.toNat % 4 = 0)
    (hm : memRead s.mem s.pc.toNat 4 = some [b0, b1, b2, b3])
    (h : decode (wordOfBytes b0 b1 b2 b3) = .error .undescribed) :
    step s = .refused (.undescribedHostInstruction s.pc (wordOfBytes b0 b1 b2 b3)) := by
  have hfetch : fetchInstr s = .refused (.undescribedHostInstruction s.pc (wordOfBytes b0 b1 b2 b3)) := by
    simp [fetchInstr, decodeBytes, hp, hm, h]
  simp [step, hl, hfetch]

/-- The `funct3` values of `SYSTEM` that name no CSR instruction (R221). -/
theorem funct3_mem_iff (b : BitVec 3) : b.toNat ∈ [0, 4] ↔ ¬ (b ≠ 0 ∧ b ≠ 4) := by revert b; decide

end Sys2Proof.Machine

section
open Sys2Proof Sys2Proof.Machine

/-- Settles O8: a word outside the extension is rejected by the decoder and refused at the fetch, or is a CSR instruction, which
is refused on another CSR number. -/
theorem undescribedHostWordsAreRefused : Obligations.UndescribedHostWordsAreRefused := by
  refine ⟨?_, fun s rd rs1 csr hcsr => ?_⟩
  · intro s b0 b1 b2 b3 hl hp hm w hop h
    change opcodeOf w ≠ systemOpcode ∨ (funct3Of w).toNat ∈ [0, 4] ∨ ¬ NamesCsr (csrOf w) at h
    rw [funct3_mem_iff] at h
    generalize hd : decode w = answer
    cases decoding_of_eq hd with
    | csr hsys hf hrow =>
      have hcsr : ¬ NamesCsr (csrOf w) := (h.resolve_left (not_not.2 hsys)).resolve_left (not_not.2 hf)
      rw [← encode_of_decode hd] at hcsr ⊢
      exact (step_of_decode hl hp hm hd).trans (exec_of_not_namesCsr hrow.formatOf_eq hcsr s)
    | undescribed => exact step_of_undescribed hl hp hm hd
    | reservedFormat hinterval | unassigned hinterval | arithmetic hinterval | statistical hinterval | statisticalRs2 hinterval
    | temporal hinterval | temporalRm hinterval => exact absurd hinterval hop
  · refine ⟨?_, ?_, ?_, ?_, ?_, ?_⟩
    all_goals exact exec_of_not_namesCsr rfl (by rwa [encode, csrOf_packCsr]) s

/-- Settles O25: the shared result of the family, with the operand for the new value. -/
theorem csrWriteResult : Obligations.CsrWriteResult := by
  intro s rd rs1 uimm csr hcsr
  obtain ⟨t, ht, hcompletes, htakes, -⟩ := exec_csr_result (exec_csrrw rd csr rs1 s) hcsr
  obtain ⟨t', ht', hcompletes', htakes', -⟩ := exec_csr_result (exec_csrrwi rd csr uimm s) hcsr
  exact ⟨⟨t, ht, hcompletes, htakes rfl⟩, ⟨t', ht', hcompletes', setWidth_uimm uimm ▸ htakes' rfl⟩⟩

/-- Settles O26: the shared result of the family, with the union of old value and operand; register or immediate 0 is the case
without a write. -/
theorem csrSetResult : Obligations.CsrSetResult := by
  intro s rd rs1 uimm csr hcsr
  exact ⟨exec_csr_bits_result (exec_csrrs ..) hcsr, setWidth_uimm uimm ▸ exec_csr_bits_result (exec_csrrsi ..) hcsr⟩

/-- Settles O27: the shared result of the family, with the old value without the operand's bits; register or immediate 0 is the
case without a write. -/
theorem csrClearResult : Obligations.CsrClearResult := by
  intro s rd rs1 uimm csr hcsr
  exact ⟨exec_csr_bits_result (exec_csrrc ..) hcsr, setWidth_uimm uimm ▸ exec_csr_bits_result (exec_csrrci ..) hcsr⟩

end

/-! Where `IllegalInstruction` comes from (R244, R245): a fault of that name needs four bytes fetched at an aligned `pc`, and no
word outside the extension raises it. -/

namespace Sys2Proof.Machine

/-! ## The bytes of a fetched word (R62) -/

/-- A word put together from four bytes gives them back, the first at the lowest address: `wordOfBytes_bytesOfWord` from the
other side. -/
theorem bytesOfWord_wordOfBytes (b0 b1 b2 b3 : Byte) : bytesOfWord (wordOfBytes b0 b1 b2 b3) = [b0, b1, b2, b3] := by
  simp only [bytesOfWord, wordOfBytes, List.cons.injEq, and_true]
  refine ⟨?_, ?_, ?_, ?_⟩
  · rw [BitVec.extractLsb'_append_eq_of_add_le (by omega)]
    simp
  · rw [BitVec.extractLsb'_append_eq_of_le (by omega), BitVec.extractLsb'_append_eq_of_add_le (by omega)]
    simp
  · rw [BitVec.extractLsb'_append_eq_of_le (by omega), BitVec.extractLsb'_append_eq_of_le (by omega),
      BitVec.extractLsb'_append_eq_of_add_le (by omega)]
    simp
  · rw [BitVec.extractLsb'_append_eq_of_le (by omega), BitVec.extractLsb'_append_eq_of_le (by omega),
      BitVec.extractLsb'_append_eq_of_le (by omega)]
    simp

/-! ## What the step answers before it has a word (R25, R63, R271) -/

theorem step_of_illegal_cfg {s : State} (hl : s.cfg.legal = false) : step s = .refused (.illegalConfiguration s.cfg) := by
  simp [step, hl]

section
variable {s : State} (hl : s.cfg.legal = true)
include hl

theorem step_of_misaligned (hp : s.pc.toNat % 4 ≠ 0) : step s = .fault (.stuckMisalignedPc s.pc) := by
  have hfetch : fetchInstr s = .fault (.stuckMisalignedPc s.pc) := by simp [fetchInstr, hp]
  simp [step, hl, hfetch]

theorem step_of_unread (hp : s.pc.toNat % 4 = 0) (hm : memRead s.mem s.pc.toNat 4 = none) :
    step s = .fault (.stuckOutsideProgram s.pc) := by
  have hfetch : fetchInstr s = .fault (.stuckOutsideProgram s.pc) := by simp [fetchInstr, hp, hm]
  simp [step, hl, hfetch]

end

/-- `IllegalInstruction` is raised with a word at hand: in a legal configuration, on four bytes read at an aligned `pc`. -/
theorem fetched_of_step_illegalInstruction {s : State} {p : Word} {w : InstrWord}
    (h : step s = .fault (.illegalInstruction p w)) :
    s.cfg.legal = true ∧ s.pc.toNat % 4 = 0 ∧ ∃ b0 b1 b2 b3, memRead s.mem s.pc.toNat 4 = some [b0, b1, b2, b3] := by
  cases hl : s.cfg.legal with
  | false => exact absurd ((step_of_illegal_cfg hl).symm.trans h) nofun
  | true =>
    by_cases hp : s.pc.toNat % 4 = 0
    · cases hm : memRead s.mem s.pc.toNat 4 with
      | none => exact absurd ((step_of_unread hl hp hm).symm.trans h) nofun
      | some bs =>
        obtain ⟨hlen, -⟩ := memRead_eq_some.1 hm
        obtain ⟨b0, b1, b2, b3, rfl⟩ := List.length_eq_four.1 hlen
        exact ⟨rfl, hp, b0, b1, b2, b3, rfl⟩
    · exact absurd ((step_of_misaligned hl hp).symm.trans h) nofun

/-! ## Words outside the extension (R220, R245) -/

/-- A CSR instruction completes or is refused; it raises no exception. -/
theorem exec_ne_fault_of_formatOf {i : Instr} (hi : formatOf i = none) (s : State) (r : Fault) : exec i s ≠ .fault r := by
  cases family i with
  | arithmetic hfmt | statistical hfmt | temporal hfmt => exact absurd (hi.symm.trans hfmt) nofun
  | @csr _ csr _ _ _ _ _ _ _ hexec =>
    rw [hexec]
    cases hc : csrOfNumber csr with
    | none => rw [csrAccess_of_none hc]; nofun
    | some c => rw [csrAccess_eq_next.2 ⟨c, hc, rfl⟩]; nofun

/-- A word outside the extension is a CSR instruction, or is refused at the fetch; neither is a fault. -/
theorem step_ne_fault_of_host_word {s : State} {b0 b1 b2 b3 : Byte} (hl : s.cfg.legal = true) (hp : s.pc.toNat % 4 = 0)
    (hm : memRead s.mem s.pc.toNat 4 = some [b0, b1, b2, b3]) (hop : opcodeOf (wordOfBytes b0 b1 b2 b3) ≠ intervalOpcode)
    (r : Fault) : step s ≠ .fault r := by
  generalize hd : decode (wordOfBytes b0 b1 b2 b3) = answer
  cases decoding_of_eq hd with
  | csr _ _ hrow =>
    rw [step_of_decode hl hp hm hd]
    exact exec_ne_fault_of_formatOf hrow.formatOf_eq s r
  | undescribed =>
    rw [step_of_undescribed hl hp hm hd]
    nofun
  | reservedFormat hinterval | unassigned hinterval | arithmetic hinterval | statistical hinterval | statisticalRs2 hinterval
  | temporal hinterval | temporalRm hinterval => exact absurd hinterval hop

end Sys2Proof.Machine

section
open Sys2Proof Sys2Proof.Machine

/-- Settles O12: the fault needs a fetched word, and one of the extension; of those O11 says which fault, and that the words
that are not reserved have a next state. -/
theorem illegalInstructionOnlyOnReservedWords : Obligations.IllegalInstructionOnlyOnReservedWords := by
  intro s p w h
  obtain ⟨hl, hp, b0, b1, b2, b3, hm⟩ := fetched_of_step_illegalInstruction h
  have hop : opcodeOf (wordOfBytes b0 b1 b2 b3) = intervalOpcode := by
    by_contra hne
    exact step_ne_fault_of_host_word hl hp hm hne _ h
  obtain ⟨hfault, hnext⟩ := reservedWordsRaiseIllegalInstruction s b0 b1 b2 b3 hl hp hm hop
  have hreserved : ReservedWord s.cfg s.frm (wordOfBytes b0 b1 b2 b3) := by
    by_contra hnot
    obtain ⟨t, ht⟩ := hnext hnot
    exact absurd (ht.symm.trans h) nofun
  obtain ⟨rfl, rfl⟩ : s.pc = p ∧ wordOfBytes b0 b1 b2 b3 = w :=
    Fault.illegalInstruction.inj (Host.Outcome.fault.inj ((hfault hreserved).symm.trans h))
  exact ⟨rfl, hop, hreserved, hm.trans (congrArg some (bytesOfWord_wordOfBytes b0 b1 b2 b3).symm)⟩

end

section
open Sys2Proof Sys2Proof.Machine

/-- Settles O10: legality is the step's first test, so its answer outside R10's list is `step_of_illegal_cfg`, whatever stands at
`pc`. -/
theorem illegalConfigurationIsRefused : Obligations.IllegalConfigurationIsRefused :=
  fun _ hl => step_of_illegal_cfg hl

end

/-! The start of a run (R42, R270, R271): the reset state is one of the start states that the spec admits. -/

namespace Sys2Proof.Machine

/-- A file of zeros fits registers of either width. -/
theorem fileFits_replicate_zero (w : Width) : fileFits w (Vector.replicate 32 0#64) = true := by
  simp [fileFits]

end Sys2Proof.Machine

section
open Sys2Proof Sys2Proof.Machine

/-- Settles O51, one clause of `State.inv_iff` each: the configuration at reset is legal, both register files are zeros,
`RESET_PC` is an aligned address of the space, and nothing is in `PROGRAM`. -/
theorem resetSatisfiesInvariant : Obligations.ResetSatisfiesInvariant := by
  have hlegal : State.reset.cfg.legal = true := (Config.legal_iff _).2 ⟨.inl rfl, nofun⟩
  have hrange : State.reset.pc.toNat < 2 ^ State.reset.cfg.xlen.bits := by decide
  have haligned : State.reset.pc.toNat % 4 = 0 := by decide
  exact State.inv_iff.2 ⟨hlegal, fileFits_replicate_zero _, rfl, fileFits_replicate_zero _, hrange, haligned, rfl, nofun⟩

end
